-- ==== Sys2Proof/Word.lean ====
section
/-! DEFINITION. The two widths every value of the block has (00_scope.md R8): bytes and halfwords. Both are unsigned;
no signed value occurs anywhere in the block. -/

namespace Sys2Proof

/-- A byte, "an 8-bit unsigned value 0 to 255" (00_scope.md R8). -/
abbrev Byte := BitVec 8

/-- A halfword, "a 16-bit unsigned value 0 to 65535" (00_scope.md R8): lengths, indices, CRCs, tick counts and host
command words. -/
abbrev Half := BitVec 16

end Sys2Proof
end

