-- ==== Sys2Proof/Syntax.lean ====
section
/-! DEFINITION. The host commands of the block: one constructor per row of the opcode table (30_encoding.md R53), and
the assembler's pseudo-instructions (30_encoding.md R57). Every operand is the unsigned byte IMM (R52). -/

namespace Sys2Proof

/-- A host command (30_encoding.md R53). Format Z commands have no operand; format I commands have the byte IMM. -/
inductive Instr where
  /-- `NOP` (44_readback.md R108). -/
  | nop
  /-- `CRC.INIT` (40_crc.md R65). -/
  | crcInit
  /-- `CRC.BYTE b` (40_crc.md R66). -/
  | crcByte (b : Byte)
  /-- `REQ.CLEAR` (41_encoder.md R69). -/
  | reqClear
  /-- `REQ.CMD c` (41_encoder.md R70). -/
  | reqCmd (c : Byte)
  /-- `REQ.PUSH b` (41_encoder.md R71). -/
  | reqPush (b : Byte)
  /-- `ENC.SEND` (41_encoder.md R72). -/
  | encSend
  /-- `DEC.RESET` (42_decoder.md R84). -/
  | decReset
  /-- `DEC.FEED b` (42_decoder.md R85). -/
  | decFeed (b : Byte)
  /-- `IDX.LO n` (44_readback.md R109). -/
  | idxLo (n : Byte)
  /-- `IDX.HI n` (44_readback.md R110). -/
  | idxHi (n : Byte)
  /-- `RD s` (44_readback.md R111). -/
  | rd (sel : Byte)
  /-- `CFG.ATT n` (43_sequencer.md R92). -/
  | cfgAtt (n : Byte)
  /-- `CFG.TMOL t` (43_sequencer.md R93). -/
  | cfgTmol (t : Byte)
  /-- `CFG.TMOH t` (43_sequencer.md R93). -/
  | cfgTmoh (t : Byte)
  /-- `CFG.POLLL p` (43_sequencer.md R94). -/
  | cfgPolll (p : Byte)
  /-- `CFG.POLLH p` (43_sequencer.md R94). -/
  | cfgPollh (p : Byte)
  /-- `TXN.START` (43_sequencer.md R95). -/
  | txnStart
deriving DecidableEq, Repr

/-- A pseudo-instruction of the spec's assembler (30_encoding.md R57); `Pseudo.expand` gives its real commands. -/
inductive Pseudo where
  /-- `CFG.TIMEOUT n`. -/
  | cfgTimeout (n : Half)
  /-- `CFG.POLL n`. -/
  | cfgPoll (n : Half)
  /-- `IDX n`. -/
  | idx (n : Half)
  /-- `REQ.LOAD c, b0, ..., bk`. -/
  | reqLoad (c : Byte) (bs : List Byte)
  /-- `CRC.BLOCK b0, ..., bk`. -/
  | crcBlock (bs : List Byte)
  /-- `DEC.FEEDS b0, ..., bk`. -/
  | decFeeds (bs : List Byte)
deriving DecidableEq, Repr

end Sys2Proof
end

