-- ==== Sys2Proof/WellFormed.lean ====
section
/-! DEFINITION. Which commands are legal encodings (30_encoding.md R54). An operand is a byte by its type, so the one
check left is that an `RD` names an assigned selector. -/

namespace Sys2Proof

/-- The assigned `RD` selectors: "0x00 to 0x04, 0x08 to 0x14, 0x18 to 0x25, 0x28 to 0x2A" (30_encoding.md R54). -/
def assignedSelector (sel : Byte) : Bool :=
  sel.toNat ≤ 0x04 || (0x08 ≤ sel.toNat && sel.toNat ≤ 0x14) || (0x18 ≤ sel.toNat && sel.toNat ≤ 0x25)
    || (0x28 ≤ sel.toNat && sel.toNat ≤ 0x2A)

/-- A command is well formed when its word is not illegal by 30_encoding.md R54: every command but an `RD` of an
unassigned selector. Such an `RD` still decodes, and its own check answers ILLEGAL (R55, the fourth check). -/
def Instr.wellFormed : Instr → Bool
  | .nop => true
  | .crcInit => true
  | .crcByte _ => true
  | .reqClear => true
  | .reqCmd _ => true
  | .reqPush _ => true
  | .encSend => true
  | .decReset => true
  | .decFeed _ => true
  | .idxLo _ => true
  | .idxHi _ => true
  | .rd sel => assignedSelector sel
  | .cfgAtt _ => true
  | .cfgTmol _ => true
  | .cfgTmoh _ => true
  | .cfgPolll _ => true
  | .cfgPollh _ => true
  | .txnStart => true

end Sys2Proof
end

