-- ==== Sys2Proof/Decode.lean ====
section
/-! DEFINITION. The host command word (30_encoding.md R51 to R55): its fields, the decoder, the encoder and the
assembler's pseudo-instructions (R57). A command word is 16 bits, delivered whole (R51), so the decoder reads one
halfword. -/

namespace Sys2Proof

/-- `OP = w[15:8]` (30_encoding.md R51). -/
def opField (w : Half) : Byte := w.extractLsb' 8 8

/-- `IMM = w[7:0]` (30_encoding.md R51). -/
def immField (w : Half) : Byte := w.extractLsb' 0 8

/-- Why a word is no command, by the first two checks of 30_encoding.md R55. Both execute as status ILLEGAL. -/
inductive DecodeReject where
  /-- The OP value is reserved (R54; check 1 of R55). -/
  | reservedOp (op : Byte)
  /-- A format Z word with `IMM != 0x00` (R54; check 2 of R55). -/
  | immNotZero (op imm : Byte)
deriving DecidableEq, Repr

/-- Format Z (30_encoding.md R51): IMM "must be `0x00`". -/
def formatZ (op imm : Byte) (i : Instr) : Except DecodeReject Instr :=
  if imm = 0x00#8 then .ok i else .error (.immNotZero op imm)

/-- The command map of 30_encoding.md R53, checks 1 and 2 of R55: total on every word, rejecting by name. -/
def decode (w : Half) : Except DecodeReject Instr :=
  let op := opField w
  let imm := immField w
  match op with
  | 0x00#8 => formatZ op imm .nop
  | 0x01#8 => formatZ op imm .crcInit
  | 0x02#8 => .ok (.crcByte imm)
  | 0x10#8 => formatZ op imm .reqClear
  | 0x11#8 => .ok (.reqCmd imm)
  | 0x12#8 => .ok (.reqPush imm)
  | 0x13#8 => formatZ op imm .encSend
  | 0x20#8 => formatZ op imm .decReset
  | 0x21#8 => .ok (.decFeed imm)
  | 0x30#8 => .ok (.idxLo imm)
  | 0x31#8 => .ok (.idxHi imm)
  | 0x32#8 => .ok (.rd imm)
  | 0x40#8 => .ok (.cfgAtt imm)
  | 0x41#8 => .ok (.cfgTmol imm)
  | 0x42#8 => .ok (.cfgTmoh imm)
  | 0x43#8 => .ok (.cfgPolll imm)
  | 0x44#8 => .ok (.cfgPollh imm)
  | 0x48#8 => formatZ op imm .txnStart
  | _ => .error (.reservedOp op)

/-- The OP value of a command (30_encoding.md R53). -/
def Instr.opcode : Instr → Byte
  | .nop => 0x00#8
  | .crcInit => 0x01#8
  | .crcByte _ => 0x02#8
  | .reqClear => 0x10#8
  | .reqCmd _ => 0x11#8
  | .reqPush _ => 0x12#8
  | .encSend => 0x13#8
  | .decReset => 0x20#8
  | .decFeed _ => 0x21#8
  | .idxLo _ => 0x30#8
  | .idxHi _ => 0x31#8
  | .rd _ => 0x32#8
  | .cfgAtt _ => 0x40#8
  | .cfgTmol _ => 0x41#8
  | .cfgTmoh _ => 0x42#8
  | .cfgPolll _ => 0x43#8
  | .cfgPollh _ => 0x44#8
  | .txnStart => 0x48#8

/-- The IMM byte of a command; `0x00` for format Z (30_encoding.md R51). -/
def Instr.operand : Instr → Byte
  | .nop => 0x00#8
  | .crcInit => 0x00#8
  | .crcByte b => b
  | .reqClear => 0x00#8
  | .reqCmd c => c
  | .reqPush b => b
  | .encSend => 0x00#8
  | .decReset => 0x00#8
  | .decFeed b => b
  | .idxLo n => n
  | .idxHi n => n
  | .rd sel => sel
  | .cfgAtt n => n
  | .cfgTmol t => t
  | .cfgTmoh t => t
  | .cfgPolll p => p
  | .cfgPollh p => p
  | .txnStart => 0x00#8

/-- The encoding of a command, `(OP << 8) | IMM` (30_encoding.md R56). -/
def encode (i : Instr) : Half := (i.opcode.setWidth 16 <<< 8) ||| i.operand.setWidth 16

/-- The real commands a pseudo-instruction stands for, in order (30_encoding.md R57). -/
def Pseudo.expand : Pseudo → List Instr
  | .cfgTimeout n => [.cfgTmol (n.extractLsb' 0 8), .cfgTmoh (n.extractLsb' 8 8)]
  | .cfgPoll n => [.cfgPolll (n.extractLsb' 0 8), .cfgPollh (n.extractLsb' 8 8)]
  | .idx n => [.idxLo (n.extractLsb' 0 8), .idxHi (n.extractLsb' 8 8)]
  | .reqLoad c bs => .reqClear :: .reqCmd c :: bs.map .reqPush
  | .crcBlock bs => .crcInit :: bs.map .crcByte
  | .decFeeds bs => bs.map .decFeed

/-- The instruction the decoder reads from the opcode table's numbering of an instruction's bits: bit 0 is the least
significant bit of the first word, `nbits` the bits the table gives, every bit above them 0. The block's words are one
halfword each (30_encoding.md R51). -/
def decodeTableWord (nbits w : Nat) : Option Instr :=
  (decode (BitVec.ofNat 16 (w % 2 ^ nbits))).toOption

end Sys2Proof
end

