-- ==== Sys2Proof/Machine/Crc.lean ====
section
/-! DEFINITION. The CRC function of 40_crc.md: `crc_step` (R58), `crc16` (R59) and the source's `compute_crc` over a
range (R60). Reflected polynomial `0xA001`, initial value `0xFFFF`, no final XOR (30_encoding.md R46). -/

namespace Sys2Proof.Machine

/-- One of the 8 iterations of 40_crc.md R58: "if the low bit of the accumulator is 1, right-shift the accumulator by 1
and XOR with `0xA001`; else right-shift by 1 only". -/
def crcShift (acc : Half) : Half :=
  if acc.getLsbD 0 then (acc >>> 1) ^^^ 0xA001#16 else acc >>> 1

/-- `crc_step(acc, b)` (40_crc.md R58). -/
def crcStep (acc : Half) (b : Byte) : Half :=
  Nat.iterate crcShift 8 (acc ^^^ b.setWidth 16)

/-- `crc16(s)` (40_crc.md R59): `crc_step` folded over the bytes from `0xFFFF`, first byte first. -/
def crc16 (s : List Byte) : Half := s.foldl crcStep 0xFFFF#16

/-- `compute_crc(bytes, [start, end])` (40_crc.md R60), both bounds inclusive: `end = start - 1` is the empty range,
whose value is `0xFFFF`; a range outside the bytes is refused (93_implementation_defined.md I3; log 12). -/
def computeCrc (bytes : List Byte) (first last : Int) : Option Half :=
  if last = first - 1 then some (crc16 [])
  else if 0 ≤ first ∧ first ≤ last ∧ last < bytes.length then
    some (crc16 ((bytes.drop first.toNat).take ((last - first).toNat + 1)))
  else none

end Sys2Proof.Machine
end

