-- ==== Sys2Proof/Config.lean ====
section
/-! DEFINITION. What one implementation of the block fixes (00_scope.md R6): the parameters the model takes as
arguments. `State` carries them as plain data and no event writes them (10_state.md R24), so a statement about every
state holds for every value of every parameter (log 3). -/

namespace Sys2Proof

/-- The implementation parameters of 00_scope.md R6. Each 16-bit one ranges over 0 to 65535, the legal range R6 gives.
TICK_PERIOD is "not modelled" (R6). -/
structure Params where
  /-- `RX_CAP`, the capacity in bytes of the decoder's payload buffer and of the frame latch (R6, D5). -/
  rxCap : Half
  /-- `TX_CAP`, the capacity in bytes of the request payload buffer (R6, D6). -/
  txCap : Half
  /-- `PACE_DELAY`, the ticks between a failed attempt and the next send (R6, D15). -/
  paceDelay : Half
  /-- `REPLY_CMD`, "any total function byte → byte", default identity (R6, D21), as its list of exceptions to
  identity: the first pair whose left side is the request command gives the reply command (log 4). -/
  replyMap : List (Byte × Byte)
deriving DecidableEq, Repr

/-- The parameter values 95_test_vectors.md uses "unless stated": `RX_CAP` 16, `TX_CAP` 16, `PACE_DELAY` 1 and the
identity `REPLY_CMD`. The spec leaves the three numbers OPEN. DESIGN CHOICE, unsafe for a statement about
`State.reset` alone: log 3. -/
def Params.ofTestVectors : Params :=
  { rxCap := 16#16, txCap := 16#16, paceDelay := 1#16, replyMap := [] }

end Sys2Proof
end

