-- ==== Sys2Proof/Machine/State.lean ====
section
/-! DEFINITION. The state of the block (10_state.md): one record per register table, the transport queues of R27, the
implementation parameters of 00_scope.md R6 and the schedule that says which agent moves next (R29). Plain data. -/

namespace Sys2Proof.Machine

/-- The contents of one byte buffer (20_memory.md R31): cells (index, byte) in one canonical form, indices strictly
rising and no cell equal to what an unlisted index reads as (`Memory.wf` in Machine/Ops.lean). -/
abbrev Memory := List Host.Cell

/-! ## Code values (10_state.md R25). The numeric codes are in Machine/Flags.lean. Codes that never occur have no
constructor (93_implementation_defined.md I18, I19; log 8). -/

/-- `DEC_STATE`: the eight states of the receive machine, in the source's order (10_state.md R25). -/
inductive DecState where
  | awaitingStart | awaitingCommand | awaitingLength | awaitingData
  | awaitingCrcLow | awaitingCrcHigh | awaitingEnd | overflow
deriving DecidableEq, Repr

/-- `DEC_RESULT`: the outcome of the last `dec_step` (10_state.md R25). -/
inductive DecResult where
  | incomplete | frame | badChecksum | missingTerminator | overflow
deriving DecidableEq, Repr

/-- `TXN_PHASE` (10_state.md R25, 43_sequencer.md). -/
inductive TxnPhase where
  | idle | wait | pace | done
deriving DecidableEq, Repr

/-- `TXN_RESULT` (10_state.md R25). -/
inductive TxnResult where
  | none | ok | noReply
deriving DecidableEq, Repr

/-- `LAST_FAIL`: the reason of the last failed attempt (10_state.md R25). -/
inductive FailReason where
  | none | timeout | badChecksum | missingTerminator | overflow | mismatch
deriving DecidableEq, Repr

/-- `OPST`: the status of a host command (10_state.md R25, 60_exceptions.md R115). -/
inductive OpStatus where
  | ok | busy | full | illegal | range
deriving DecidableEq, Repr

/-! ## Agents and events (10_state.md R14, R28) -/

/-- The five agents that act on the state (10_state.md R14). -/
inductive Agent where
  | host | block | transport | clock | reset
deriving DecidableEq, Repr

/-- The events; "a step of the model is exactly one of these" (10_state.md R28). -/
inductive Event where
  /-- `CMD(w)`: the HOST issues command word `w`. -/
  | cmd (w : Half)
  /-- `RX(b)`: the TRANSPORT delivers byte `b`. -/
  | rx (b : Byte)
  /-- `FEED`: the BLOCK consumes one received byte. -/
  | feed
  /-- `CLOSE`: the BLOCK ends a poll point. -/
  | close
  /-- `RESEND`: the BLOCK starts the next attempt. -/
  | resend
  /-- `TICK`: the CLOCK delivers one unit of time. -/
  | tick
  /-- `RESET`: the RESET input. -/
  | reset
deriving DecidableEq, Repr

/-! ## The register tables -/

/-- Request (encoder input) registers (10_state.md R18). -/
structure ReqRegs where
  /-- `REQ_CMD`, 8 bits. -/
  cmd : Byte
  /-- `REQ_LEN`, 16 bits. -/
  len : Half
  /-- `REQ_BUF`, `TX_CAP` bytes. -/
  buf : Memory
deriving DecidableEq, Repr

/-- Decoder registers, the frame in progress (10_state.md R19). -/
structure DecRegs where
  /-- `DEC_STATE`, 3 bits. -/
  state : DecState
  /-- `DEC_LIDX`, the number of length bytes received, 0, 1 or 2 (log 8). -/
  lidx : Fin 3
  /-- `DEC_CMD`, 8 bits. -/
  cmd : Byte
  /-- `DEC_LEN`, 16 bits. -/
  len : Half
  /-- `DEC_PCOUNT`, 16 bits. -/
  pcount : Half
  /-- `DEC_BUF`, `RX_CAP` bytes. -/
  buf : Memory
  /-- `DEC_CRC_RUN`, 16 bits. -/
  crcRun : Half
  /-- `DEC_CRC_RX`, 16 bits. -/
  crcRx : Half
  /-- `DEC_RESULT`, 3 bits. -/
  result : DecResult
deriving DecidableEq, Repr

/-- The frame latch (10_state.md R20). -/
structure FrameLatch where
  /-- `FRM_VALID`, 1 bit. -/
  valid : Bool
  /-- `FRM_CMD`, 8 bits. -/
  cmd : Byte
  /-- `FRM_LEN`, 16 bits. -/
  len : Half
  /-- `FRM_CRC`, 16 bits. -/
  crc : Half
  /-- `FRM_BUF`, `RX_CAP` bytes. -/
  buf : Memory
deriving DecidableEq, Repr

/-- Transaction sequencer registers (10_state.md R21). -/
structure TxnRegs where
  /-- `TXN_PHASE`, 2 bits. -/
  phase : TxnPhase
  /-- `TXN_RESULT`, 2 bits. -/
  result : TxnResult
  /-- `LAST_FAIL`, 3 bits. -/
  lastFail : FailReason
  /-- `ATTEMPTS_LEFT`, 8 bits. -/
  attemptsLeft : Byte
  /-- `ATTEMPT_CNT`, 8 bits. -/
  attemptCnt : Byte
  /-- `DEADLINE_CNT`, 16 bits. -/
  deadlineCnt : Half
  /-- `POLL_CNT`, 16 bits. -/
  pollCnt : Half
  /-- `PACE_CNT`, 16 bits. -/
  paceCnt : Half
deriving DecidableEq, Repr

/-- Transaction configuration registers (10_state.md R22). -/
structure CfgRegs where
  /-- `MAX_ATTEMPTS`, 8 bits. -/
  maxAttempts : Byte
  /-- `TIMEOUT`, 16 bits, in ticks, per attempt. -/
  timeout : Half
  /-- `POLL_INTERVAL`, 16 bits, in ticks. -/
  pollInterval : Half
deriving DecidableEq, Repr

/-- Host interface registers (10_state.md R23). -/
structure HostRegs where
  /-- `IDX`, 16 bits. -/
  idx : Half
  /-- `RESP`, 16 bits, the read-data output. -/
  resp : Half
  /-- `OPST`, 3 bits. -/
  opst : OpStatus
deriving DecidableEq, Repr

/-- The whole machine: "exactly the named registers and buffers of this file plus the transport queues of rule R27"
(10_state.md R15), with the parameters of 00_scope.md R6 and the model's own schedule. -/
structure State where
  /-- `CRC_ACC`, 16 bits (10_state.md R17). -/
  crcAcc : Half
  /-- The request registers (R18). -/
  req : ReqRegs
  /-- The decoder registers (R19). -/
  dec : DecRegs
  /-- The frame latch (R20). -/
  frm : FrameLatch
  /-- The sequencer registers (R21). -/
  txn : TxnRegs
  /-- The configuration registers (R22). -/
  cfg : CfgRegs
  /-- The host interface registers (R23). -/
  host : HostRegs
  /-- `RXQ`: received bytes not yet consumed, oldest first, unbounded (R27). -/
  rxq : List Byte
  /-- `TXW`: every byte the block has transmitted, oldest first (R27). -/
  txw : List Byte
  /-- The implementation parameters (00_scope.md R6); no event writes them (R24; log 3). -/
  params : Params
  /-- The MODEL's own field: the events to come, oldest first, so that "any enabled event may be the next step" (R29)
  is shown by a deterministic step; empty, the block and the clock run on their own (log 1). -/
  schedule : List Event
deriving DecidableEq, Repr

/-- Why a step has no next state. No instruction raises one in a state that a run reaches. -/
inductive Fault where
  /-- Raised by `step` when the schedule names an event that 10_state.md R28 does not enable: the spec has no such
  step. Safe (log 2). -/
  | eventNotEnabled
  /-- Raised by the buffer operations of Machine/Ops.lean on an index at or beyond a buffer's capacity: that byte does
  not exist (20_memory.md R31). No state that a run from reset reaches raises it. Safe (log 6). -/
  | bufferBound
deriving DecidableEq, Repr

/-- Why an instruction has no meaning. Every instruction has one, so no step answers a refusal. -/
inductive Refusal where
  /-- Raised by an arm of `exec` whose instruction has no meaning; no arm is left so. Safe. -/
  | notModelled (mnemonic : String)
deriving DecidableEq, Repr

/-- The state right after reset of an implementation with parameters `p` (70_reset_and_hazards.md R127), with nothing
in the transport's queues (log 9), no buffer byte listed (log 5) and no event scheduled (log 1). -/
def State.resetWith (p : Params) : State :=
  { crcAcc := 0xFFFF#16
    req := { cmd := 0x00#8, len := 0#16, buf := [] }
    dec := { state := .awaitingStart, lidx := 0, cmd := 0x00#8, len := 0#16, pcount := 0#16, buf := [],
             crcRun := 0xFFFF#16, crcRx := 0x0000#16, result := .incomplete }
    frm := { valid := false, cmd := 0x00#8, len := 0#16, crc := 0x0000#16, buf := [] }
    txn := { phase := .idle, result := .none, lastFail := .none, attemptsLeft := 0#8, attemptCnt := 0#8,
             deadlineCnt := 0#16, pollCnt := 0#16, paceCnt := 0#16 }
    cfg := { maxAttempts := 0#8, timeout := 0#16, pollInterval := 0#16 }
    host := { idx := 0#16, resp := 0x0000#16, opst := .ok }
    rxq := []
    txw := []
    params := p
    schedule := [] }

/-- The machine right after reset (70_reset_and_hazards.md R127), with the parameter values of 95_test_vectors.md
(DESIGN CHOICE, log 3). -/
def State.reset : State := State.resetWith Params.ofTestVectors

end Sys2Proof.Machine
end

