-- ==== Sys2Proof/Machine/Flags.lean ====
section
/-! DEFINITION. The numeric codes of the enumerated registers (10_state.md R25) and the STATUS word that packs them
(44_readback.md R113). The block has no arithmetic flags (10_state.md R26). -/

namespace Sys2Proof.Machine

/-- The 3-bit code of `DEC_STATE` (10_state.md R25). -/
def DecState.code : DecState → BitVec 3
  | .awaitingStart => 0
  | .awaitingCommand => 1
  | .awaitingLength => 2
  | .awaitingData => 3
  | .awaitingCrcLow => 4
  | .awaitingCrcHigh => 5
  | .awaitingEnd => 6
  | .overflow => 7

/-- The 3-bit code of `DEC_RESULT` (10_state.md R25). -/
def DecResult.code : DecResult → BitVec 3
  | .incomplete => 0
  | .frame => 1
  | .badChecksum => 2
  | .missingTerminator => 3
  | .overflow => 4

/-- The 2-bit code of `TXN_PHASE` (10_state.md R25). -/
def TxnPhase.code : TxnPhase → BitVec 2
  | .idle => 0
  | .wait => 1
  | .pace => 2
  | .done => 3

/-- The 2-bit code of `TXN_RESULT` (10_state.md R25). -/
def TxnResult.code : TxnResult → BitVec 2
  | .none => 0
  | .ok => 1
  | .noReply => 2

/-- The 3-bit code of `LAST_FAIL` (10_state.md R25). -/
def FailReason.code : FailReason → BitVec 3
  | .none => 0
  | .timeout => 1
  | .badChecksum => 2
  | .missingTerminator => 3
  | .overflow => 4
  | .mismatch => 5

/-- The 3-bit code of `OPST` (10_state.md R25). -/
def OpStatus.code : OpStatus → BitVec 3
  | .ok => 0
  | .busy => 1
  | .full => 2
  | .illegal => 3
  | .range => 4

/-- The STATUS word (44_readback.md R113): bits 2:0 `DEC_STATE`, 3 `FRM_VALID`, 5:4 `TXN_PHASE`, 7:6 `TXN_RESULT`,
10:8 `OPST` before this RD, 15:11 zero. -/
def statusWord (s : State) : Half :=
  (0#5 ++ s.host.opst.code ++ s.txn.result.code ++ s.txn.phase.code ++ BitVec.ofBool s.frm.valid
    ++ s.dec.state.code).setWidth 16

/-- The agent whose event it is (10_state.md R28). -/
def Event.agent : Event → Agent
  | .cmd _ => .host
  | .rx _ => .transport
  | .feed => .block
  | .close => .block
  | .resend => .block
  | .tick => .clock
  | .reset => .reset

end Sys2Proof.Machine
end

