-- ==== Sys2Proof/Machine/Operands.lean ====
section
/-! DEFINITION. The forms an operand or a value takes: halves of a 16-bit register (00_scope.md R8, 30_encoding.md R52),
zero extension, the `RD` selectors (10_state.md, 44_readback.md R111), and the parameter function `REPLY_CMD`. -/

namespace Sys2Proof.Machine

/-- `lo(h) = h[7:0]` (00_scope.md R8). -/
def lo (h : Half) : Byte := h.extractLsb' 0 8

/-- `hi(h) = h[15:8]` (00_scope.md R8). -/
def hi (h : Half) : Byte := h.extractLsb' 8 8

/-- `zext_16(b)` (00_scope.md R8). -/
def zext16 (b : Byte) : Half := b.setWidth 16

/-- `b << 8` of a byte, "the halfword with `b` in bits 15:8" (00_scope.md R8). -/
def highByte (b : Byte) : Half := b.setWidth 16 <<< 8

/-- `R[7:0] <- b`: "replaces exactly the named 8 bits and keeps the other 8" (30_encoding.md R52). -/
def setLo (h : Half) (b : Byte) : Half := hi h ++ b

/-- `R[15:8] <- b` (30_encoding.md R52). -/
def setHi (h : Half) (b : Byte) : Half := b ++ lo h

/-- `sat_dec(n) = n - 1 if n > 0 else 0` (00_scope.md R11). -/
def satDec (n : Half) : Half := if 0#16 < n then n - 1#16 else 0#16

/-- `REPLY_CMD(c)`, the expected reply command: the listed exception, else `c` itself (00_scope.md R6, D21; log 4). -/
def replyCmd (p : Params) (c : Byte) : Byte :=
  match p.replyMap.find? (fun e => e.1 = c) with
  | some e => e.2
  | none => c

/-- The three buffers (20_memory.md R31). -/
inductive Buffer where
  /-- `REQ_BUF`, of `TX_CAP` bytes. -/
  | req
  /-- `DEC_BUF`, of `RX_CAP` bytes. -/
  | dec
  /-- `FRM_BUF`, of `RX_CAP` bytes. -/
  | frm
deriving DecidableEq, Repr

/-- The selectors that read a buffer byte, "IMM in {0x04, 0x0F, 0x13}" (44_readback.md R111). -/
def bufferOfSelector (sel : Byte) : Option Buffer :=
  match sel with
  | 0x04#8 => some .req
  | 0x0F#8 => some .dec
  | 0x13#8 => some .frm
  | _ => none

/-- `value(sel)` zero-extended to 16 bits, for every assigned selector that is no buffer's (44_readback.md R111): the
*sel* column of 10_state.md R17 to R23, and R24's `STATUS`, `RX_AVAIL` and the build parameters. -/
def selectorValue (s : State) (sel : Byte) : Option Half :=
  match sel with
  | 0x00#8 => some (statusWord s)
  | 0x01#8 => some s.crcAcc
  | 0x02#8 => some (zext16 s.req.cmd)
  | 0x03#8 => some s.req.len
  | 0x08#8 => some (s.dec.state.code.setWidth 16)
  | 0x09#8 => some (s.dec.result.code.setWidth 16)
  | 0x0A#8 => some (zext16 s.dec.cmd)
  | 0x0B#8 => some s.dec.len
  | 0x0C#8 => some s.dec.pcount
  | 0x0D#8 => some s.dec.crcRun
  | 0x0E#8 => some s.dec.crcRx
  | 0x10#8 => some ((BitVec.ofBool s.frm.valid).setWidth 16)
  | 0x11#8 => some (zext16 s.frm.cmd)
  | 0x12#8 => some s.frm.len
  | 0x14#8 => some s.frm.crc
  | 0x18#8 => some (s.txn.phase.code.setWidth 16)
  | 0x19#8 => some (s.txn.result.code.setWidth 16)
  | 0x1A#8 => some (s.txn.lastFail.code.setWidth 16)
  | 0x1B#8 => some (zext16 s.txn.attemptsLeft)
  | 0x1C#8 => some (zext16 s.txn.attemptCnt)
  | 0x1D#8 => some s.txn.deadlineCnt
  | 0x1E#8 => some s.txn.pollCnt
  | 0x1F#8 => some s.txn.paceCnt
  | 0x20#8 => some (zext16 s.cfg.maxAttempts)
  | 0x21#8 => some s.cfg.timeout
  | 0x22#8 => some s.cfg.pollInterval
  | 0x23#8 => some s.host.idx
  | 0x24#8 => some (BitVec.ofNat 16 (min s.rxq.length 0xFFFF))
  | 0x25#8 => some (BitVec.ofNat 16 s.dec.lidx.val)
  | 0x28#8 => some s.params.rxCap
  | 0x29#8 => some s.params.txCap
  | 0x2A#8 => some s.params.paceDelay
  | _ => none

end Sys2Proof.Machine
end

