-- ==== Sys2Proof/Machine/Ops.lean ====
section
/-! DEFINITION. The named operations over the buffers, the status register and the transmit wire that every meaning
uses. The block takes no exceptions (60_exceptions.md R118): the one shared way an error is reported is `setStatus`,
the spec's `status(c)` (R114). -/

namespace Sys2Proof.Machine

/-! ## Buffer bytes (20_memory.md R31 to R33) -/

/-- What a buffer byte that nothing has written reads as: "a model may hold any value there"
(70_reset_and_hazards.md R127). DESIGN CHOICE, unsafe: log 5. -/
def unlistedByte : Byte := 0x00#8

/-- The byte at an index. -/
def Memory.read : Memory → Nat → Byte
  | [], _ => unlistedByte
  | (k, v) :: rest, i => if k = i then v else Memory.read rest i

/-- One byte written, in canonical form: writing what an unlisted index reads as removes the cell. -/
def Memory.write : Memory → Nat → Byte → Memory
  | [], i, b => if b = unlistedByte then [] else [(i, b)]
  | (k, v) :: rest, i, b =>
    if k < i then (k, v) :: Memory.write rest i b
    else if k = i then (if b = unlistedByte then rest else (i, b) :: rest)
    else if b = unlistedByte then (k, v) :: rest
    else (i, b) :: (k, v) :: rest

/-- The bytes at indices 0 to `n - 1`, in order. -/
def Memory.bytes (m : Memory) (n : Nat) : List Byte := (List.range n).map m.read

/-- `dst` with its bytes 0 to `n - 1` replaced by those of `src`. -/
def Memory.copy (src dst : Memory) : Nat → Memory
  | 0 => dst
  | n + 1 => (Memory.copy src dst n).write n (src.read n)

/-- The canonical form from index `from_` up: indices strictly rising, no cell equal to what an unlisted index reads
as. -/
def Memory.wfFrom : Nat → Memory → Bool
  | _, [] => true
  | from_, (k, v) :: rest => decide (from_ ≤ k) && decide (v ≠ unlistedByte) && Memory.wfFrom (k + 1) rest

/-- The canonical form of a buffer's contents. -/
def Memory.wf (m : Memory) : Bool := Memory.wfFrom 0 m

/-- Every listed index exists in a buffer of `cap` bytes. -/
def Memory.within (cap : Nat) (m : Memory) : Bool := m.all fun cell => decide (cell.1 < cap)

/-- A read of one byte of a buffer of `cap` bytes; an index at or beyond the capacity does not exist
(20_memory.md R31; log 6). -/
def Memory.readIn (m : Memory) (cap i : Nat) : Except Fault Byte :=
  if i < cap then .ok (m.read i) else .error .bufferBound

/-- A write of one byte of a buffer of `cap` bytes (log 6). -/
def Memory.writeIn (m : Memory) (cap i : Nat) (b : Byte) : Except Fault Memory :=
  if i < cap then .ok (m.write i b) else .error .bufferBound

/-- `BUF[0..n-1]` of a buffer of `cap` bytes (00_scope.md R10; log 6). -/
def Memory.bytesIn (m : Memory) (cap n : Nat) : Except Fault (List Byte) :=
  if n ≤ cap then .ok (m.bytes n) else .error .bufferBound

/-- `dst[0..n-1] <- src[0..n-1]` of two buffers of `cap` bytes (42_decoder.md R81; log 6). -/
def Memory.copyIn (src dst : Memory) (cap n : Nat) : Except Fault Memory :=
  if n ≤ cap then .ok (Memory.copy src dst n) else .error .bufferBound

/-- The contents of a buffer (20_memory.md R31). -/
def bufferOf (s : State) : Buffer → Memory
  | .req => s.req.buf
  | .dec => s.dec.buf
  | .frm => s.frm.buf

/-- The capacity of a buffer (20_memory.md R31). -/
def bufferCap (s : State) : Buffer → Nat
  | .req => s.params.txCap.toNat
  | .dec => s.params.rxCap.toNat
  | .frm => s.params.rxCap.toNat

/-- The current length of a buffer: `REQ_LEN`, `DEC_PCOUNT` or `FRM_LEN` (20_memory.md R32). -/
def bufferLen (s : State) : Buffer → Half
  | .req => s.req.len
  | .dec => s.dec.pcount
  | .frm => s.frm.len

/-! ## Outcomes, status and ownership -/

/-- The outcome of an operation that reaches a state or a fault. -/
def outcome : Except Fault State → Host.Outcome State Fault Refusal
  | .ok s => .next s
  | .error f => .fault f

/-- `status(c)`: writes host status code `c` to `OPST` (00_scope.md R11, 60_exceptions.md R114). -/
def setStatus (c : OpStatus) (s : State) : State := { s with host := { s.host with opst := c } }

/-- `RESP <- v` (44_readback.md R111). -/
def setResp (v : Half) (s : State) : State := { s with host := { s.host with resp := v } }

/-- A command finished with `status(OK)`, its last action (60_exceptions.md R114). -/
def finishOk (r : Except Fault State) : Host.Outcome State Fault Refusal := outcome (r.map (setStatus .ok))

/-- `TXN_PHASE` is WAIT or PACE: a transaction runs (43_sequencer.md R91). -/
def State.busy (s : State) : Bool :=
  match s.txn.phase with
  | .idle => false
  | .wait => true
  | .pace => true
  | .done => false

/-- A busy operation: while a transaction runs it sets `OPST <- BUSY` and changes nothing else (43_sequencer.md R91;
check 3 of 30_encoding.md R55). -/
def unlessBusy (s : State) (run : Host.Outcome State Fault Refusal) : Host.Outcome State Fault Refusal :=
  if s.busy then .next (setStatus .busy s) else run

/-! ## The frame and the transmit wire -/

/-- `[C, lo(L), hi(L)] ++ P`, the bytes the CRC covers (30_encoding.md R48, 41_encoder.md R67). -/
def frameBody (c : Byte) (p : List Byte) : List Byte :=
  [c, lo (BitVec.ofNat 16 p.length), hi (BitVec.ofNat 16 p.length)] ++ p

/-- `encode(C, P)`, the frame (41_encoder.md R67, 30_encoding.md R47). Its domain is `len(P) <= 65535` (log 15). -/
def encodeFrame (c : Byte) (p : List Byte) : List Byte :=
  [0x55#8] ++ frameBody c p ++ [lo (crc16 (frameBody c p)), hi (crc16 (frameBody c p))] ++ [0xAA#8]

/-- `REQ_BUF[0..REQ_LEN-1]` (41_encoder.md R72, 43_sequencer.md R96). -/
def requestPayload (s : State) : Except Fault (List Byte) :=
  s.req.buf.bytesIn s.params.txCap.toNat s.req.len.toNat

/-- `emit(bytes)`: the whole sequence is appended to `TXW` in one step (20_memory.md R36). -/
def emit (bytes : List Byte) (s : State) : State := { s with txw := s.txw ++ bytes }

/-- `emit(encode(REQ_CMD, REQ_BUF[0..REQ_LEN-1]))` (41_encoder.md R72, 43_sequencer.md R96). -/
def emitRequest (s : State) : Except Fault State :=
  (requestPayload s).map fun p => emit (encodeFrame s.req.cmd p) s

end Sys2Proof.Machine
end

