-- ==== Sys2Proof/Machine/CrcFamily.lean ====
section
/-! DEFINITION. The meanings of the CRC commands (40_crc.md R65, R66). Neither is a busy operation. -/

namespace Sys2Proof.Machine

/-- `CRC.INIT` (40_crc.md R65). -/
def execCrcInit (s : State) : Host.Outcome State Fault Refusal :=
  finishOk (.ok { s with crcAcc := 0xFFFF#16 })

/-- `CRC.BYTE b` (40_crc.md R66). -/
def execCrcByte (b : Byte) (s : State) : Host.Outcome State Fault Refusal :=
  finishOk (.ok { s with crcAcc := crcStep s.crcAcc b })

end Sys2Proof.Machine
end

