-- ==== Sys2Proof/Machine/Receiver.lean ====
section
/-! DEFINITION. The frame decoder: `begin_frame` (42_decoder.md R74), the eight states of `dec_step` (R73, R75 to R82),
one definition each, and `dec_reset` (R83). They work on the decoder's registers and the frame latch alone. -/

namespace Sys2Proof.Machine

/-- `begin_frame()` (42_decoder.md R74); the bytes of `DEC_BUF` are not cleared. -/
def beginFrame (d : DecRegs) : DecRegs :=
  { d with cmd := 0x00#8, len := 0#16, lidx := 0, pcount := 0#16, crcRx := 0x0000#16, crcRun := 0xFFFF#16 }

/-- `dec_reset()` (42_decoder.md R83); the frame latch is not touched. -/
def decReset (d : DecRegs) : DecRegs :=
  { beginFrame d with state := .awaitingStart, result := .incomplete }

/-- AwaitingStart (42_decoder.md R75). -/
def atAwaitingStart (b : Byte) (d : DecRegs) : DecRegs :=
  if b = 0x55#8 then { beginFrame d with state := .awaitingCommand, result := .incomplete }
  else { d with result := .incomplete }

/-- AwaitingCommand (42_decoder.md R76). -/
def atAwaitingCommand (b : Byte) (d : DecRegs) : DecRegs :=
  { d with cmd := b, crcRun := crcStep d.crcRun b, state := .awaitingLength, result := .incomplete }

/-- AwaitingLength (42_decoder.md R77): two length bytes, low byte first, counted by `DEC_LIDX`. -/
def atAwaitingLength (b : Byte) (d : DecRegs) : DecRegs :=
  if d.lidx = 0 then
    { d with crcRun := crcStep d.crcRun b, len := zext16 b, lidx := 1, result := .incomplete }
  else
    { d with
      crcRun := crcStep d.crcRun b
      len := d.len ||| highByte b
      lidx := 2
      state := if 0#16 < d.len ||| highByte b then .awaitingData else .awaitingCrcLow
      result := .incomplete }

/-- AwaitingData (42_decoder.md R78): the capacity check on every append. -/
def atAwaitingData (cap : Half) (b : Byte) (d : DecRegs) : Except Fault DecRegs :=
  if d.pcount = cap then .ok { d with state := .overflow, result := .incomplete }
  else
    (d.buf.writeIn cap.toNat d.pcount.toNat b).map fun buf =>
      { d with
        buf := buf
        pcount := d.pcount + 1#16
        crcRun := crcStep d.crcRun b
        state := if d.pcount + 1#16 = d.len then .awaitingCrcLow else .awaitingData
        result := .incomplete }

/-- AwaitingCrcLow (42_decoder.md R79). -/
def atAwaitingCrcLow (b : Byte) (d : DecRegs) : DecRegs :=
  { d with crcRx := zext16 b, state := .awaitingCrcHigh, result := .incomplete }

/-- AwaitingCrcHigh (42_decoder.md R80). -/
def atAwaitingCrcHigh (b : Byte) (d : DecRegs) : DecRegs :=
  { d with crcRx := d.crcRx ||| highByte b, state := .awaitingEnd, result := .incomplete }

/-- The result of AwaitingEnd (42_decoder.md R81): the terminator is tested first, then the CRC. -/
def endResult (b : Byte) (d : DecRegs) : DecResult :=
  if b = 0xAA#8 ∧ d.crcRx = d.crcRun then .frame
  else if b = 0xAA#8 then .badChecksum
  else .missingTerminator

/-- The frame latch written by a FRAME outcome (42_decoder.md R81). -/
def latchFrame (cap : Half) (d : DecRegs) (f : FrameLatch) : Except Fault FrameLatch :=
  (Memory.copyIn d.buf f.buf cap.toNat d.len.toNat).map fun buf =>
    { valid := true, cmd := d.cmd, len := d.len, crc := d.crcRx, buf := buf }

/-- AwaitingEnd (42_decoder.md R81): the latch changes only on FRAME. -/
def atAwaitingEnd (cap : Half) (b : Byte) (d : DecRegs) (f : FrameLatch) : Except Fault (DecRegs × FrameLatch) :=
  let d' := { d with state := .awaitingStart, result := endResult b d }
  match endResult b d with
  | .frame => (latchFrame cap d f).map fun f' => (d', f')
  | _ => .ok (d', f)

/-- Overflow (42_decoder.md R82): the byte is consumed and discarded, whatever its value. -/
def atOverflow (d : DecRegs) : DecRegs := { d with state := .awaitingStart, result := .overflow }

/-- `dec_step(b)` (42_decoder.md R73) of a decoder of capacity `cap`: exactly one row of the transition table; the
result `r` is left in `DEC_RESULT`. -/
def decStep (cap : Half) (b : Byte) (d : DecRegs) (f : FrameLatch) : Except Fault (DecRegs × FrameLatch) :=
  match d.state with
  | .awaitingStart => .ok (atAwaitingStart b d, f)
  | .awaitingCommand => .ok (atAwaitingCommand b d, f)
  | .awaitingLength => .ok (atAwaitingLength b d, f)
  | .awaitingData => (atAwaitingData cap b d).map fun d' => (d', f)
  | .awaitingCrcLow => .ok (atAwaitingCrcLow b d, f)
  | .awaitingCrcHigh => .ok (atAwaitingCrcHigh b d, f)
  | .awaitingEnd => atAwaitingEnd cap b d f
  | .overflow => .ok (atOverflow d, f)

/-- `dec_step(b)` on the machine's decoder and latch; DEC.FEED and FEED "run exactly the same rules" (42_decoder.md). -/
def receiveByte (b : Byte) (s : State) : Except Fault State :=
  (decStep s.params.rxCap b s.dec s.frm).map fun (d, f) => { s with dec := d, frm := f }

end Sys2Proof.Machine
end

