-- ==== Sys2Proof/Machine/DecoderFamily.lean ====
section
/-! DEFINITION. The meanings of the decoder commands (42_decoder.md R84, R85). Both are busy operations. -/

namespace Sys2Proof.Machine

/-- `DEC.RESET` (42_decoder.md R84). -/
def execDecReset (s : State) : Host.Outcome State Fault Refusal :=
  unlessBusy s (finishOk (.ok { s with dec := decReset s.dec }))

/-- `DEC.FEED b` (42_decoder.md R85): the decoder's errors are results, not statuses. -/
def execDecFeed (b : Byte) (s : State) : Host.Outcome State Fault Refusal :=
  unlessBusy s (finishOk (receiveByte b s))

end Sys2Proof.Machine
end

