-- ==== Sys2Proof/Machine/EncoderFamily.lean ====
section
/-! DEFINITION. The meanings of the request and encoder commands (41_encoder.md R69 to R72). All four are busy
operations. -/

namespace Sys2Proof.Machine

/-- `REQ.CLEAR` (41_encoder.md R69). -/
def execReqClear (s : State) : Host.Outcome State Fault Refusal :=
  unlessBusy s (finishOk (.ok { s with req := { s.req with len := 0#16 } }))

/-- `REQ.CMD c` (41_encoder.md R70). -/
def execReqCmd (c : Byte) (s : State) : Host.Outcome State Fault Refusal :=
  unlessBusy s (finishOk (.ok { s with req := { s.req with cmd := c } }))

/-- The append of `REQ.PUSH` when the buffer is not full (41_encoder.md R71). -/
def pushRequest (b : Byte) (s : State) : Except Fault State :=
  (s.req.buf.writeIn s.params.txCap.toNat s.req.len.toNat b).map fun buf =>
    { s with req := { s.req with buf := buf, len := s.req.len + 1#16 } }

/-- `REQ.PUSH b` (41_encoder.md R71): FULL when the buffer holds `TX_CAP` bytes. -/
def execReqPush (b : Byte) (s : State) : Host.Outcome State Fault Refusal :=
  unlessBusy s
    (if s.req.len = s.params.txCap then .next (setStatus .full s) else finishOk (pushRequest b s))

/-- `ENC.SEND` (41_encoder.md R72). -/
def execEncSend (s : State) : Host.Outcome State Fault Refusal :=
  unlessBusy s (finishOk (emitRequest s))

end Sys2Proof.Machine
end

