-- ==== Sys2Proof/Machine/ReadbackFamily.lean ====
section
/-! DEFINITION. The meanings of the readback commands (44_readback.md R108 to R113). None is a busy operation. -/

namespace Sys2Proof.Machine

/-- `NOP` (44_readback.md R108). -/
def execNop (s : State) : Host.Outcome State Fault Refusal := finishOk (.ok s)

/-- `IDX.LO n` (44_readback.md R109). -/
def execIdxLo (n : Byte) (s : State) : Host.Outcome State Fault Refusal :=
  finishOk (.ok { s with host := { s.host with idx := setLo s.host.idx n } })

/-- `IDX.HI n` (44_readback.md R110). -/
def execIdxHi (n : Byte) (s : State) : Host.Outcome State Fault Refusal :=
  finishOk (.ok { s with host := { s.host with idx := setHi s.host.idx n } })

/-- `rd_buf(s)`: the byte at `IDX` when `IDX` is below the buffer's current length, else RANGE (44_readback.md R112). -/
def readBuffer (buf : Buffer) (s : State) : Host.Outcome State Fault Refusal :=
  if s.host.idx < bufferLen s buf then
    finishOk (((bufferOf s buf).readIn (bufferCap s buf) s.host.idx.toNat).map fun v => setResp (zext16 v) s)
  else .next (setStatus .range s)

/-- `RD sel` (44_readback.md R111): a buffer byte, a value, or ILLEGAL for an unassigned selector. -/
def execRd (sel : Byte) (s : State) : Host.Outcome State Fault Refusal :=
  match bufferOfSelector sel with
  | some buf => readBuffer buf s
  | none =>
    match selectorValue s sel with
    | some v => finishOk (.ok (setResp v s))
    | none => .next (setStatus .illegal s)

end Sys2Proof.Machine
end

