-- ==== Sys2Proof/Machine/Transaction.lean ====
section
/-! DEFINITION. The sequencer's procedures (43_sequencer.md): `send` (R96) and `fail` (R97). -/

namespace Sys2Proof.Machine

/-- `send()`, one attempt's send (43_sequencer.md R96). The write and the entry to WAIT are one step. -/
def sendAttempt (s : State) : Except Fault State :=
  (emitRequest s).map fun s' =>
    { s' with
      dec := decReset s.dec
      txn := { s.txn with
        attemptsLeft := s.txn.attemptsLeft - 1#8
        attemptCnt := s.txn.attemptCnt + 1#8
        deadlineCnt := s.cfg.timeout
        pollCnt := 0#16
        phase := .wait } }

/-- `fail(reason)`, a failed attempt (43_sequencer.md R97). -/
def failAttempt (reason : FailReason) (s : State) : State :=
  if 0#8 < s.txn.attemptsLeft then
    { s with txn := { s.txn with lastFail := reason, phase := .pace, paceCnt := s.params.paceDelay } }
  else
    { s with txn := { s.txn with lastFail := reason, phase := .done, result := .noReply } }


/-- What FEED does with the result of its `dec_step`, read from `DEC_RESULT` (43_sequencer.md R98). -/
def afterFeed (s : State) : State :=
  match s.dec.result with
  | .incomplete => s
  | .frame =>
    if s.frm.cmd = replyCmd s.params s.req.cmd then
      { s with txn := { s.txn with phase := .done, result := .ok } }
    else failAttempt .mismatch s
  | .badChecksum => failAttempt .badChecksum s
  | .missingTerminator => failAttempt .missingTerminator s
  | .overflow => failAttempt .overflow s

end Sys2Proof.Machine
end

