-- ==== Sys2Proof/Machine/SequencerFamily.lean ====
section
/-! DEFINITION. The meanings of the sequencer commands (43_sequencer.md R92 to R95). All are busy operations. -/

namespace Sys2Proof.Machine

/-- `CFG.ATT n` (43_sequencer.md R92). -/
def execCfgAtt (n : Byte) (s : State) : Host.Outcome State Fault Refusal :=
  unlessBusy s (finishOk (.ok { s with cfg := { s.cfg with maxAttempts := n } }))

/-- `CFG.TMOL t` (43_sequencer.md R93). -/
def execCfgTmol (t : Byte) (s : State) : Host.Outcome State Fault Refusal :=
  unlessBusy s (finishOk (.ok { s with cfg := { s.cfg with timeout := setLo s.cfg.timeout t } }))

/-- `CFG.TMOH t` (43_sequencer.md R93). -/
def execCfgTmoh (t : Byte) (s : State) : Host.Outcome State Fault Refusal :=
  unlessBusy s (finishOk (.ok { s with cfg := { s.cfg with timeout := setHi s.cfg.timeout t } }))

/-- `CFG.POLLL p` (43_sequencer.md R94). -/
def execCfgPolll (p : Byte) (s : State) : Host.Outcome State Fault Refusal :=
  unlessBusy s (finishOk (.ok { s with cfg := { s.cfg with pollInterval := setLo s.cfg.pollInterval p } }))

/-- `CFG.POLLH p` (43_sequencer.md R94). -/
def execCfgPollh (p : Byte) (s : State) : Host.Outcome State Fault Refusal :=
  unlessBusy s (finishOk (.ok { s with cfg := { s.cfg with pollInterval := setHi s.cfg.pollInterval p } }))

/-- The registers `TXN.START` clears or loads before its first send (43_sequencer.md R95). -/
def openTransaction (s : State) : State :=
  { s with
    frm := { s.frm with valid := false }
    txn := { s.txn with
      result := .none, lastFail := .none, attemptCnt := 0#8, attemptsLeft := s.cfg.maxAttempts } }

/-- `TXN.START` past its busy check (43_sequencer.md R95): with no attempts to make, DONE with NOREPLY at once. -/
def startTransaction (s : State) : Except Fault State :=
  if s.cfg.maxAttempts = 0#8 then
    .ok { openTransaction s with txn := { (openTransaction s).txn with phase := .done, result := .noReply } }
  else sendAttempt (openTransaction s)

/-- `TXN.START` (43_sequencer.md R95): accepted in IDLE and in DONE. -/
def execTxnStart (s : State) : Host.Outcome State Fault Refusal :=
  unlessBusy s (finishOk (startTransaction s))

end Sys2Proof.Machine
end

