-- ==== Sys2Proof/Machine/Dispatch.lean ====
section
/-! DEFINITION. The execution of a decoded host command: one arm per constructor of `Instr`. -/

namespace Sys2Proof.Machine

/-- The meaning of a host command (30_encoding.md R53). -/
def exec (i : Instr) (s : State) : Host.Outcome State Fault Refusal :=
  match i with
  | .nop => Sys2Proof.Machine.execNop s
  | .crcInit => Sys2Proof.Machine.execCrcInit s
  | .crcByte b => Sys2Proof.Machine.execCrcByte b s
  | .reqClear => Sys2Proof.Machine.execReqClear s
  | .reqCmd c => Sys2Proof.Machine.execReqCmd c s
  | .reqPush b => Sys2Proof.Machine.execReqPush b s
  | .encSend => Sys2Proof.Machine.execEncSend s
  | .decReset => Sys2Proof.Machine.execDecReset s
  | .decFeed b => Sys2Proof.Machine.execDecFeed b s
  | .idxLo n => Sys2Proof.Machine.execIdxLo n s
  | .idxHi n => Sys2Proof.Machine.execIdxHi n s
  | .rd sel => Sys2Proof.Machine.execRd sel s
  | .cfgAtt n => Sys2Proof.Machine.execCfgAtt n s
  | .cfgTmol t => Sys2Proof.Machine.execCfgTmol t s
  | .cfgTmoh t => Sys2Proof.Machine.execCfgTmoh t s
  | .cfgPolll p => Sys2Proof.Machine.execCfgPolll p s
  | .cfgPollh p => Sys2Proof.Machine.execCfgPollh p s
  | .txnStart => Sys2Proof.Machine.execTxnStart s

end Sys2Proof.Machine
end

