-- ==== Sys2Proof/Machine/Events.lean ====
section
/-! DEFINITION. The events that are not commands (10_state.md R28): when each is enabled and what it does. RX, TICK and
RESET come from outside; FEED, CLOSE and RESEND are the block's own (43_sequencer.md). -/

namespace Sys2Proof.Machine

/-- FEED is enabled (43_sequencer.md R98). -/
def feedEnabled (s : State) : Bool := s.txn.phase = .wait && s.txn.pollCnt = 0#16 && s.rxq ≠ []

/-- CLOSE is enabled (43_sequencer.md R99). -/
def closeEnabled (s : State) : Bool :=
  s.txn.phase = .wait && s.txn.pollCnt = 0#16 && s.rxq = []
    && (s.txn.deadlineCnt = 0#16 || 0#16 < s.cfg.pollInterval)

/-- RESEND is enabled (43_sequencer.md R100). -/
def resendEnabled (s : State) : Bool := s.txn.phase = .pace && s.txn.paceCnt = 0#16

/-- Some BLOCK event is enabled; otherwise the block is quiescent (60_exceptions.md R126). -/
def blockEnabled (s : State) : Bool := feedEnabled s || closeEnabled s || resendEnabled s

/-- Which events may be the next step (10_state.md R28, R29): CMD, RX and RESET always, TICK when no BLOCK event is
enabled. -/
def Event.enabled (e : Event) (s : State) : Bool :=
  match e with
  | .cmd _ => true
  | .rx _ => true
  | .feed => feedEnabled s
  | .close => closeEnabled s
  | .resend => resendEnabled s
  | .tick => !blockEnabled s
  | .reset => true

/-- RX(b) (43_sequencer.md R102). -/
def rxEvent (b : Byte) (s : State) : State := { s with rxq := s.rxq ++ [b] }

/-- FEED (43_sequencer.md R98): `rx_pop`, `dec_step`, and the end of the attempt on a terminal outcome. On an empty
queue, where it is not enabled, nothing is popped. -/
def feedEvent (s : State) : Except Fault State :=
  match s.rxq with
  | [] => .ok s
  | b :: rest => (receiveByte b { s with rxq := rest }).map afterFeed

/-- CLOSE (43_sequencer.md R99). -/
def closeEvent (s : State) : State :=
  if s.txn.deadlineCnt = 0#16 then failAttempt .timeout s
  else { s with txn := { s.txn with pollCnt := s.cfg.pollInterval } }

/-- RESEND (43_sequencer.md R100). -/
def resendEvent (s : State) : Except Fault State := sendAttempt s

/-- TICK (43_sequencer.md R101). -/
def tickEvent (s : State) : State :=
  match s.txn.phase with
  | .idle => s
  | .wait => { s with txn := { s.txn with deadlineCnt := satDec s.txn.deadlineCnt, pollCnt := satDec s.txn.pollCnt } }
  | .pace => { s with txn := { s.txn with paceCnt := satDec s.txn.paceCnt } }
  | .done => s

/-- RESET (70_reset_and_hazards.md R127): every register at its reset value; `RXQ` and `TXW` belong to the transport
and stay; the buffers' bytes, unspecified, stay as they are (log 7). -/
def resetEvent (s : State) : State :=
  { s with
    crcAcc := 0xFFFF#16
    req := { s.req with cmd := 0x00#8, len := 0#16 }
    dec := decReset s.dec
    frm := { s.frm with valid := false, cmd := 0x00#8, len := 0#16, crc := 0x0000#16 }
    txn := { phase := .idle, result := .none, lastFail := .none, attemptsLeft := 0#8, attemptCnt := 0#8,
             deadlineCnt := 0#16, pollCnt := 0#16, paceCnt := 0#16 }
    cfg := { maxAttempts := 0#8, timeout := 0#16, pollInterval := 0#16 }
    host := { idx := 0#16, resp := 0x0000#16, opst := .ok } }

/-- The event that follows when nothing from outside is scheduled: the enabled BLOCK event, else TICK. Both are
always enabled (10_state.md R29; log 1). -/
def autonomousEvent (s : State) : Event :=
  if feedEnabled s then .feed
  else if closeEnabled s then .close
  else if resendEnabled s then .resend
  else .tick

/-- The event the next step takes: the oldest scheduled one, else the machine's own (log 1). -/
def State.nextEvent (s : State) : Event :=
  match s.schedule with
  | [] => autonomousEvent s
  | e :: _ => e

/-- The state with that event taken off the schedule. -/
def State.popEvent (s : State) : State := { s with schedule := s.schedule.tail }

end Sys2Proof.Machine
end

