-- ==== Sys2Proof/Machine/Command.lean ====
section
/-! DEFINITION. What each event does (10_state.md R28): a command word decoded and executed, or an event of the other
agents. -/

namespace Sys2Proof.Machine

/-- `CMD(w)`: the word is checked and executed; a word that is no command sets `OPST <- ILLEGAL` "and changes nothing
else" (30_encoding.md R54, R55). -/
def commandEvent (w : Half) (s : State) : Host.Outcome State Fault Refusal :=
  match decode w with
  | .ok i => exec i s
  | .error _ => .next (setStatus .illegal s)

/-- The effect of an enabled event (10_state.md R28). -/
def performEvent (e : Event) (s : State) : Host.Outcome State Fault Refusal :=
  match e with
  | .cmd w => commandEvent w s
  | .rx b => .next (rxEvent b s)
  | .feed => outcome (feedEvent s)
  | .close => .next (closeEvent s)
  | .resend => outcome (resendEvent s)
  | .tick => .next (tickEvent s)
  | .reset => .next (resetEvent s)

/-- The next event, taken off the schedule and performed if it is enabled (10_state.md R28, R29; logs 1 and 2). -/
def takeEvent (s : State) : Host.Outcome State Fault Refusal :=
  if s.nextEvent.enabled s then performEvent s.nextEvent s.popEvent else .fault .eventNotEnabled

/-- The command words `ws`, issued in order, ahead of what is scheduled. -/
def State.withCommands (s : State) (ws : List Half) : State := { s with schedule := ws.map .cmd ++ s.schedule }

end Sys2Proof.Machine
end

