-- ==== Sys2Proof/Machine/Step.lean ====
section
/-! DEFINITION. One step of the machine: exactly one event of 10_state.md R28. -/

namespace Sys2Proof.Machine

/-- One step: the next event (`takeEvent`). -/
def step (s : State) : Host.Outcome State Fault Refusal := takeEvent s

/-- The command word `w` placed where the next step takes its event: the host issues it next. A command word is 16
bits, bit 0 the least significant (30_encoding.md R51; log 11). -/
def State.withFetchWord (s : State) (nbits w : Nat) : State :=
  s.withCommands [BitVec.ofNat 16 (w % 2 ^ nbits)]

end Sys2Proof.Machine
end

