-- ==== Sys2Proof/Machine/Assembler.lean ====
section
/-! DEFINITION. The spec's assembly notation for command words (30_encoding.md R56) with its pseudo-instructions (R57):
one line of text to the command words it stands for. It is a notation for programs; no step of the machine uses it.
What R56 leaves open of it is in log 14. -/

namespace Sys2Proof.Machine

/-- A blank between the parts of a line (log 14). -/
def isBlank (c : Char) : Bool := c = ' ' || c = '\t'

/-- A piece of text without the blanks around it. -/
def trimBlanks (l : List Char) : List Char := ((l.dropWhile isBlank).reverse.dropWhile isBlank).reverse

/-- The line without its comment: "`;` begins a comment" (30_encoding.md R56). -/
def withoutComment (l : List Char) : List Char := l.takeWhile (fun c => c ≠ ';')

/-- The pieces between commas. -/
def splitCommas : List Char → List (List Char)
  | [] => [[]]
  | c :: rest =>
    if c = ',' then [] :: splitCommas rest
    else
      match splitCommas rest with
      | [] => [[c]]
      | piece :: pieces => (c :: piece) :: pieces

/-- The operands of a line: none, or the pieces between commas without the blanks around them. -/
def operandTexts (l : List Char) : List (List Char) :=
  if trimBlanks l = [] then [] else (splitCommas l).map trimBlanks

/-- The sixteen hexadecimal digits, each at the index that is its value. A command word is written with these
(30_encoding.md R56). -/
def hexDigits : List Char := "0123456789ABCDEF".toList

/-- The value of a digit, of either case (log 14). -/
def hexValue (c : Char) : Option Nat := hexDigits.findIdx? fun digit => digit = c.toUpper

/-- A nonempty row of digits below a base, read as a number; any number of digits may stand there (log 14). -/
def readDigits (base : Nat) (l : List Char) : Option Nat :=
  if l = [] then none
  else l.foldl (fun acc c => acc.bind fun n => (hexValue c).bind fun d =>
    if d < base then some (n * base + d) else none) (some 0)

/-- A number "written `0xNN` or in decimal" (30_encoding.md R56), which R56 says of a byte. The model reads every
operand's number so and takes any number of digits after `0x`, leading zeros too (DESIGN CHOICE, log 14). -/
def readNumber (l : List Char) : Option Nat :=
  match l with
  | '0' :: 'x' :: digits => readDigits 16 digits
  | _ => readDigits 10 l

/-- A byte operand (30_encoding.md R56): a number below 256. -/
def readByteOperand (l : List Char) : Option Byte :=
  (readNumber l).bind fun n => if n < 256 then some (BitVec.ofNat 8 n) else none

/-- The 16-bit operand of CFG.TIMEOUT, CFG.POLL or IDX, "0 to 65535" (30_encoding.md R57). How it is written is open:
R56 fixes byte operands only. The model takes decimal or `0x` and hexadecimal digits, as for a byte (DESIGN CHOICE,
log 14). -/
def readHalfOperand (l : List Char) : Option Half :=
  (readNumber l).bind fun n => if n < 65536 then some (BitVec.ofNat 16 n) else none

/-- The names `RD` takes for a selector (30_encoding.md R56): the registers of 10_state.md with a selector of their own,
and the values of its R24, two of which the spec names in `RD STATUS` and `RD RX_AVAIL`. That `OPST`, which is "read as
`STATUS[10:8]`", and `RESP`, which has no selector, are no such names, and that the build parameters are, is the
model's choice (DESIGN CHOICE, log 14). -/
def selectorNames : List (String × Byte) :=
  [("STATUS", 0x00#8), ("CRC_ACC", 0x01#8), ("REQ_CMD", 0x02#8), ("REQ_LEN", 0x03#8), ("REQ_BUF", 0x04#8),
   ("DEC_STATE", 0x08#8), ("DEC_RESULT", 0x09#8), ("DEC_CMD", 0x0A#8), ("DEC_LEN", 0x0B#8), ("DEC_PCOUNT", 0x0C#8),
   ("DEC_CRC_RUN", 0x0D#8), ("DEC_CRC_RX", 0x0E#8), ("DEC_BUF", 0x0F#8)] ++
  [("FRM_VALID", 0x10#8), ("FRM_CMD", 0x11#8), ("FRM_LEN", 0x12#8), ("FRM_BUF", 0x13#8), ("FRM_CRC", 0x14#8),
   ("TXN_PHASE", 0x18#8), ("TXN_RESULT", 0x19#8), ("LAST_FAIL", 0x1A#8), ("ATTEMPTS_LEFT", 0x1B#8),
   ("ATTEMPT_CNT", 0x1C#8), ("DEADLINE_CNT", 0x1D#8), ("POLL_CNT", 0x1E#8), ("PACE_CNT", 0x1F#8)] ++
  [("MAX_ATTEMPTS", 0x20#8), ("TIMEOUT", 0x21#8), ("POLL_INTERVAL", 0x22#8), ("IDX", 0x23#8), ("RX_AVAIL", 0x24#8),
   ("DEC_LIDX", 0x25#8), ("RX_CAP", 0x28#8), ("TX_CAP", 0x29#8), ("PACE_DELAY", 0x2A#8)]

/-- The entry of a table under a name. -/
def lookupName {α : Type} (table : List (String × α)) (l : List Char) : Option α :=
  (table.find? fun e => e.1.toList = l).map Prod.snd

/-- An operand of `RD`: "a selector number or the register name" (30_encoding.md R56). -/
def readSelector (l : List Char) : Option Byte :=
  match lookupName selectorNames l with
  | some sel => some sel
  | none => readByteOperand l

/-- The format Z mnemonics (30_encoding.md R53). -/
def formatZNames : List (String × Instr) :=
  [("NOP", .nop), ("CRC.INIT", .crcInit), ("REQ.CLEAR", .reqClear), ("ENC.SEND", .encSend), ("DEC.RESET", .decReset),
   ("TXN.START", .txnStart)]

/-- The format I mnemonics but `RD` (30_encoding.md R53). -/
def formatINames : List (String × (Byte → Instr)) :=
  [("CRC.BYTE", .crcByte), ("REQ.CMD", .reqCmd), ("REQ.PUSH", .reqPush), ("DEC.FEED", .decFeed), ("IDX.LO", .idxLo),
   ("IDX.HI", .idxHi), ("CFG.ATT", .cfgAtt), ("CFG.TMOL", .cfgTmol), ("CFG.TMOH", .cfgTmoh), ("CFG.POLLL", .cfgPolll),
   ("CFG.POLLH", .cfgPollh)]

/-- The pseudo-instructions of one 16-bit operand (30_encoding.md R57). -/
def halfPseudoNames : List (String × (Half → Pseudo)) :=
  [("CFG.TIMEOUT", .cfgTimeout), ("CFG.POLL", .cfgPoll), ("IDX", .idx)]

/-- The byte-list pseudo-instructions (30_encoding.md R57), each of at least one byte. -/
def bytesPseudo (name : List Char) (bs : List Byte) : Option Pseudo :=
  match bs with
  | [] => none
  | c :: rest =>
    if name = "REQ.LOAD".toList then some (.reqLoad c rest)
    else if name = "CRC.BLOCK".toList then some (.crcBlock (c :: rest))
    else if name = "DEC.FEEDS".toList then some (.decFeeds (c :: rest))
    else none

/-- The commands of a mnemonic and its operands; none where the line is no command. -/
def readCommand (name : List Char) (operands : List (List Char)) : Option (List Instr) :=
  match operands with
  | [] => (lookupName formatZNames name).map fun i => [i]
  | [x] =>
    if name = "RD".toList then (readSelector x).map fun sel => [.rd sel]
    else
      match lookupName formatINames name, lookupName halfPseudoNames name with
      | some f, _ => (readByteOperand x).map fun b => [f b]
      | none, some p => (readHalfOperand x).map fun n => (p n).expand
      | none, none => (readByteOperand x).bind fun b => (bytesPseudo name [b]).map Pseudo.expand
  | _ => (operands.mapM readByteOperand).bind fun bs => (bytesPseudo name bs).map Pseudo.expand

/-- The commands one line of source stands for; a line with nothing but blanks and a comment stands for none. -/
def readLine (line : List Char) : Option (List Instr) :=
  let text := trimBlanks (withoutComment line)
  if text = [] then some []
  else
    readCommand (text.takeWhile fun c => !isBlank c) (operandTexts (text.dropWhile fun c => !isBlank c))

/-- The command words of one line, "the encoding of a line is `(OP << 8) | IMM`" (30_encoding.md R56). -/
def assembleLine (line : String) : Option (List Half) := (readLine line.toList).map fun is => is.map encode

/-- The command words of a program, "one command per line" (30_encoding.md R56). -/
def assembleProgram (lines : List String) : Option (List Half) := (lines.mapM assembleLine).map List.flatten

/-- The hexadecimal digit of a value below 16; the model writes letters as capitals (log 14). -/
def hexDigit (n : Nat) : Char := hexDigits.getD n '0'

/-- A command word "written as four hex digits" (30_encoding.md R56). -/
def fourHexDigits (w : Half) : List Char :=
  [hexDigit (w.extractLsb' 12 4).toNat, hexDigit (w.extractLsb' 8 4).toNat, hexDigit (w.extractLsb' 4 4).toNat,
   hexDigit (w.extractLsb' 0 4).toNat]

end Sys2Proof.Machine
end

