-- ==== Sys2Proof/Safety.lean ====
section
/-! DEFINITION. The terms claims use: the invariant of the machine, runs with their ticks counted, a row of bytes fed to
the decoder, the observable part of a state, and the time bounds of 43_sequencer.md R107. No step uses this file. -/

namespace Sys2Proof.Machine

/-! ## The invariant -/

/-- The CRC input so far: command, length low byte, length high byte and the payload bytes received (42_decoder.md R76
to R78). -/
def DecRegs.covered (d : DecRegs) : List Byte :=
  [d.cmd, lo d.len, hi d.len] ++ d.buf.bytes d.pcount.toNat

/-- The payload is complete and its CRC computed (42_decoder.md R78, R80). -/
def DecRegs.payloadDone (d : DecRegs) : Prop :=
  d.lidx = 2 ∧ d.pcount = d.len ∧ d.crcRun = crc16 d.covered

/-- What the decoder's registers hold in each state, for a capacity of `cap` bytes (10_state.md R19, 42_decoder.md R74
to R82). -/
def DecRegs.consistent (cap : Half) (d : DecRegs) : Prop :=
  match d.state with
  | .awaitingStart => True
  | .awaitingCommand =>
    d.cmd = 0x00#8 ∧ d.len = 0#16 ∧ d.lidx = 0 ∧ d.pcount = 0#16 ∧ d.crcRx = 0#16 ∧ d.crcRun = 0xFFFF#16
  | .awaitingLength =>
    d.pcount = 0#16 ∧ d.crcRx = 0#16 ∧
      ((d.lidx = 0 ∧ d.len = 0#16 ∧ d.crcRun = crc16 [d.cmd]) ∨
        (d.lidx = 1 ∧ hi d.len = 0x00#8 ∧ d.crcRun = crc16 [d.cmd, lo d.len]))
  | .awaitingData => d.lidx = 2 ∧ d.pcount < d.len ∧ d.crcRx = 0#16 ∧ d.crcRun = crc16 d.covered
  | .awaitingCrcLow => d.payloadDone ∧ d.crcRx = 0#16
  | .awaitingCrcHigh => d.payloadDone ∧ hi d.crcRx = 0x00#8
  | .awaitingEnd => d.payloadDone
  | .overflow => d.lidx = 2 ∧ d.pcount = cap ∧ cap < d.len

/-- What the sequencer's registers hold in each phase (10_state.md R21, 43_sequencer.md R95 to R97, R104). -/
def State.sequencerConsistent (s : State) : Prop :=
  match s.txn.phase with
  | .idle => s.txn.result = .none ∧ s.txn.lastFail = .none
  | .wait =>
    s.txn.attemptCnt.toNat + s.txn.attemptsLeft.toNat = s.cfg.maxAttempts.toNat ∧ 0#8 < s.txn.attemptCnt ∧
      s.txn.result = .none ∧ s.txn.deadlineCnt ≤ s.cfg.timeout ∧ s.txn.pollCnt ≤ s.cfg.pollInterval
  | .pace =>
    s.txn.attemptCnt.toNat + s.txn.attemptsLeft.toNat = s.cfg.maxAttempts.toNat ∧ 0#8 < s.txn.attemptCnt ∧
      0#8 < s.txn.attemptsLeft ∧ s.txn.result = .none ∧ s.txn.lastFail ≠ .none ∧ s.txn.paceCnt ≤ s.params.paceDelay
  | .done =>
    s.txn.result ≠ .none ∧
      (s.txn.result = .noReply → s.txn.lastFail = .none → s.txn.attemptCnt = 0#8)

/-- The invariant of the machine: it holds after reset and every step keeps it. -/
structure Inv (s : State) : Prop where
  /-- The buffers are in canonical form. -/
  reqWf : s.req.buf.wf = true
  decWf : s.dec.buf.wf = true
  frmWf : s.frm.buf.wf = true
  /-- Every listed index exists (20_memory.md R31). -/
  reqWithin : s.req.buf.within s.params.txCap.toNat = true
  decWithin : s.dec.buf.within s.params.rxCap.toNat = true
  frmWithin : s.frm.buf.within s.params.rxCap.toNat = true
  /-- `REQ_LEN <= TX_CAP` (10_state.md R18). -/
  reqLen : s.req.len ≤ s.params.txCap
  /-- `DEC_PCOUNT <= DEC_LEN` and `DEC_PCOUNT <= RX_CAP` (10_state.md R19). -/
  pcountLen : s.dec.pcount ≤ s.dec.len
  pcountCap : s.dec.pcount ≤ s.params.rxCap
  /-- The decoder's position in a frame (10_state.md R19). -/
  decoder : s.dec.consistent s.params.rxCap
  /-- `FRM_LEN <= RX_CAP` (10_state.md R20). -/
  frmLen : s.frm.len ≤ s.params.rxCap
  /-- The latch's CRC when `FRM_VALID = 1` (10_state.md R20). -/
  frmCrc : s.frm.valid = true → s.frm.crc = crc16 (frameBody s.frm.cmd (s.frm.buf.bytes s.frm.len.toNat))
  /-- The sequencer's position in a transaction (10_state.md R21). -/
  sequencer : s.sequencerConsistent

/-! ## Runs -/

/-- The ticks the next step takes: 1 if it is a TICK. -/
def State.tickCost (s : State) : Nat := if s.nextEvent = .tick then 1 else 0

/-- A run of steps that passes through states with `P` only, both ends included, with its TICK events counted. The
schedule of its first state is any list of events, so a run is any interleaving the spec allows (10_state.md R29). -/
inductive RunThrough (P : State → Prop) : State → Nat → State → Prop where
  /-- No step yet. -/
  | here {s : State} (hs : P s) : RunThrough P s 0 s
  /-- One more step. -/
  | snoc {s t u : State} {n : Nat} (run : RunThrough P s n t) (hstep : step t = .next u) (hu : P u) :
      RunThrough P s (n + t.tickCost) u

/-- A run through any states. -/
def Run (s : State) (n : Nat) (t : State) : Prop := RunThrough (fun _ => True) s n t

/-- A state that some run from reset reaches, whatever the implementation's parameters and whatever the agents do. -/
def Reachable (t : State) : Prop :=
  ∃ (p : Params) (events : List Event) (n : Nat), Run { State.resetWith p with schedule := events } n t

/-! ## Commands and the phase of a transaction -/

/-- No transaction runs: `TXN_PHASE` is IDLE or DONE (43_sequencer.md). -/
def State.free (s : State) : Prop := s.txn.phase = .idle ∨ s.txn.phase = .done

/-- A transaction runs: `TXN_PHASE` is WAIT or PACE (43_sequencer.md R91). -/
def State.inTransaction (s : State) : Prop := s.txn.phase = .wait ∨ s.txn.phase = .pace

/-- The state with another `OPST` and nothing else changed. -/
def State.withOpst (s : State) (c : OpStatus) : State := { s with host := { s.host with opst := c } }

/-- `i` is the format Z command of `op`: the word with IMM `0x00` executes it, every other IMM is ILLEGAL with nothing
else changed, whatever the phase (30_encoding.md R51, R54, R55). -/
def CommandZ (op : Byte) (i : Instr) : Prop :=
  ∀ s : State,
    step (s.withCommands [op ++ 0x00#8]) = exec i s ∧
      ∀ imm : Byte, imm ≠ 0x00#8 → step (s.withCommands [op ++ imm]) = .next (s.withOpst .illegal)

/-- `f` is the format I command of `op`: every IMM is its operand (30_encoding.md R51, R52). -/
def CommandI (op : Byte) (f : Byte → Instr) : Prop :=
  ∀ (s : State) (imm : Byte), step (s.withCommands [op ++ imm]) = exec (f imm) s

/-- `i` is refused with BUSY, and nothing else changes, while a transaction runs (43_sequencer.md R91). -/
def RefusedWhenBusy (i : Instr) : Prop :=
  ∀ s : State, s.inTransaction → exec i s = .next (s.withOpst .busy)

/-- The busy operations, as 43_sequencer.md R91 lists them. -/
def busyOperation : Instr → Bool
  | .nop => false
  | .crcInit => false
  | .crcByte _ => false
  | .reqClear => true
  | .reqCmd _ => true
  | .reqPush _ => true
  | .encSend => true
  | .decReset => true
  | .decFeed _ => true
  | .idxLo _ => false
  | .idxHi _ => false
  | .rd _ => false
  | .cfgAtt _ => true
  | .cfgTmol _ => true
  | .cfgTmoh _ => true
  | .cfgPolll _ => true
  | .cfgPollh _ => true
  | .txnStart => true

/-- The commands whose "repetition changes state again", and RD of STATUS (20_memory.md R35). -/
def notIdempotent : Instr → Bool
  | .nop => false
  | .crcInit => false
  | .crcByte _ => true
  | .reqClear => false
  | .reqCmd _ => false
  | .reqPush _ => true
  | .encSend => true
  | .decReset => false
  | .decFeed _ => true
  | .idxLo _ => false
  | .idxHi _ => false
  | .rd sel => sel = 0x00#8
  | .cfgAtt _ => false
  | .cfgTmol _ => false
  | .cfgTmoh _ => false
  | .cfgPolll _ => false
  | .cfgPollh _ => false
  | .txnStart => true

/-! ## The decoder on a row of bytes -/

/-- The result of every byte of a row fed to a decoder of capacity `cap`, and the decoder and latch after it. -/
def feedAll (cap : Half) : List Byte → DecRegs → FrameLatch → Except Fault (List DecResult × DecRegs × FrameLatch)
  | [], d, f => .ok ([], d, f)
  | b :: rest, d, f =>
    match decStep cap b d f with
    | .error e => .error e
    | .ok (d', f') =>
      match feedAll cap rest d' f' with
      | .error e => .error e
      | .ok (rs, d'', f'') => .ok (d'.result :: rs, d'', f'')

/-- The command words of `DEC.FEED` for a row of bytes. -/
def feedWords (bs : List Byte) : List Half := bs.map fun b => encode (.decFeed b)

/-! ## What can be observed -/

/-- The bytes of a buffer below a length, the only ones an operation may read (20_memory.md R32). -/
def Memory.upTo (m : Memory) (n : Nat) : Memory := m.filter fun cell => decide (cell.1 < n)

/-- A state without the buffer bytes at or beyond the current lengths, which have "an unspecified value, and no
operation reads" them (20_memory.md R32). -/
def State.observable (s : State) : State :=
  { s with
    req := { s.req with buf := s.req.buf.upTo s.req.len.toNat }
    dec := { s.dec with buf := s.dec.buf.upTo s.dec.pcount.toNat }
    frm := { s.frm with buf := s.frm.buf.upTo s.frm.len.toNat } }

/-- The request frame as it is sent (41_encoder.md R72, 43_sequencer.md R96). -/
def State.requestFrame (s : State) : List Byte := encodeFrame s.req.cmd (s.req.buf.bytes s.req.len.toNat)

/-! ## Time -/

/-- `A(T, P)`: "`T` if `P = 0` or `T = 0`, else `P * ceil(T / P)`" (43_sequencer.md R107). -/
def attemptTicks (timeout pollInterval : Half) : Nat :=
  if pollInterval = 0#16 ∨ timeout = 0#16 then timeout.toNat
  else pollInterval.toNat * ((timeout.toNat + pollInterval.toNat - 1) / pollInterval.toNat)

/-- The bound of 43_sequencer.md R107 on the ticks of a transaction,
`MAX_ATTEMPTS * A(T, P) + (MAX_ATTEMPTS - 1) * PACE_DELAY`. -/
def transactionTicks (s : State) : Nat :=
  s.cfg.maxAttempts.toNat * attemptTicks s.cfg.timeout s.cfg.pollInterval
    + (s.cfg.maxAttempts.toNat - 1) * s.params.paceDelay.toNat

end Sys2Proof.Machine
end

