-- ==== Sys2Proof/Certificates/Slice0/Obligations.lean ====
section
/-! DEFINITION. The statements for the provers, one `def Obligations.<Name> : Prop` each; OBLIGATIONS.json says of each
which rule of spec/ it formalises. A state with one command word placed ahead of its schedule is `s.withCommands [w]`;
taking the word off again gives `s` back, so an equation about `step (s.withCommands [w])` says what the word does to
every state `s`. -/

open Sys2Proof Sys2Proof.Machine

/-! ## Encodings -/

/-- Every command's word decodes to the command (30_encoding.md R51, R53, R56). -/
def Obligations.DecodeOfEncode : Prop :=
  ∀ i : Instr, decode (encode i) = .ok i

/-- A word has one meaning: the command it decodes to has that word (30_encoding.md R53). -/
def Obligations.EncodeOfDecode : Prop :=
  ∀ (w : Half) (i : Instr), decode w = .ok i → encode i = w

/-- 30_encoding.md R54: exactly the reserved OP values, the format Z words with a nonzero IMM and the `RD`s of an
unassigned selector are illegal: each sets `OPST <- ILLEGAL` and changes nothing else. -/
def Obligations.IllegalWords : Prop :=
  ∀ (s : State) (w : Half),
    let op := w.toNat / 256
    let imm := w.toNat % 256
    let illegal : Prop :=
      ((0x03 ≤ op ∧ op ≤ 0x0F) ∨ (0x14 ≤ op ∧ op ≤ 0x1F) ∨ (0x22 ≤ op ∧ op ≤ 0x2F) ∨ (0x33 ≤ op ∧ op ≤ 0x3F) ∨
        (0x45 ≤ op ∧ op ≤ 0x47) ∨ (0x49 ≤ op ∧ op ≤ 0xFF)) ∨
      ((op = 0x00 ∨ op = 0x01 ∨ op = 0x10 ∨ op = 0x13 ∨ op = 0x20 ∨ op = 0x48) ∧ imm ≠ 0) ∨
      (op = 0x32 ∧ ¬ (imm ≤ 0x04 ∨ (0x08 ≤ imm ∧ imm ≤ 0x14) ∨ (0x18 ≤ imm ∧ imm ≤ 0x25) ∨
        (0x28 ≤ imm ∧ imm ≤ 0x2A)))
    (illegal → step (s.withCommands [w]) = .next (s.withOpst .illegal)) ∧
      (¬ illegal → ∀ t, step (s.withCommands [w]) = .next t → t.host.opst ≠ .illegal)

/-- A few words written out from 30_encoding.md R53, one of every family, decode to their commands. -/
def Obligations.WrittenOutWordsDecode : Prop :=
  decode 0x0000#16 = .ok .nop ∧ decode 0x0277#16 = .ok (.crcByte 0x77#8) ∧ decode 0x1255#16 = .ok (.reqPush 0x55#8) ∧
    decode 0x1300#16 = .ok .encSend ∧ decode 0x21AA#16 = .ok (.decFeed 0xAA#8) ∧
    decode 0x3213#16 = .ok (.rd 0x13#8) ∧ decode 0x4203#16 = .ok (.cfgTmoh 0x03#8) ∧ decode 0x4800#16 = .ok .txnStart

/-- The numeric codes of the enumerated registers, no other code, and the error codes `LAST_FAIL` copies from
`DEC_RESULT` (10_state.md R25). -/
def Obligations.RegisterCodes : Prop :=
  ([DecState.awaitingStart, .awaitingCommand, .awaitingLength, .awaitingData, .awaitingCrcLow, .awaitingCrcHigh,
      .awaitingEnd, .overflow].map fun c => c.code.toNat) = [0, 1, 2, 3, 4, 5, 6, 7] ∧
    ([DecResult.incomplete, .frame, .badChecksum, .missingTerminator, .overflow].map fun c => c.code.toNat)
      = [0, 1, 2, 3, 4] ∧
    ([TxnPhase.idle, .wait, .pace, .done].map fun c => c.code.toNat) = [0, 1, 2, 3] ∧
    ([TxnResult.none, .ok, .noReply].map fun c => c.code.toNat) = [0, 1, 2] ∧
    ([FailReason.none, .timeout, .badChecksum, .missingTerminator, .overflow, .mismatch].map fun c => c.code.toNat)
      = [0, 1, 2, 3, 4, 5] ∧
    ([OpStatus.ok, .busy, .full, .illegal, .range].map fun c => c.code.toNat) = [0, 1, 2, 3, 4] ∧
    (∀ c : DecResult, c.code.toNat ≤ 4) ∧ (∀ c : TxnResult, c.code.toNat ≤ 2) ∧
    (∀ c : FailReason, c.code.toNat ≤ 5) ∧ (∀ c : OpStatus, c.code.toNat ≤ 4) ∧
    FailReason.badChecksum.code = DecResult.badChecksum.code ∧
    FailReason.missingTerminator.code = DecResult.missingTerminator.code ∧
    FailReason.overflow.code = DecResult.overflow.code

/-! ## The step -/

/-- A step runs the decoded command: a scheduled command word that decodes to `i` is taken off the schedule, and `i` is
executed. -/
def Obligations.StepRunsDecodedCommand : Prop :=
  ∀ (s : State) (w : Half) (rest : List Event) (i : Instr),
    s.schedule = .cmd w :: rest → decode w = .ok i → step s = exec i { s with schedule := rest }

/-- "At most one BLOCK event is enabled in any state", TICK is enabled when none is (10_state.md R28, R29), and the
event that follows on an empty schedule is enabled (log 1, the model's choice). -/
def Obligations.BlockEventsExcludeEachOther : Prop :=
  ∀ s : State,
    ¬ (Event.feed.enabled s = true ∧ Event.close.enabled s = true) ∧
      ¬ (Event.feed.enabled s = true ∧ Event.resend.enabled s = true) ∧
      ¬ (Event.close.enabled s = true ∧ Event.resend.enabled s = true) ∧
      (Event.tick.enabled s = true ↔
        Event.feed.enabled s = false ∧ Event.close.enabled s = false ∧ Event.resend.enabled s = false) ∧
      (s.schedule = [] → s.nextEvent.enabled s = true)

/-! ## The CRC engine -/

/-- `CRC.INIT` (40_crc.md R65), in every phase. -/
def Obligations.CrcInitCommand : Prop :=
  CommandZ 0x01#8 .crcInit ∧ crc16 [] = 0xFFFF#16 ∧
    ∀ s : State, exec .crcInit s = .next { s with crcAcc := 0xFFFF#16, host := { s.host with opst := .ok } }

/-- `CRC.BYTE` (40_crc.md R66) with its corner cases, and the sequence CRC.INIT, CRC.BYTE s[0], ..., CRC.BYTE s[n-1]
that leaves `crc16(s)`. -/
def Obligations.CrcByteCommand : Prop :=
  CommandI 0x02#8 .crcByte ∧
    (∀ (s : State) (b : Byte), exec (.crcByte b) s =
      .next { s with crcAcc := crcStep s.crcAcc b, host := { s.host with opst := .ok } }) ∧
    crcStep 0x0000#16 0x00#8 = 0x0000#16 ∧ crcStep 0xFFFF#16 0x00#8 = 0x40BF#16 ∧
    crcStep 0xFFFF#16 0xFF#8 = 0x00FF#16 ∧ crcStep 0xFFFF#16 0x02#8 = 0x813E#16 ∧
    ∀ (s : State) (bs : List Byte),
      Sys2Proof.core.run (bs.length + 1) (s.withCommands (0x0100#16 :: bs.map fun b => 0x02#8 ++ b)) =
        .next { s with crcAcc := crc16 bs, host := { s.host with opst := .ok } }

/-- 40_crc.md R62: every single-bit change of a byte sequence changes its `crc16`. -/
def Obligations.SingleBitErrorChangesCrc : Prop :=
  ∀ (before after : List Byte) (b : Byte) (bit : Nat), bit < 8 →
    crc16 (before ++ (b ^^^ (1#8 <<< bit)) :: after) ≠ crc16 (before ++ b :: after)

/-- A sequence followed by its CRC, low byte first, has CRC 0 (95_test_vectors.md section 2.1, the residue). -/
def Obligations.CrcResidueIsZero : Prop :=
  ∀ body : List Byte, crc16 (body ++ [lo (crc16 body), hi (crc16 body)]) = 0x0000#16

/-- `compute_crc` over an inclusive range (40_crc.md R60): the bytes of the range, `0xFFFF` for the empty range, and no
answer outside the bytes (the model's way to refuse, log 12). -/
def Obligations.ComputeCrcOverRange : Prop :=
  (∀ (before middle after : List Byte), middle ≠ [] →
      computeCrc (before ++ middle ++ after) before.length (before.length + middle.length - 1) = some (crc16 middle)) ∧
    (∀ (bytes : List Byte) (first : Int), computeCrc bytes first (first - 1) = some 0xFFFF#16) ∧
    ∀ (bytes : List Byte) (first last : Int), last ≠ first - 1 →
      (first < 0 ∨ last < first ∨ (bytes.length : Int) ≤ last) → computeCrc bytes first last = none

/-- `CRC_ACC` is changed by CRC.INIT, CRC.BYTE and RESET only (10_state.md R17, 40_crc.md R64). -/
def Obligations.CrcAccumulatorWriters : Prop :=
  ∀ s t : State, step s = .next t →
    t.crcAcc = s.crcAcc ∨ s.nextEvent = .reset ∨ s.nextEvent = .cmd 0x0100#16 ∨
      ∃ b : Byte, s.nextEvent = .cmd (0x02#8 ++ b)

/-! ## The encoder -/

/-- The wire frame, byte by byte (30_encoding.md R47). -/
def Obligations.FrameLayout : Prop :=
  ∀ (c : Byte) (p : List Byte), p.length ≤ 65535 →
    let frame := encodeFrame c p
    let len := p.length
    let lenLow := BitVec.ofNat 8 (len % 256)
    let lenHigh := BitVec.ofNat 8 (len / 256)
    let k := (crc16 ([c, lenLow, lenHigh] ++ p)).toNat
    frame.length = 7 + len ∧ frame[0]? = some 0x55#8 ∧ frame[1]? = some c ∧ frame[2]? = some lenLow ∧
      frame[3]? = some lenHigh ∧ (∀ i, i < len → frame[4 + i]? = p[i]?) ∧
      frame[4 + len]? = some (BitVec.ofNat 8 (k % 256)) ∧ frame[5 + len]? = some (BitVec.ofNat 8 (k / 256)) ∧
      frame[6 + len]? = some 0xAA#8

/-- `REQ.CLEAR` and `REQ.CMD` (41_encoder.md R69, R70). -/
def Obligations.RequestRegisterCommands : Prop :=
  CommandZ 0x10#8 .reqClear ∧ RefusedWhenBusy .reqClear ∧
    (∀ s : State, s.free →
      exec .reqClear s = .next { s with req := { s.req with len := 0#16 }, host := { s.host with opst := .ok } }) ∧
    CommandI 0x11#8 .reqCmd ∧ (∀ c : Byte, RefusedWhenBusy (.reqCmd c)) ∧
    ∀ (s : State) (c : Byte), s.free →
      exec (.reqCmd c) s = .next { s with req := { s.req with cmd := c }, host := { s.host with opst := .ok } }

/-- `REQ.PUSH` (41_encoder.md R71): FULL at the capacity, else one byte appended and every other byte of `REQ_BUF` as
before. The canonical form and the bound on `REQ_LEN` are parts of `Inv`. -/
def Obligations.ReqPushCommand : Prop :=
  CommandI 0x12#8 .reqPush ∧ (∀ b : Byte, RefusedWhenBusy (.reqPush b)) ∧
    (∀ (s : State) (b : Byte), s.free → s.req.len = s.params.txCap →
      exec (.reqPush b) s = .next (s.withOpst .full)) ∧
    ∀ (s : State) (b : Byte), s.free → s.req.len < s.params.txCap → s.req.buf.wf = true →
      ∃ buf : Memory,
        exec (.reqPush b) s =
          .next { s with
            req := { s.req with buf := buf, len := s.req.len + 1#16 }, host := { s.host with opst := .ok } } ∧
        buf.read s.req.len.toNat = b ∧ (∀ i, i ≠ s.req.len.toNat → buf.read i = s.req.buf.read i) ∧
        (s.req.len + 1#16).toNat = s.req.len.toNat + 1 ∧ s.req.len + 1#16 ≤ s.params.txCap

/-- `ENC.SEND` (41_encoder.md R72): the whole request frame is appended to `TXW`, and nothing in the decoder or the
sequencer changes. The bound on `REQ_LEN` is part of `Inv`. -/
def Obligations.EncSendCommand : Prop :=
  CommandZ 0x13#8 .encSend ∧ RefusedWhenBusy .encSend ∧
    ∀ s : State, s.free → s.req.len ≤ s.params.txCap →
      exec .encSend s = .next { s with
        txw := s.txw ++ encodeFrame s.req.cmd ((List.range s.req.len.toNat).map s.req.buf.read)
        host := { s.host with opst := .ok } }

/-! ## The decoder -/

/-- `DEC.RESET` (42_decoder.md R84). -/
def Obligations.DecResetCommand : Prop :=
  CommandZ 0x20#8 .decReset ∧ RefusedWhenBusy .decReset ∧
    ∀ s : State, s.free →
      exec .decReset s = .next { s with
        dec := { state := .awaitingStart, lidx := 0, cmd := 0x00#8, len := 0#16, pcount := 0#16, buf := s.dec.buf,
                 crcRun := 0xFFFF#16, crcRx := 0x0000#16, result := .incomplete }
        host := { s.host with opst := .ok } }

/-- `DEC.FEED` (42_decoder.md R85): `dec_step`, status OK whatever the result, nothing else changed. The two bounds are
parts of `Inv`; the rows of `dec_step` are the next statements. -/
def Obligations.DecFeedCommand : Prop :=
  CommandI 0x21#8 .decFeed ∧ (∀ b : Byte, RefusedWhenBusy (.decFeed b)) ∧
    ∀ (s : State) (b : Byte), s.free → (s.dec.state = .awaitingData → s.dec.pcount ≤ s.params.rxCap) →
      (s.dec.state = .awaitingEnd → s.dec.len ≤ s.params.rxCap) →
      ∃ d f, decStep s.params.rxCap b s.dec s.frm = .ok (d, f) ∧
        exec (.decFeed b) s = .next { s with dec := d, frm := f, host := { s.host with opst := .ok } }

/-- AwaitingStart and AwaitingCommand (42_decoder.md R75, R76; R74's begin_frame). -/
def Obligations.DecoderStartAndCommandRows : Prop :=
  ∀ (cap : Half) (b : Byte) (d : DecRegs) (f : FrameLatch),
    (d.state = .awaitingStart → b = 0x55#8 → decStep cap b d f = .ok
      ({ state := .awaitingCommand, lidx := 0, cmd := 0x00#8, len := 0#16, pcount := 0#16, buf := d.buf,
         crcRun := 0xFFFF#16, crcRx := 0x0000#16, result := .incomplete }, f)) ∧
    (d.state = .awaitingStart → b ≠ 0x55#8 → decStep cap b d f = .ok ({ d with result := .incomplete }, f)) ∧
    (d.state = .awaitingCommand → decStep cap b d f = .ok
      ({ d with cmd := b, crcRun := crcStep d.crcRun b, state := .awaitingLength, result := .incomplete }, f)) ∧
    (d.crcRun = 0xFFFF#16 → crcStep d.crcRun b = crc16 [b])

/-- AwaitingLength (42_decoder.md R77): low byte first, then the high byte and the next state by the length. -/
def Obligations.DecoderLengthRow : Prop :=
  ∀ (cap : Half) (b : Byte) (d : DecRegs) (f : FrameLatch), d.state = .awaitingLength →
    (d.lidx = 0 → decStep cap b d f = .ok
      ({ d with crcRun := crcStep d.crcRun b, len := BitVec.ofNat 16 b.toNat, lidx := 1, result := .incomplete }, f)) ∧
    (d.lidx = 1 → ∀ low : Byte, d.len = BitVec.ofNat 16 low.toNat →
      let len := low.toNat + 256 * b.toNat
      decStep cap b d f = .ok
        ({ d with
            crcRun := crcStep d.crcRun b, len := BitVec.ofNat 16 len, lidx := 2, result := .incomplete,
            state := if 0 < len then .awaitingData else .awaitingCrcLow }, f))

/-- AwaitingData (42_decoder.md R78): the capacity check on every append; a byte stored at `DEC_PCOUNT`, every other
byte of `DEC_BUF` as before. -/
def Obligations.DecoderDataRow : Prop :=
  ∀ (cap : Half) (b : Byte) (d : DecRegs) (f : FrameLatch), d.state = .awaitingData →
    (d.pcount = cap → decStep cap b d f = .ok ({ d with state := .overflow, result := .incomplete }, f)) ∧
    (d.pcount < cap → d.buf.wf = true →
      ∃ buf : Memory,
        decStep cap b d f = .ok
          ({ d with
              buf := buf, pcount := d.pcount + 1#16, crcRun := crcStep d.crcRun b, result := .incomplete,
              state := if d.pcount + 1#16 = d.len then .awaitingCrcLow else .awaitingData }, f) ∧
        buf.read d.pcount.toNat = b ∧ ∀ i, i ≠ d.pcount.toNat → buf.read i = d.buf.read i)

/-- AwaitingCrcLow and AwaitingCrcHigh (42_decoder.md R79, R80): the received CRC, low byte first; in a decoder that
keeps its invariant (`DecRegs.consistent`, a part of `Inv`) the running CRC is then the expected CRC. -/
def Obligations.DecoderCrcRows : Prop :=
  ∀ (cap : Half) (b : Byte) (d : DecRegs) (f : FrameLatch),
    (d.state = .awaitingCrcLow → decStep cap b d f = .ok
      ({ d with crcRx := BitVec.ofNat 16 b.toNat, state := .awaitingCrcHigh, result := .incomplete }, f)) ∧
    (d.state = .awaitingCrcHigh → ∀ low : Byte, d.crcRx = BitVec.ofNat 16 low.toNat → decStep cap b d f = .ok
      ({ d with
          crcRx := BitVec.ofNat 16 (low.toNat + 256 * b.toNat), state := .awaitingEnd, result := .incomplete }, f)) ∧
    (d.state = .awaitingCrcHigh → d.consistent cap →
      d.crcRun = crc16 ([d.cmd, lo d.len, hi d.len] ++ d.buf.bytes d.len.toNat))

/-- AwaitingEnd (42_decoder.md R81): the terminator first, then the CRC; the latch changes only on FRAME, and then takes
the frame's command, length, CRC and payload. -/
def Obligations.DecoderEndRow : Prop :=
  ∀ (cap : Half) (b : Byte) (d : DecRegs) (f : FrameLatch), d.state = .awaitingEnd →
    (b ≠ 0xAA#8 →
      decStep cap b d f = .ok ({ d with state := .awaitingStart, result := .missingTerminator }, f)) ∧
    (b = 0xAA#8 → d.crcRx ≠ d.crcRun →
      decStep cap b d f = .ok ({ d with state := .awaitingStart, result := .badChecksum }, f)) ∧
    (b = 0xAA#8 → d.crcRx = d.crcRun → d.len ≤ cap → f.buf.wf = true →
      ∃ buf : Memory,
        decStep cap b d f = .ok
          ({ d with state := .awaitingStart, result := .frame },
           { valid := true, cmd := d.cmd, len := d.len, crc := d.crcRx, buf := buf }) ∧
        ∀ i, buf.read i = if i < d.len.toNat then d.buf.read i else f.buf.read i)

/-- Overflow (42_decoder.md R82): the byte is discarded whatever its value, and the error reported. -/
def Obligations.DecoderOverflowRow : Prop :=
  ∀ (cap : Half) (b : Byte) (d : DecRegs) (f : FrameLatch), d.state = .overflow →
    decStep cap b d f = .ok ({ d with state := .awaitingStart, result := .overflow }, f)

/-- 42_decoder.md R86: feeding an encoded frame from AwaitingStart gives INCOMPLETE on every byte but the last, FRAME on
the last, and leaves the frame in the latch. -/
def Obligations.FrameRoundTrip : Prop :=
  ∀ (cap : Half) (c : Byte) (p : List Byte) (d : DecRegs) (f : FrameLatch),
    p.length ≤ cap.toNat → d.state = .awaitingStart → d.buf.wf = true → f.buf.wf = true →
    ∃ d' f',
      feedAll cap (encodeFrame c p) d f = .ok (List.replicate (6 + p.length) .incomplete ++ [.frame], d', f') ∧
      d'.state = .awaitingStart ∧ f'.valid = true ∧ f'.cmd = c ∧ f'.len.toNat = p.length ∧
      f'.buf.bytes p.length = p ∧
      f'.crc = crc16 ([c, BitVec.ofNat 8 (p.length % 256), BitVec.ofNat 8 (p.length / 256)] ++ p)

/-- 42_decoder.md R87: noise without the start marker changes nothing but `DEC_RESULT`, and such noise followed by a
frame yields exactly one FRAME, on the last byte; every terminal outcome leaves the decoder in AwaitingStart. Noise with
the start marker can swallow a frame. -/
def Obligations.ResyncAfterNoise : Prop :=
  (∀ (cap : Half) (b : Byte) (d d' : DecRegs) (f f' : FrameLatch), decStep cap b d f = .ok (d', f') →
      d'.result ≠ .incomplete → d'.state = .awaitingStart) ∧
    (∀ (d : DecRegs) (f : FrameLatch), d.state = .awaitingStart →
      ∃ d', feedAll 16#16 (0x55#8 :: encodeFrame 0x02#8 []) d f = .ok (List.replicate 8 .incomplete, d', f) ∧
        d'.state = .awaitingEnd) ∧
    ∀ (cap : Half) (noise : List Byte) (c : Byte) (p : List Byte) (d : DecRegs) (f : FrameLatch),
      (∀ b ∈ noise, b ≠ 0x55#8) → p.length ≤ cap.toNat → d.state = .awaitingStart → d.buf.wf = true →
      f.buf.wf = true →
      (∃ d', feedAll cap noise d f = .ok (List.replicate noise.length .incomplete, d', f) ∧
        d'.state = .awaitingStart) ∧
      ∃ d' f',
        feedAll cap (noise ++ encodeFrame c p) d f =
          .ok (List.replicate (noise.length + 6 + p.length) .incomplete ++ [.frame], d', f') ∧
        d'.state = .awaitingStart ∧ f'.cmd = c ∧ f'.len.toNat = p.length ∧ f'.buf.bytes p.length = p

/-- 42_decoder.md R88: a frame with a payload longer than the capacity enters Overflow on offset `4 + RX_CAP` and gives
OVERFLOW on offset `5 + RX_CAP`, with the latch untouched; the bytes left of it are noise if none is a start marker. -/
def Obligations.OversizedFrameOverflows : Prop :=
  ∀ (cap : Half) (c : Byte) (p : List Byte) (d : DecRegs) (f : FrameLatch),
    cap.toNat < p.length → p.length ≤ 65535 → d.state = .awaitingStart →
    (∃ d', feedAll cap ((encodeFrame c p).take (5 + cap.toNat)) d f =
        .ok (List.replicate (5 + cap.toNat) .incomplete, d', f) ∧ d'.state = .overflow) ∧
      (∃ d', feedAll cap ((encodeFrame c p).take (4 + cap.toNat)) d f =
        .ok (List.replicate (4 + cap.toNat) .incomplete, d', f) ∧ d'.state = .awaitingData) ∧
      ∃ d', feedAll cap ((encodeFrame c p).take (6 + cap.toNat)) d f =
        .ok (List.replicate (5 + cap.toNat) .incomplete ++ [.overflow], d', f) ∧ d'.state = .awaitingStart ∧
        ((∀ b ∈ (encodeFrame c p).drop (6 + cap.toNat), b ≠ 0x55#8) →
          ∃ d'', feedAll cap (encodeFrame c p) d f =
              .ok (List.replicate (5 + cap.toNat) .incomplete ++ [.overflow]
                ++ List.replicate (p.length + 1 - cap.toNat) .incomplete, d'', f) ∧
            d''.state = .awaitingStart)

/-- 42_decoder.md R89: one bit of a frame flipped. In the command, payload or CRC bytes the result is BAD_CHECKSUM, in
the end marker MISSING_TERMINATOR; in the start marker no frame is acquired at offset 0. -/
def Obligations.SingleBitFlipOutcomes : Prop :=
  ∀ (cap : Half) (c : Byte) (p : List Byte) (d : DecRegs) (f : FrameLatch) (offset bit : Nat) (b : Byte),
    p.length ≤ cap.toNat → d.state = .awaitingStart → d.buf.wf = true → bit < 8 →
    (encodeFrame c p)[offset]? = some b →
    let flipped := (encodeFrame c p).set offset (b ^^^ (1#8 <<< bit))
    ((offset = 1 ∨ (4 ≤ offset ∧ offset ≤ 5 + p.length)) →
      ∃ d', feedAll cap flipped d f = .ok (List.replicate (6 + p.length) .incomplete ++ [.badChecksum], d', f)) ∧
    (offset = 6 + p.length →
      ∃ d', feedAll cap flipped d f = .ok (List.replicate (6 + p.length) .incomplete ++ [.missingTerminator], d', f)) ∧
    (offset = 0 →
      ∃ d', feedAll cap (flipped.take 1) d f = .ok ([.incomplete], d', f) ∧ d'.state = .awaitingStart)

/-- 42_decoder.md R90: from AwaitingCommand the first terminal outcome comes after exactly `L + 6` bytes when
`L <= RX_CAP` and exactly `RX_CAP + 5` when `L > RX_CAP`, so after at most 65541. -/
def Obligations.FrameEndsInBoundedBytes : Prop :=
  ∀ (cap : Half) (d : DecRegs) (f : FrameLatch) (command lenLow lenHigh : Byte) (rest : List Byte),
    d.state = .awaitingCommand → d.lidx = 0 → d.pcount = 0#16 →
    let len := lenLow.toNat + 256 * lenHigh.toNat
    3 + rest.length = (if len ≤ cap.toNat then len + 6 else cap.toNat + 5) →
    3 + rest.length ≤ 65541 ∧
      ∃ r d' f', feedAll cap (command :: lenLow :: lenHigh :: rest) d f =
          .ok (List.replicate (2 + rest.length) .incomplete ++ [r], d', f') ∧
        r ≠ .incomplete ∧ d'.state = .awaitingStart

/-! ## Readback -/

/-- `NOP`, `IDX.LO` and `IDX.HI` (44_readback.md R108 to R110), in every phase. -/
def Obligations.NopAndIndexCommands : Prop :=
  CommandZ 0x00#8 .nop ∧ CommandI 0x30#8 .idxLo ∧ CommandI 0x31#8 .idxHi ∧
    ∀ (s : State) (n : Byte),
      exec .nop s = .next (s.withOpst .ok) ∧
      exec (.idxLo n) s = .next { s with
        host := { s.host with idx := (s.host.idx &&& 0xFF00#16) ||| BitVec.ofNat 16 n.toNat, opst := .ok } } ∧
      exec (.idxHi n) s = .next { s with
        host := { s.host with idx := (s.host.idx &&& 0x00FF#16) ||| BitVec.ofNat 16 (256 * n.toNat), opst := .ok } }

/-- `RD` (44_readback.md R111) of every selector that is no buffer's: the selected value, zero-extended, in `RESP`; an
unassigned selector is ILLEGAL and leaves `RESP`. The STATUS word is `StatusWordLayout`'s. -/
def Obligations.RdReadsValues : Prop :=
  CommandI 0x32#8 .rd ∧
    ∀ s : State,
      (∀ e ∈ ([(0x00#8, (statusWord s).toNat), (0x01#8, s.crcAcc.toNat), (0x02#8, s.req.cmd.toNat),
          (0x03#8, s.req.len.toNat), (0x08#8, s.dec.state.code.toNat), (0x09#8, s.dec.result.code.toNat),
          (0x0A#8, s.dec.cmd.toNat), (0x0B#8, s.dec.len.toNat), (0x0C#8, s.dec.pcount.toNat),
          (0x0D#8, s.dec.crcRun.toNat), (0x0E#8, s.dec.crcRx.toNat), (0x10#8, s.frm.valid.toNat),
          (0x11#8, s.frm.cmd.toNat), (0x12#8, s.frm.len.toNat), (0x14#8, s.frm.crc.toNat),
          (0x18#8, s.txn.phase.code.toNat), (0x19#8, s.txn.result.code.toNat), (0x1A#8, s.txn.lastFail.code.toNat),
          (0x1B#8, s.txn.attemptsLeft.toNat), (0x1C#8, s.txn.attemptCnt.toNat), (0x1D#8, s.txn.deadlineCnt.toNat),
          (0x1E#8, s.txn.pollCnt.toNat), (0x1F#8, s.txn.paceCnt.toNat), (0x20#8, s.cfg.maxAttempts.toNat),
          (0x21#8, s.cfg.timeout.toNat), (0x22#8, s.cfg.pollInterval.toNat), (0x23#8, s.host.idx.toNat),
          (0x24#8, min s.rxq.length 0xFFFF), (0x25#8, s.dec.lidx.val), (0x28#8, s.params.rxCap.toNat),
          (0x29#8, s.params.txCap.toNat), (0x2A#8, s.params.paceDelay.toNat)] : List (Byte × Nat)),
        exec (.rd e.1) s = .next { s with host := { s.host with resp := BitVec.ofNat 16 e.2, opst := .ok } }) ∧
      ∀ sel : Byte, assignedSelector sel = false → exec (.rd sel) s = .next (s.withOpst .illegal)

/-- `RD` of a buffer byte (44_readback.md R112): the byte at `IDX` below the buffer's length, RANGE otherwise. The
bounds on the lengths are parts of `Inv`. -/
def Obligations.RdReadsBuffers : Prop :=
  ∀ (s : State) (sel : Byte) (buf : Memory) (len cap : Half),
    ((sel = 0x04#8 ∧ buf = s.req.buf ∧ len = s.req.len ∧ cap = s.params.txCap) ∨
      (sel = 0x0F#8 ∧ buf = s.dec.buf ∧ len = s.dec.pcount ∧ cap = s.params.rxCap) ∨
      (sel = 0x13#8 ∧ buf = s.frm.buf ∧ len = s.frm.len ∧ cap = s.params.rxCap)) →
    len ≤ cap →
    (s.host.idx < len → exec (.rd sel) s = .next { s with
      host := { s.host with resp := BitVec.ofNat 16 (buf.read s.host.idx.toNat).toNat, opst := .ok } }) ∧
    (len ≤ s.host.idx → exec (.rd sel) s = .next (s.withOpst .range))

/-- The STATUS word (44_readback.md R113), with `OPST` as it was before the RD. -/
def Obligations.StatusWordLayout : Prop :=
  ∀ s : State, ∃ w : Half,
    exec (.rd 0x00#8) s = .next { s with host := { s.host with resp := w, opst := .ok } } ∧
      w.toNat = s.dec.state.code.toNat + 8 * s.frm.valid.toNat + 16 * s.txn.phase.code.toNat
        + 64 * s.txn.result.code.toNat + 256 * s.host.opst.code.toNat ∧
      w.extractLsb' 11 5 = 0#5

/-! ## The sequencer -/

/-- The configuration commands (43_sequencer.md R92 to R94): an 8-bit count, and halves of the 16-bit registers. -/
def Obligations.ConfigurationCommands : Prop :=
  CommandI 0x40#8 .cfgAtt ∧ CommandI 0x41#8 .cfgTmol ∧ CommandI 0x42#8 .cfgTmoh ∧ CommandI 0x43#8 .cfgPolll ∧
    CommandI 0x44#8 .cfgPollh ∧
    (∀ n : Byte, RefusedWhenBusy (.cfgAtt n) ∧ RefusedWhenBusy (.cfgTmol n) ∧ RefusedWhenBusy (.cfgTmoh n) ∧
      RefusedWhenBusy (.cfgPolll n) ∧ RefusedWhenBusy (.cfgPollh n)) ∧
    ∀ (s : State) (n : Byte), s.free →
      exec (.cfgAtt n) s = .next { s with
        cfg := { s.cfg with maxAttempts := n }, host := { s.host with opst := .ok } } ∧
      exec (.cfgTmol n) s = .next { s with
        cfg := { s.cfg with timeout := (s.cfg.timeout &&& 0xFF00#16) ||| BitVec.ofNat 16 n.toNat }
        host := { s.host with opst := .ok } } ∧
      exec (.cfgTmoh n) s = .next { s with
        cfg := { s.cfg with timeout := (s.cfg.timeout &&& 0x00FF#16) ||| BitVec.ofNat 16 (256 * n.toNat) }
        host := { s.host with opst := .ok } } ∧
      exec (.cfgPolll n) s = .next { s with
        cfg := { s.cfg with pollInterval := (s.cfg.pollInterval &&& 0xFF00#16) ||| BitVec.ofNat 16 n.toNat }
        host := { s.host with opst := .ok } } ∧
      exec (.cfgPollh n) s = .next { s with
        cfg := { s.cfg with pollInterval := (s.cfg.pollInterval &&& 0x00FF#16) ||| BitVec.ofNat 16 (256 * n.toNat) }
        host := { s.host with opst := .ok } }

/-- `TXN.START` (43_sequencer.md R95) with the attempt send of R96. The bound on `REQ_LEN` is part of `Inv`. -/
def Obligations.TxnStartCommand : Prop :=
  CommandZ 0x48#8 .txnStart ∧ RefusedWhenBusy .txnStart ∧
    (∀ s : State, s.free → s.cfg.maxAttempts = 0#8 →
      exec .txnStart s = .next { s with
        frm := { s.frm with valid := false }
        txn := { s.txn with phase := .done, result := .noReply, lastFail := .none, attemptCnt := 0#8,
                            attemptsLeft := 0#8 }
        host := { s.host with opst := .ok } }) ∧
    ∀ s : State, s.free → s.cfg.maxAttempts ≠ 0#8 → s.req.len ≤ s.params.txCap →
      exec .txnStart s = .next { s with
        txw := s.txw ++ encodeFrame s.req.cmd (s.req.buf.bytes s.req.len.toNat)
        dec := { state := .awaitingStart, lidx := 0, cmd := 0x00#8, len := 0#16, pcount := 0#16, buf := s.dec.buf,
                 crcRun := 0xFFFF#16, crcRx := 0x0000#16, result := .incomplete }
        frm := { s.frm with valid := false }
        txn := { s.txn with phase := .wait, result := .none, lastFail := .none, attemptCnt := 1#8,
                            attemptsLeft := s.cfg.maxAttempts - 1#8, deadlineCnt := s.cfg.timeout, pollCnt := 0#16 }
        host := { s.host with opst := .ok } }

/-- 43_sequencer.md R91: the busy operations set `OPST <- BUSY` and change nothing else while a transaction runs; the
other commands are never refused with BUSY. -/
def Obligations.BusyOperationsRefused : Prop :=
  ∀ (s : State) (i : Instr),
    (s.inTransaction → busyOperation i = true → exec i s = .next (s.withOpst .busy)) ∧
      (busyOperation i = false → ∀ t, exec i s = .next t → t.host.opst ≠ .busy)

/-- 20_memory.md R44: while a transaction runs no command word touches the request, the decoder, the latch, the
sequencer, the configuration or the transport. -/
def Obligations.TransactionOwnsItsState : Prop :=
  ∀ (s t : State) (w : Half), s.inTransaction → s.nextEvent = .cmd w → step s = .next t →
    t.req = s.req ∧ t.dec = s.dec ∧ t.frm = s.frm ∧ t.txn = s.txn ∧ t.cfg = s.cfg ∧ t.rxq = s.rxq ∧ t.txw = s.txw

/-- FEED (43_sequencer.md R98), with the failed attempt of R97. -/
def Obligations.FeedConsumesOneByte : Prop :=
  (∀ s : State, Event.feed.enabled s = true ↔ s.txn.phase = .wait ∧ s.txn.pollCnt = 0#16 ∧ s.rxq ≠ []) ∧
    ∀ (s : State) (b : Byte) (rest : List Byte) (events : List Event) (d : DecRegs) (f : FrameLatch),
      s.schedule = .feed :: events → s.txn.phase = .wait → s.txn.pollCnt = 0#16 → s.rxq = b :: rest →
      decStep s.params.rxCap b s.dec s.frm = .ok (d, f) →
      let u := { s with schedule := events, rxq := rest, dec := d, frm := f }
      let fail := fun reason : FailReason =>
        if 0#8 < s.txn.attemptsLeft then
          { u with txn := { s.txn with lastFail := reason, phase := .pace, paceCnt := s.params.paceDelay } }
        else { u with txn := { s.txn with lastFail := reason, phase := .done, result := .noReply } }
      step s = .next
        (match d.result with
        | .incomplete => u
        | .frame =>
          if f.cmd = replyCmd s.params s.req.cmd then
            { u with txn := { s.txn with phase := .done, result := .ok } }
          else fail .mismatch
        | .badChecksum => fail .badChecksum
        | .missingTerminator => fail .missingTerminator
        | .overflow => fail .overflow)

/-- CLOSE (43_sequencer.md R99), with the failed attempt of R97. -/
def Obligations.CloseEndsPollPoint : Prop :=
  (∀ s : State, Event.close.enabled s = true ↔
      s.txn.phase = .wait ∧ s.txn.pollCnt = 0#16 ∧ s.rxq = [] ∧
        (s.txn.deadlineCnt = 0#16 ∨ 0#16 < s.cfg.pollInterval)) ∧
    ∀ (s : State) (events : List Event),
      s.schedule = .close :: events → Event.close.enabled s = true →
      step s = .next
        (if s.txn.deadlineCnt = 0#16 then
          (if 0#8 < s.txn.attemptsLeft then
            { s with
              schedule := events
              txn := { s.txn with lastFail := .timeout, phase := .pace, paceCnt := s.params.paceDelay } }
          else
            { s with
              schedule := events, txn := { s.txn with lastFail := .timeout, phase := .done, result := .noReply } })
        else { s with schedule := events, txn := { s.txn with pollCnt := s.cfg.pollInterval } })

/-- RESEND (43_sequencer.md R100), with the attempt send of R96. The bound on `REQ_LEN` is part of `Inv`. -/
def Obligations.ResendStartsNextAttempt : Prop :=
  (∀ s : State, Event.resend.enabled s = true ↔ s.txn.phase = .pace ∧ s.txn.paceCnt = 0#16) ∧
    ∀ (s : State) (events : List Event),
      s.schedule = .resend :: events → Event.resend.enabled s = true → s.req.len ≤ s.params.txCap →
      step s = .next { s with
        schedule := events
        txw := s.txw ++ encodeFrame s.req.cmd (s.req.buf.bytes s.req.len.toNat)
        dec := { state := .awaitingStart, lidx := 0, cmd := 0x00#8, len := 0#16, pcount := 0#16, buf := s.dec.buf,
                 crcRun := 0xFFFF#16, crcRx := 0x0000#16, result := .incomplete }
        txn := { s.txn with phase := .wait, attemptsLeft := s.txn.attemptsLeft - 1#8,
                            attemptCnt := s.txn.attemptCnt + 1#8, deadlineCnt := s.cfg.timeout, pollCnt := 0#16 } }

/-- TICK and RX (43_sequencer.md R101, R102). -/
def Obligations.TickAndReceive : Prop :=
  (∀ s : State, Event.tick.enabled s = true ↔
      Event.feed.enabled s = false ∧ Event.close.enabled s = false ∧ Event.resend.enabled s = false) ∧
  (∀ (s : State) (events : List Event), s.schedule = .tick :: events → Event.tick.enabled s = true →
      (s.txn.phase = .wait → step s = .next { s with
        schedule := events
        txn := { s.txn with deadlineCnt := BitVec.ofNat 16 (s.txn.deadlineCnt.toNat - 1)
                            pollCnt := BitVec.ofNat 16 (s.txn.pollCnt.toNat - 1) } }) ∧
      (s.txn.phase = .pace → step s = .next { s with
        schedule := events, txn := { s.txn with paceCnt := BitVec.ofNat 16 (s.txn.paceCnt.toNat - 1) } }) ∧
      (s.free → step s = .next { s with schedule := events })) ∧
    ∀ (s : State) (b : Byte) (events : List Event), s.schedule = .rx b :: events →
      step s = .next { s with schedule := events, rxq := s.rxq ++ [b] }

/-- RESET (70_reset_and_hazards.md R127), in every state; the buffers' contents are unspecified. -/
def Obligations.ResetSetsEveryRegister : Prop :=
  ∀ (s : State) (events : List Event), s.schedule = .reset :: events →
    ∃ reqBuf decBuf frmBuf : Memory,
      step s = .next
        { crcAcc := 0xFFFF#16
          req := { cmd := 0x00#8, len := 0#16, buf := reqBuf }
          dec := { state := .awaitingStart, lidx := 0, cmd := 0x00#8, len := 0#16, pcount := 0#16, buf := decBuf,
                   crcRun := 0xFFFF#16, crcRx := 0x0000#16, result := .incomplete }
          frm := { valid := false, cmd := 0x00#8, len := 0#16, crc := 0x0000#16, buf := frmBuf }
          txn := { phase := .idle, result := .none, lastFail := .none, attemptsLeft := 0#8, attemptCnt := 0#8,
                   deadlineCnt := 0#16, pollCnt := 0#16, paceCnt := 0#16 }
          cfg := { maxAttempts := 0#8, timeout := 0#16, pollInterval := 0#16 }
          host := { idx := 0#16, resp := 0x0000#16, opst := .ok }
          rxq := s.rxq
          txw := s.txw
          params := s.params
          schedule := events }

/-- 43_sequencer.md R104: how a transaction ends. With OK the latch holds a checksum-valid frame with the expected
command; with NOREPLY every attempt was made and failed, and `LAST_FAIL` names the last failure. -/
def Obligations.EndOfTransaction : Prop :=
  ∀ s t : State, Inv s → s.inTransaction → step s = .next t → t.txn.phase = .done →
    (t.txn.result = .ok ∧ t.frm.valid = true ∧ t.frm.cmd = replyCmd t.params t.req.cmd ∧
        t.frm.crc = crc16 (frameBody t.frm.cmd (t.frm.buf.bytes t.frm.len.toNat)) ∧
        t.txn.lastFail = s.txn.lastFail) ∨
      (t.txn.result = .noReply ∧ t.txn.attemptsLeft = 0#8 ∧ t.txn.attemptCnt = t.cfg.maxAttempts ∧
        t.txn.lastFail ≠ .none)

/-- 43_sequencer.md R106: with nothing received and nothing else happening, a transaction sends exactly `MAX_ATTEMPTS`
frames, ends with NOREPLY and TIMEOUT, and takes exactly R107's number of ticks, `A(T, P)` for each attempt and
`PACE_DELAY` between two; `A(T, P)` is at least `TIMEOUT`. The run has an empty schedule, and that the enabled BLOCK
event, else TICK, follows there is the model's choice (log 1). -/
def Obligations.SilentLineEndsWithNoReply : Prop :=
  ∀ s : State, s.free → s.rxq = [] → s.schedule = [] → s.cfg.maxAttempts ≠ 0#8 → s.req.len ≤ s.params.txCap →
    s.cfg.timeout.toNat ≤ attemptTicks s.cfg.timeout s.cfg.pollInterval ∧
      ∃ u v t : State, step (s.withCommands [0x4800#16]) = .next u ∧
        RunThrough State.inTransaction u (transactionTicks s) v ∧ step v = .next t ∧
        t.txn.phase = .done ∧ t.txn.result = .noReply ∧ t.txn.lastFail = .timeout ∧
        t.txn.attemptCnt = s.cfg.maxAttempts ∧
        t.txw = s.txw ++ (List.replicate s.cfg.maxAttempts.toNat s.requestFrame).flatten

/-- 43_sequencer.md R107: whatever the agents do, a transaction that TXN.START begins has not ended for at most
`MAX_ATTEMPTS * A(T, P) + (MAX_ATTEMPTS - 1) * PACE_DELAY` ticks. -/
def Obligations.TransactionTickBound : Prop :=
  ∀ (s u t : State) (n : Nat), s.free → step (s.withCommands [0x4800#16]) = .next u →
    RunThrough State.inTransaction u n t → n ≤ transactionTicks s

/-- 43_sequencer.md R107: an attempt that ends by timeout does so at exactly `A(T, P)` ticks after its send, and no
attempt stays in WAIT for longer. -/
def Obligations.AttemptTimeoutTicks : Prop :=
  ∀ (u t : State) (n : Nat), u.txn.phase = .wait → u.txn.deadlineCnt = u.cfg.timeout → u.txn.pollCnt = 0#16 →
    RunThrough (fun s => s.txn.phase = .wait) u n t →
    n ≤ attemptTicks u.cfg.timeout u.cfg.pollInterval ∧
      ∀ v, step t = .next v → t.nextEvent = .close → v.txn.phase ≠ .wait →
        n = attemptTicks u.cfg.timeout u.cfg.pollInterval

/-- 43_sequencer.md R107, the ending itself: left to the block and the clock, every transaction reaches DONE. The
schedule is empty: that the enabled BLOCK event, else TICK, follows there is the model's choice (log 1), and it stands
for the fairness that 10_state.md R29 assumes (log 13). -/
def Obligations.TransactionReachesDone : Prop :=
  ∀ s : State, Inv s → s.inTransaction → s.schedule = [] → ∃ (n : Nat) (t : State), Run s n t ∧ t.txn.phase = .done

/-- A whole reply with the expected command, received at an open poll point, ends the transaction with OK after one FEED
a byte, leaves its frame in the latch and the bytes after it in `RXQ` (43_sequencer.md R98, 42_decoder.md R86). The
schedule is empty, and that each next step is then the enabled FEED is the model's choice (log 1). -/
def Obligations.GoodReplyIsAccepted : Prop :=
  ∀ (s : State) (p rest : List Byte), Inv s → s.txn.phase = .wait → s.txn.pollCnt = 0#16 →
    s.dec.state = .awaitingStart → s.schedule = [] → p.length ≤ s.params.rxCap.toNat →
    s.rxq = encodeFrame (replyCmd s.params s.req.cmd) p ++ rest →
    ∃ t, Sys2Proof.core.run (7 + p.length) s = .next t ∧
      t.txn.phase = .done ∧ t.txn.result = .ok ∧ t.frm.valid = true ∧
      t.frm.cmd = replyCmd s.params s.req.cmd ∧ t.frm.len.toNat = p.length ∧ t.frm.buf.bytes p.length = p ∧
      t.rxq = rest ∧ t.txw = s.txw

/-- "Every attempt of one transaction transmits the same bytes" (41_encoder.md R68): while a transaction runs, `TXW`
gains one and the same frame for every attempt counted. -/
def Obligations.AttemptsSendTheSameFrame : Prop :=
  ∀ (s t : State) (n : Nat), Inv s → RunThrough State.inTransaction s n t →
    t.requestFrame = s.requestFrame ∧
      t.txw = s.txw ++
        (List.replicate (t.txn.attemptCnt.toNat - s.txn.attemptCnt.toNat) s.requestFrame).flatten

/-! ## Rules of the whole machine -/

/-- 60_exceptions.md R114: a command with a status other than OK changes `OPST` only, and no event but a command and
RESET writes `OPST`. -/
def Obligations.StatusWriters : Prop :=
  (∀ (s t : State) (w : Half), step (s.withCommands [w]) = .next t → t.host.opst ≠ .ok →
      t = s.withOpst t.host.opst) ∧
    ∀ s t : State, step s = .next t → (∀ w, s.nextEvent ≠ .cmd w) → s.nextEvent ≠ .reset →
      t.host.opst = s.host.opst

/-- Every step keeps the invariant (10_state.md R18 to R21). -/
def Obligations.InvariantKept : Prop :=
  ∀ s t : State, Inv s → step s = .next t → Inv t

/-- The invariant holds right after reset, for every implementation's parameters (70_reset_and_hazards.md R127). -/
def Obligations.InvariantAtReset : Prop :=
  (∀ p : Params, Inv (State.resetWith p)) ∧ Inv State.reset

/-- Under the invariant every enabled event completes: no access leaves a buffer, no command traps and none is refused
(60_exceptions.md R118). That a disabled event faults is the model's choice (log 2). -/
def Obligations.EnabledEventsComplete : Prop :=
  ∀ s : State, Inv s →
    (s.nextEvent.enabled s = true → ∃ t, step s = .next t) ∧
      (s.nextEvent.enabled s = false → step s = .fault .eventNotEnabled)

/-- `TXW` is append-only and grows by whole request frames, on ENC.SEND, TXN.START and RESEND only (10_state.md R27,
20_memory.md R36). -/
def Obligations.TransmitWireGrowsByFrames : Prop :=
  ∀ s t : State, step s = .next t →
    t.txw = s.txw ∨
      (t.txw = s.txw ++ s.requestFrame ∧
        (s.nextEvent = .cmd 0x1300#16 ∨ s.nextEvent = .cmd 0x4800#16 ∨ s.nextEvent = .resend))

/-- The block consumes received bytes in arrival order, one per FEED, and never drops, duplicates or reorders one
(20_memory.md R37). -/
def Obligations.ReceiveQueueInOrder : Prop :=
  ∀ s t : State, step s = .next t →
    match s.nextEvent with
    | .rx b => t.rxq = s.rxq ++ [b]
    | .feed => ∃ b, s.rxq = b :: t.rxq
    | _ => t.rxq = s.rxq

/-- 20_memory.md R32: "no observation depends on" the buffer bytes at or beyond the current lengths: two states that
differ in such bytes only step to states that differ in such bytes only. -/
def Obligations.UnwrittenBytesUnobservable : Prop :=
  ∀ s s' t : State, Inv s → Inv s' → s.observable = s'.observable → step s = .next t →
    ∃ t', step s' = .next t' ∧ t.observable = t'.observable

/-- 20_memory.md R35: every host command but CRC.BYTE, REQ.PUSH, DEC.FEED, ENC.SEND, TXN.START and RD of STATUS is
idempotent. -/
def Obligations.IdempotentCommands : Prop :=
  ∀ (i : Instr) (s t : State), notIdempotent i = false → exec i s = .next t → exec i t = .next t

/-- The frame latch is written by a FRAME outcome and RESET only, and TXN.START clears `FRM_VALID` only; no event writes
the parameters (10_state.md R20, R24, R26). -/
def Obligations.FrameLatchWriters : Prop :=
  ∀ s t : State, step s = .next t →
    t.params = s.params ∧
      (t.frm = s.frm ∨ s.nextEvent = .reset ∨
        (s.nextEvent = .cmd 0x4800#16 ∧ t.frm = { s.frm with valid := false }) ∨
        ((s.nextEvent = .feed ∨ ∃ b : Byte, s.nextEvent = .cmd (0x21#8 ++ b)) ∧
          t.dec.result = .frame ∧ t.frm.valid = true))

/-- The pseudo-instructions (30_encoding.md R57): their words, run in order, load the whole register, the whole request,
the CRC of the bytes, or feed the bytes to the decoder. -/
def Obligations.PseudoInstructionsLoad : Prop :=
  (∀ (s : State) (n : Half), s.free →
      Sys2Proof.core.run 2 (s.withCommands ((Pseudo.cfgTimeout n).expand.map encode)) =
        .next { s with cfg := { s.cfg with timeout := n }, host := { s.host with opst := .ok } } ∧
      Sys2Proof.core.run 2 (s.withCommands ((Pseudo.cfgPoll n).expand.map encode)) =
        .next { s with cfg := { s.cfg with pollInterval := n }, host := { s.host with opst := .ok } }) ∧
    (∀ (s : State) (n : Half),
      Sys2Proof.core.run 2 (s.withCommands ((Pseudo.idx n).expand.map encode)) =
        .next { s with host := { s.host with idx := n, opst := .ok } }) ∧
    (∀ (s : State) (c : Byte) (bs : List Byte), s.free → s.req.buf.wf = true →
      bs.length ≤ s.params.txCap.toNat →
      ∃ buf : Memory,
        Sys2Proof.core.run (2 + bs.length) (s.withCommands ((Pseudo.reqLoad c bs).expand.map encode)) =
          .next { s with
            req := { cmd := c, len := BitVec.ofNat 16 bs.length, buf := buf }, host := { s.host with opst := .ok } } ∧
        buf.bytes bs.length = bs) ∧
    (∀ (s : State) (bs : List Byte),
      Sys2Proof.core.run (1 + bs.length) (s.withCommands ((Pseudo.crcBlock bs).expand.map encode)) =
        .next { s with crcAcc := crc16 bs, host := { s.host with opst := .ok } }) ∧
    ∀ (s : State) (bs : List Byte) (rs : List DecResult) (d : DecRegs) (f : FrameLatch), s.free → bs ≠ [] →
      feedAll s.params.rxCap bs s.dec s.frm = .ok (rs, d, f) →
      Sys2Proof.core.run bs.length (s.withCommands ((Pseudo.decFeeds bs).expand.map encode)) =
        .next { s with dec := d, frm := f, host := { s.host with opst := .ok } }
end

