-- ==== Sys2Proof/Laws/Bits.lean ====
section
/-! SUPPORT. The bit laws of the two byte halves of a halfword: what the fields of a command word, the halves of a
register and the bytes of a wire field are. A halfword is written `high ++ low`. -/

namespace Sys2Proof.Machine

@[simp] theorem toNat_bytes (high low : Byte) : (high ++ low : BitVec 16).toNat = 256 * high.toNat + low.toNat := by
  have hl := low.isLt
  rw [BitVec.toNat_append, ← Nat.shiftLeft_add_eq_or_of_lt hl, Nat.shiftLeft_eq]
  omega

theorem toNat_lo (h : Half) : (lo h).toNat = h.toNat % 256 := by simp [lo]

theorem toNat_hi (h : Half) : (hi h).toNat = h.toNat / 256 := by
  have := h.isLt
  simp [hi, Nat.shiftRight_eq_div_pow]
  omega

@[simp] theorem lo_bytes (high low : Byte) : lo (high ++ low) = low := by
  apply BitVec.eq_of_toNat_eq
  have hl := low.isLt
  rw [toNat_lo, toNat_bytes]
  omega

@[simp] theorem hi_bytes (high low : Byte) : hi (high ++ low) = high := by
  apply BitVec.eq_of_toNat_eq
  have hl := low.isLt
  rw [toNat_hi, toNat_bytes]
  omega

@[simp] theorem hi_append_lo (h : Half) : hi h ++ lo h = h := by
  apply BitVec.eq_of_toNat_eq
  rw [toNat_bytes, toNat_hi, toNat_lo]
  omega

@[simp] theorem opField_bytes (op imm : Byte) : opField (op ++ imm) = op := hi_bytes op imm

@[simp] theorem immField_bytes (op imm : Byte) : immField (op ++ imm) = imm := lo_bytes op imm

theorem fields_eq (w : Half) : opField w ++ immField w = w := hi_append_lo w

/-- A command's word is its OP byte above its IMM byte (30_encoding.md R51, R56). -/
theorem encode_eq_bytes (i : Instr) : encode i = i.opcode ++ i.operand := by
  apply BitVec.eq_of_toNat_eq
  have ho := i.opcode.isLt
  have hm := i.operand.isLt
  rw [toNat_bytes]
  simp only [encode, BitVec.toNat_or, BitVec.toNat_shiftLeft, BitVec.toNat_setWidth]
  rw [Nat.mod_eq_of_lt (by omega : i.opcode.toNat < 2 ^ 16), Nat.mod_eq_of_lt (by omega : i.operand.toNat < 2 ^ 16),
    Nat.mod_eq_of_lt (by rw [Nat.shiftLeft_eq]; omega), ← Nat.shiftLeft_add_eq_or_of_lt hm, Nat.shiftLeft_eq]
  omega

theorem zext16_eq_bytes (b : Byte) : zext16 b = 0x00#8 ++ b := by
  apply BitVec.eq_of_toNat_eq
  rw [toNat_bytes]
  simp [zext16]
  omega

theorem zext16_eq_ofNat (b : Byte) : zext16 b = BitVec.ofNat 16 b.toNat := by
  apply BitVec.eq_of_toNat_eq
  simp [zext16]

theorem highByte_eq_bytes (b : Byte) : highByte b = b ++ 0x00#8 := by
  apply BitVec.eq_of_toNat_eq
  have hb := b.isLt
  rw [toNat_bytes]
  simp [highByte, Nat.shiftLeft_eq]
  omega

/-- A low byte zero-extended, with a high byte put above it, is the two bytes (42_decoder.md R77, R80). -/
theorem zext16_or_highByte (low high : Byte) : zext16 low ||| highByte high = high ++ low := by
  rw [zext16_eq_bytes, highByte_eq_bytes, BitVec.or_append]
  simp

/-- A halfword whose high byte is 0 takes a high byte by OR. -/
theorem or_highByte {h : Half} (hz : hi h = 0x00#8) (high : Byte) : h ||| highByte high = high ++ lo h := by
  rw [highByte_eq_bytes]
  conv_lhs => rw [← hi_append_lo h, hz, BitVec.or_append]
  simp

theorem setLo_eq_mask (h : Half) (b : Byte) : setLo h b = (h &&& 0xFF00#16) ||| BitVec.ofNat 16 b.toNat := by
  have e : (0xFF00#16) = 0xFF#8 ++ 0x00#8 := by decide
  have o : ∀ x : Byte, x &&& 0xFF#8 = x := fun x => BitVec.and_allOnes (x := x)
  rw [← zext16_eq_ofNat, zext16_eq_bytes, e, setLo]
  conv_rhs => rw [← hi_append_lo h, BitVec.and_append, BitVec.or_append, o]
  simp

theorem setHi_eq_mask (h : Half) (b : Byte) : setHi h b = (h &&& 0x00FF#16) ||| BitVec.ofNat 16 (256 * b.toNat) := by
  have e : (0x00FF#16) = 0x00#8 ++ 0xFF#8 := by decide
  have o : ∀ x : Byte, x &&& 0xFF#8 = x := fun x => BitVec.and_allOnes (x := x)
  have hb : BitVec.ofNat 16 (256 * b.toNat) = b ++ 0x00#8 := by
    apply BitVec.eq_of_toNat_eq
    have hb := b.isLt
    rw [toNat_bytes]
    simp
    omega
  rw [hb, e, setHi]
  conv_rhs => rw [← hi_append_lo h, BitVec.and_append, BitVec.or_append, o]
  simp

@[simp] theorem setHi_setLo (h : Half) (high low : Byte) : setHi (setLo h low) high = high ++ low := by
  simp [setHi, setLo]

theorem lo_ofNat (n : Nat) : lo (BitVec.ofNat 16 n) = BitVec.ofNat 8 (n % 256) := by
  apply BitVec.eq_of_toNat_eq
  rw [toNat_lo]
  simp only [BitVec.toNat_ofNat]
  omega

theorem hi_ofNat {n : Nat} (h : n ≤ 65535) : hi (BitVec.ofNat 16 n) = BitVec.ofNat 8 (n / 256) := by
  apply BitVec.eq_of_toNat_eq
  rw [toNat_hi]
  simp only [BitVec.toNat_ofNat]
  omega

end Sys2Proof.Machine
end

