-- ==== Sys2Proof/Laws/Memory.lean ====
section
/-! SUPPORT. The laws of the buffer operations of Machine/Ops.lean: a read after a write, the canonical form and the
capacity kept by every operation, and what copying and listing bytes give. -/

namespace Sys2Proof.Machine

@[simp] theorem Memory.read_nil (i : Nat) : Memory.read [] i = unlistedByte := rfl

theorem Memory.wfFrom_mono {m : Memory} {a b : Nat} (hab : a ≤ b) (h : Memory.wfFrom b m = true) :
    Memory.wfFrom a m = true := by
  cases m with
  | nil => rfl
  | cons cell rest =>
    obtain ⟨k, v⟩ := cell
    simp only [Memory.wfFrom, Bool.and_eq_true, decide_eq_true_eq] at h ⊢
    exact ⟨⟨by omega, h.1.2⟩, h.2⟩

/-- Below the first index a canonical list allows, every byte is unlisted. -/
theorem Memory.read_below {m : Memory} {lo i : Nat} (h : Memory.wfFrom lo m = true) (hi : i < lo) :
    m.read i = unlistedByte := by
  induction m generalizing lo with
  | nil => rfl
  | cons cell rest ih =>
    obtain ⟨k, v⟩ := cell
    simp only [Memory.wfFrom, Bool.and_eq_true, decide_eq_true_eq] at h
    have hk : k ≠ i := by omega
    simp only [Memory.read, if_neg hk]
    exact ih h.2 (by omega)

/-- A write keeps the canonical form. -/
theorem Memory.wfFrom_write {m : Memory} {lo i : Nat} (b : Byte) (h : Memory.wfFrom lo m = true) (hi : lo ≤ i) :
    Memory.wfFrom lo (m.write i b) = true := by
  induction m generalizing lo with
  | nil =>
    unfold Memory.write
    split
    · rfl
    · simp [Memory.wfFrom, *]
  | cons cell rest ih =>
    obtain ⟨k, v⟩ := cell
    simp only [Memory.wfFrom, Bool.and_eq_true, decide_eq_true_eq] at h
    obtain ⟨⟨hk, hv⟩, hr⟩ := h
    unfold Memory.write
    split
    · rename_i hlt
      simp only [Memory.wfFrom, Bool.and_eq_true, decide_eq_true_eq]
      exact ⟨⟨hk, hv⟩, ih hr (by omega)⟩
    · split
      · rename_i heq
        subst heq
        split
        · exact Memory.wfFrom_mono (by omega) hr
        · simp only [Memory.wfFrom, Bool.and_eq_true, decide_eq_true_eq]
          exact ⟨⟨hk, by assumption⟩, hr⟩
      · split
        · simp only [Memory.wfFrom, Bool.and_eq_true, decide_eq_true_eq]
          exact ⟨⟨hk, hv⟩, hr⟩
        · simp only [Memory.wfFrom, Bool.and_eq_true, decide_eq_true_eq]
          exact ⟨⟨hi, by assumption⟩, ⟨by omega, hv⟩, hr⟩

theorem Memory.wf_nil : Memory.wf [] = true := rfl

theorem Memory.wf_write {m : Memory} (i : Nat) (b : Byte) (h : m.wf = true) : (m.write i b).wf = true :=
  Memory.wfFrom_write b h (Nat.zero_le i)

/-- A read after a write, from a canonical list. -/
theorem Memory.read_write_from {m : Memory} {lo : Nat} (i j : Nat) (b : Byte) (h : Memory.wfFrom lo m = true) :
    (m.write i b).read j = if j = i then b else m.read j := by
  induction m generalizing lo with
  | nil =>
    unfold Memory.write
    by_cases hb : b = unlistedByte
    · simp [hb]
    · simp [hb, Memory.read, eq_comm]
  | cons cell rest ih =>
    obtain ⟨k, v⟩ := cell
    simp only [Memory.wfFrom, Bool.and_eq_true, decide_eq_true_eq] at h
    obtain ⟨⟨hk, hv⟩, hr⟩ := h
    unfold Memory.write
    by_cases hlt : k < i
    · simp only [if_pos hlt, Memory.read]
      by_cases hkj : k = j
      · have : j ≠ i := by omega
        simp [hkj, this]
      · simp only [if_neg hkj]
        exact ih hr
    · simp only [if_neg hlt]
      by_cases heq : k = i
      · subst heq
        by_cases hb : b = unlistedByte
        · simp only [if_true, if_pos hb, Memory.read]
          by_cases hj : j = k
          · subst hj
            simp [Memory.read_below hr (Nat.lt_succ_self _), hb]
          · have : k ≠ j := fun e => hj e.symm
            simp [hj, this]
        · simp only [if_true, if_neg hb, Memory.read]
          by_cases hj : j = k
          · simp [hj]
          · have : k ≠ j := fun e => hj e.symm
            simp [hj, this]
      · simp only [if_neg heq]
        by_cases hb : b = unlistedByte
        · simp only [if_pos hb, Memory.read]
          by_cases hj : j = i
          · subst hj
            simp only [if_neg heq, if_true]
            rw [hb]
            exact Memory.read_below hr (by omega)
          · simp [hj]
        · simp only [if_neg hb, Memory.read]
          by_cases hj : j = i
          · simp [hj]
          · have : i ≠ j := fun e => hj e.symm
            simp [hj, this]

/-- A read after a write of a canonical buffer: the byte written at its index, every other byte as before. -/
theorem Memory.read_write {m : Memory} (i j : Nat) (b : Byte) (h : m.wf = true) :
    (m.write i b).read j = if j = i then b else m.read j :=
  Memory.read_write_from i j b h

/-- Canonical lists with equal bytes are equal. -/
theorem Memory.ext_from {m n : Memory} {lo : Nat} (hm : Memory.wfFrom lo m = true) (hn : Memory.wfFrom lo n = true)
    (h : ∀ i, m.read i = n.read i) : m = n := by
  induction m generalizing n lo with
  | nil =>
    cases n with
    | nil => rfl
    | cons cell rest =>
      obtain ⟨k, v⟩ := cell
      simp only [Memory.wfFrom, Bool.and_eq_true, decide_eq_true_eq] at hn
      have := h k
      simp only [Memory.read, if_true] at this
      exact absurd this.symm hn.1.2
  | cons cell rest ih =>
    obtain ⟨k, v⟩ := cell
    cases n with
    | nil =>
      simp only [Memory.wfFrom, Bool.and_eq_true, decide_eq_true_eq] at hm
      have := h k
      simp only [Memory.read, if_true] at this
      exact absurd this hm.1.2
    | cons cell' rest' =>
      obtain ⟨k', v'⟩ := cell'
      simp only [Memory.wfFrom, Bool.and_eq_true, decide_eq_true_eq] at hm hn
      have hkk : k = k' := by
        rcases Nat.lt_trichotomy k k' with hlt | heq | hgt
        · have e := h k
          have hne : k' ≠ k := by omega
          simp only [Memory.read, if_true, if_neg hne] at e
          rw [Memory.read_below hn.2 (by omega)] at e
          exact absurd e hm.1.2
        · exact heq
        · have e := h k'
          have hne : k ≠ k' := by omega
          simp only [Memory.read, if_true, if_neg hne] at e
          rw [Memory.read_below hm.2 (by omega)] at e
          exact absurd e.symm hn.1.2
      subst hkk
      have hv : v = v' := by simpa [Memory.read] using h k
      subst hv
      congr 1
      refine ih hm.2 hn.2 fun i => ?_
      by_cases hi : i < k + 1
      · rw [Memory.read_below hm.2 hi, Memory.read_below hn.2 hi]
      · have hne : k ≠ i := by omega
        simpa [Memory.read, hne] using h i

theorem Memory.ext {m n : Memory} (hm : m.wf = true) (hn : n.wf = true) (h : ∀ i, m.read i = n.read i) : m = n :=
  Memory.ext_from hm hn h

theorem Memory.within_write {m : Memory} {cap : Nat} (i : Nat) (b : Byte) (h : m.within cap = true) (hi : i < cap) :
    (m.write i b).within cap = true := by
  induction m with
  | nil =>
    unfold Memory.write
    split <;> simp [Memory.within, hi]
  | cons cell rest ih =>
    obtain ⟨k, v⟩ := cell
    simp only [Memory.within, List.all_cons, Bool.and_eq_true, decide_eq_true_eq] at h ih ⊢
    unfold Memory.write
    split
    · simp only [List.all_cons, Bool.and_eq_true, decide_eq_true_eq]
      exact ⟨h.1, ih h.2⟩
    · split
      · split
        · exact h.2
        · simp only [List.all_cons, Bool.and_eq_true, decide_eq_true_eq]
          exact ⟨hi, h.2⟩
      · split
        · simp only [List.all_cons, Bool.and_eq_true, decide_eq_true_eq]
          exact h
        · simp only [List.all_cons, Bool.and_eq_true, decide_eq_true_eq]
          exact ⟨hi, h⟩

/-- Copying keeps the canonical form. -/
theorem Memory.wf_copy (src : Memory) {dst : Memory} (n : Nat) (h : dst.wf = true) :
    (Memory.copy src dst n).wf = true := by
  induction n with
  | zero => exact h
  | succ n ih => exact Memory.wf_write _ _ ih

theorem Memory.within_copy (src : Memory) {dst : Memory} {cap : Nat} (n : Nat) (h : dst.within cap = true)
    (hn : n ≤ cap) : (Memory.copy src dst n).within cap = true := by
  induction n with
  | zero => exact h
  | succ n ih => exact Memory.within_write _ _ (ih (by omega)) (by omega)

/-- After a copy of `n` bytes the first `n` are the source's and every other byte is as before. -/
theorem Memory.read_copy (src : Memory) {dst : Memory} (n i : Nat) (h : dst.wf = true) :
    (Memory.copy src dst n).read i = if i < n then src.read i else dst.read i := by
  induction n with
  | zero => simp [Memory.copy]
  | succ n ih =>
    rw [Memory.copy, Memory.read_write _ _ _ (Memory.wf_copy src n h), ih]
    by_cases hi : i = n
    · simp [hi]
    · simp only [if_neg hi]
      by_cases hlt : i < n
      · simp [hlt, Nat.lt_succ_of_lt hlt]
      · have : ¬ i < n + 1 := by omega
        simp [hlt, this]

@[simp] theorem Memory.length_bytes (m : Memory) (n : Nat) : (m.bytes n).length = n := by
  simp [Memory.bytes]

/-- The bytes below `n` depend on the bytes at those indices only. -/
theorem Memory.bytes_congr {m m' : Memory} {n : Nat} (h : ∀ i, i < n → m.read i = m'.read i) :
    m.bytes n = m'.bytes n := by
  refine List.map_congr_left fun i hi => h i (List.mem_range.mp hi)

@[simp] theorem Memory.bytes_zero (m : Memory) : m.bytes 0 = [] := rfl

theorem Memory.bytes_succ (m : Memory) (n : Nat) : m.bytes (n + 1) = m.bytes n ++ [m.read n] := by
  simp [Memory.bytes, List.range_succ]

/-- Appending a byte at the end of what is listed. -/
theorem Memory.bytes_write_end {m : Memory} (n : Nat) (b : Byte) (h : m.wf = true) :
    (m.write n b).bytes (n + 1) = m.bytes n ++ [b] := by
  rw [Memory.bytes_succ, Memory.read_write _ _ _ h, if_pos rfl]
  congr 1
  refine Memory.bytes_congr fun i hi => ?_
  rw [Memory.read_write _ _ _ h, if_neg (by omega)]

theorem Memory.bytes_copy (src : Memory) {dst : Memory} (n : Nat) (h : dst.wf = true) :
    (Memory.copy src dst n).bytes n = src.bytes n :=
  Memory.bytes_congr fun i hi => by rw [Memory.read_copy _ _ _ h, if_pos hi]

theorem Memory.getElem?_bytes (m : Memory) (n i : Nat) :
    (m.bytes n)[i]? = if i < n then some (m.read i) else none := by
  by_cases h : i < n <;> simp [Memory.bytes, h]

/-! ## The bounded accesses: inside the capacity they succeed, and they fault only outside it (log 6) -/

theorem Memory.readIn_of_lt {m : Memory} {cap i : Nat} (h : i < cap) : m.readIn cap i = .ok (m.read i) := by
  simp [Memory.readIn, h]

theorem Memory.writeIn_of_lt {m : Memory} {cap i : Nat} (b : Byte) (h : i < cap) :
    m.writeIn cap i b = .ok (m.write i b) := by
  simp [Memory.writeIn, h]

theorem Memory.bytesIn_of_le {m : Memory} {cap n : Nat} (h : n ≤ cap) : m.bytesIn cap n = .ok (m.bytes n) := by
  simp [Memory.bytesIn, h]

theorem Memory.copyIn_of_le {src dst : Memory} {cap n : Nat} (h : n ≤ cap) :
    Memory.copyIn src dst cap n = .ok (Memory.copy src dst n) := by
  simp [Memory.copyIn, h]

/-- What a bounded read can do. -/
theorem Memory.readIn_eq_ok {m : Memory} {cap i : Nat} {b : Byte} (h : m.readIn cap i = .ok b) :
    i < cap ∧ b = m.read i := by
  unfold Memory.readIn at h
  split at h
  · exact ⟨by assumption, by injection h with h; exact h.symm⟩
  · cases h

/-- What a bounded write can do. -/
theorem Memory.writeIn_eq_ok {m m' : Memory} {cap i : Nat} {b : Byte} (h : m.writeIn cap i b = .ok m') :
    i < cap ∧ m' = m.write i b := by
  unfold Memory.writeIn at h
  split at h
  · exact ⟨by assumption, by injection h with h; exact h.symm⟩
  · cases h

/-- What a bounded row of reads can do. -/
theorem Memory.bytesIn_eq_ok {m : Memory} {cap n : Nat} {p : List Byte} (h : m.bytesIn cap n = .ok p) :
    n ≤ cap ∧ p = m.bytes n := by
  unfold Memory.bytesIn at h
  split at h
  · exact ⟨by assumption, by injection h with h; exact h.symm⟩
  · cases h

/-- What a bounded copy can do. -/
theorem Memory.copyIn_eq_ok {src dst m' : Memory} {cap n : Nat} (h : Memory.copyIn src dst cap n = .ok m') :
    n ≤ cap ∧ m' = Memory.copy src dst n := by
  unfold Memory.copyIn at h
  split at h
  · exact ⟨by assumption, by injection h with h; exact h.symm⟩
  · cases h

/-- The canonical form kept by the bounded write. -/
theorem Memory.wf_writeIn {m m' : Memory} {cap i : Nat} {b : Byte} (hm : m.wf = true)
    (h : m.writeIn cap i b = .ok m') : m'.wf = true :=
  (Memory.writeIn_eq_ok h).2 ▸ Memory.wf_write i b hm

/-- The canonical form kept by the bounded copy. -/
theorem Memory.wf_copyIn {src dst m' : Memory} {cap n : Nat} (hd : dst.wf = true)
    (h : Memory.copyIn src dst cap n = .ok m') : m'.wf = true :=
  (Memory.copyIn_eq_ok h).2 ▸ Memory.wf_copy src n hd

end Sys2Proof.Machine
end

