-- ==== Sys2Proof/Laws/State.lean ====
section
/-! SUPPORT. The fields of a state after each named update, one lemma a field, so that no proof unfolds a record
update. -/

namespace Sys2Proof.Machine

/-! ### `setStatus` -/

@[simp] theorem setStatus_crcAcc (c : OpStatus) (s : State) : (setStatus c s).crcAcc = s.crcAcc := rfl
@[simp] theorem setStatus_req (c : OpStatus) (s : State) : (setStatus c s).req = s.req := rfl
@[simp] theorem setStatus_dec (c : OpStatus) (s : State) : (setStatus c s).dec = s.dec := rfl
@[simp] theorem setStatus_frm (c : OpStatus) (s : State) : (setStatus c s).frm = s.frm := rfl
@[simp] theorem setStatus_txn (c : OpStatus) (s : State) : (setStatus c s).txn = s.txn := rfl
@[simp] theorem setStatus_cfg (c : OpStatus) (s : State) : (setStatus c s).cfg = s.cfg := rfl
@[simp] theorem setStatus_rxq (c : OpStatus) (s : State) : (setStatus c s).rxq = s.rxq := rfl
@[simp] theorem setStatus_txw (c : OpStatus) (s : State) : (setStatus c s).txw = s.txw := rfl
@[simp] theorem setStatus_params (c : OpStatus) (s : State) : (setStatus c s).params = s.params := rfl
@[simp] theorem setStatus_schedule (c : OpStatus) (s : State) : (setStatus c s).schedule = s.schedule := rfl
@[simp] theorem setStatus_host_idx (c : OpStatus) (s : State) : (setStatus c s).host.idx = s.host.idx := rfl
@[simp] theorem setStatus_host_resp (c : OpStatus) (s : State) : (setStatus c s).host.resp = s.host.resp := rfl
@[simp] theorem setStatus_host_opst (c : OpStatus) (s : State) : (setStatus c s).host.opst = c := rfl
@[simp] theorem setStatus_busy (c : OpStatus) (s : State) : (setStatus c s).busy = s.busy := rfl

/-! ### `setResp` -/

@[simp] theorem setResp_crcAcc (v : Half) (s : State) : (setResp v s).crcAcc = s.crcAcc := rfl
@[simp] theorem setResp_req (v : Half) (s : State) : (setResp v s).req = s.req := rfl
@[simp] theorem setResp_dec (v : Half) (s : State) : (setResp v s).dec = s.dec := rfl
@[simp] theorem setResp_frm (v : Half) (s : State) : (setResp v s).frm = s.frm := rfl
@[simp] theorem setResp_txn (v : Half) (s : State) : (setResp v s).txn = s.txn := rfl
@[simp] theorem setResp_cfg (v : Half) (s : State) : (setResp v s).cfg = s.cfg := rfl
@[simp] theorem setResp_rxq (v : Half) (s : State) : (setResp v s).rxq = s.rxq := rfl
@[simp] theorem setResp_txw (v : Half) (s : State) : (setResp v s).txw = s.txw := rfl
@[simp] theorem setResp_params (v : Half) (s : State) : (setResp v s).params = s.params := rfl
@[simp] theorem setResp_schedule (v : Half) (s : State) : (setResp v s).schedule = s.schedule := rfl
@[simp] theorem setResp_host_idx (v : Half) (s : State) : (setResp v s).host.idx = s.host.idx := rfl
@[simp] theorem setResp_host_resp (v : Half) (s : State) : (setResp v s).host.resp = v := rfl
@[simp] theorem setResp_host_opst (v : Half) (s : State) : (setResp v s).host.opst = s.host.opst := rfl
@[simp] theorem setResp_busy (v : Half) (s : State) : (setResp v s).busy = s.busy := rfl

/-! ### `emit` -/

@[simp] theorem emit_crcAcc (bs : List Byte) (s : State) : (emit bs s).crcAcc = s.crcAcc := rfl
@[simp] theorem emit_req (bs : List Byte) (s : State) : (emit bs s).req = s.req := rfl
@[simp] theorem emit_dec (bs : List Byte) (s : State) : (emit bs s).dec = s.dec := rfl
@[simp] theorem emit_frm (bs : List Byte) (s : State) : (emit bs s).frm = s.frm := rfl
@[simp] theorem emit_txn (bs : List Byte) (s : State) : (emit bs s).txn = s.txn := rfl
@[simp] theorem emit_cfg (bs : List Byte) (s : State) : (emit bs s).cfg = s.cfg := rfl
@[simp] theorem emit_host (bs : List Byte) (s : State) : (emit bs s).host = s.host := rfl
@[simp] theorem emit_rxq (bs : List Byte) (s : State) : (emit bs s).rxq = s.rxq := rfl
@[simp] theorem emit_params (bs : List Byte) (s : State) : (emit bs s).params = s.params := rfl
@[simp] theorem emit_schedule (bs : List Byte) (s : State) : (emit bs s).schedule = s.schedule := rfl
@[simp] theorem emit_txw (bs : List Byte) (s : State) : (emit bs s).txw = s.txw ++ bs := rfl

/-! ### `State.popEvent` -/

@[simp] theorem State.popEvent_crcAcc (s : State) : (State.popEvent s).crcAcc = s.crcAcc := rfl
@[simp] theorem State.popEvent_req (s : State) : (State.popEvent s).req = s.req := rfl
@[simp] theorem State.popEvent_dec (s : State) : (State.popEvent s).dec = s.dec := rfl
@[simp] theorem State.popEvent_frm (s : State) : (State.popEvent s).frm = s.frm := rfl
@[simp] theorem State.popEvent_txn (s : State) : (State.popEvent s).txn = s.txn := rfl
@[simp] theorem State.popEvent_cfg (s : State) : (State.popEvent s).cfg = s.cfg := rfl
@[simp] theorem State.popEvent_host (s : State) : (State.popEvent s).host = s.host := rfl
@[simp] theorem State.popEvent_rxq (s : State) : (State.popEvent s).rxq = s.rxq := rfl
@[simp] theorem State.popEvent_txw (s : State) : (State.popEvent s).txw = s.txw := rfl
@[simp] theorem State.popEvent_params (s : State) : (State.popEvent s).params = s.params := rfl
@[simp] theorem State.popEvent_schedule (s : State) : (State.popEvent s).schedule = s.schedule.tail := rfl

/-! ### `State.withCommands` -/

@[simp] theorem State.withCommands_crcAcc (s : State) (ws : List Half) : (State.withCommands s ws).crcAcc = s.crcAcc := rfl
@[simp] theorem State.withCommands_req (s : State) (ws : List Half) : (State.withCommands s ws).req = s.req := rfl
@[simp] theorem State.withCommands_dec (s : State) (ws : List Half) : (State.withCommands s ws).dec = s.dec := rfl
@[simp] theorem State.withCommands_frm (s : State) (ws : List Half) : (State.withCommands s ws).frm = s.frm := rfl
@[simp] theorem State.withCommands_txn (s : State) (ws : List Half) : (State.withCommands s ws).txn = s.txn := rfl
@[simp] theorem State.withCommands_cfg (s : State) (ws : List Half) : (State.withCommands s ws).cfg = s.cfg := rfl
@[simp] theorem State.withCommands_host (s : State) (ws : List Half) : (State.withCommands s ws).host = s.host := rfl
@[simp] theorem State.withCommands_rxq (s : State) (ws : List Half) : (State.withCommands s ws).rxq = s.rxq := rfl
@[simp] theorem State.withCommands_txw (s : State) (ws : List Half) : (State.withCommands s ws).txw = s.txw := rfl
@[simp] theorem State.withCommands_params (s : State) (ws : List Half) : (State.withCommands s ws).params = s.params := rfl
@[simp] theorem State.withCommands_schedule (s : State) (ws : List Half) : (State.withCommands s ws).schedule = ws.map .cmd ++ s.schedule := rfl

/-! ### `rxEvent` -/

@[simp] theorem rxEvent_crcAcc (b : Byte) (s : State) : (rxEvent b s).crcAcc = s.crcAcc := rfl
@[simp] theorem rxEvent_req (b : Byte) (s : State) : (rxEvent b s).req = s.req := rfl
@[simp] theorem rxEvent_dec (b : Byte) (s : State) : (rxEvent b s).dec = s.dec := rfl
@[simp] theorem rxEvent_frm (b : Byte) (s : State) : (rxEvent b s).frm = s.frm := rfl
@[simp] theorem rxEvent_txn (b : Byte) (s : State) : (rxEvent b s).txn = s.txn := rfl
@[simp] theorem rxEvent_cfg (b : Byte) (s : State) : (rxEvent b s).cfg = s.cfg := rfl
@[simp] theorem rxEvent_host (b : Byte) (s : State) : (rxEvent b s).host = s.host := rfl
@[simp] theorem rxEvent_txw (b : Byte) (s : State) : (rxEvent b s).txw = s.txw := rfl
@[simp] theorem rxEvent_params (b : Byte) (s : State) : (rxEvent b s).params = s.params := rfl
@[simp] theorem rxEvent_schedule (b : Byte) (s : State) : (rxEvent b s).schedule = s.schedule := rfl
@[simp] theorem rxEvent_rxq (b : Byte) (s : State) : (rxEvent b s).rxq = s.rxq ++ [b] := rfl

/-! ### `openTransaction` -/

@[simp] theorem openTransaction_crcAcc (s : State) : (openTransaction s).crcAcc = s.crcAcc := rfl
@[simp] theorem openTransaction_req (s : State) : (openTransaction s).req = s.req := rfl
@[simp] theorem openTransaction_dec (s : State) : (openTransaction s).dec = s.dec := rfl
@[simp] theorem openTransaction_cfg (s : State) : (openTransaction s).cfg = s.cfg := rfl
@[simp] theorem openTransaction_host (s : State) : (openTransaction s).host = s.host := rfl
@[simp] theorem openTransaction_rxq (s : State) : (openTransaction s).rxq = s.rxq := rfl
@[simp] theorem openTransaction_txw (s : State) : (openTransaction s).txw = s.txw := rfl
@[simp] theorem openTransaction_params (s : State) : (openTransaction s).params = s.params := rfl
@[simp] theorem openTransaction_schedule (s : State) : (openTransaction s).schedule = s.schedule := rfl
@[simp] theorem openTransaction_frm (s : State) : (openTransaction s).frm = { s.frm with valid := false } := rfl
@[simp] theorem openTransaction_txn_phase (s : State) : (openTransaction s).txn.phase = s.txn.phase := rfl
@[simp] theorem openTransaction_txn_result (s : State) : (openTransaction s).txn.result = .none := rfl
@[simp] theorem openTransaction_txn_lastFail (s : State) : (openTransaction s).txn.lastFail = .none := rfl
@[simp] theorem openTransaction_txn_attemptCnt (s : State) : (openTransaction s).txn.attemptCnt = 0#8 := rfl
@[simp] theorem openTransaction_txn_attemptsLeft (s : State) : (openTransaction s).txn.attemptsLeft = s.cfg.maxAttempts := rfl
@[simp] theorem openTransaction_txn_deadlineCnt (s : State) : (openTransaction s).txn.deadlineCnt = s.txn.deadlineCnt := rfl
@[simp] theorem openTransaction_txn_pollCnt (s : State) : (openTransaction s).txn.pollCnt = s.txn.pollCnt := rfl
@[simp] theorem openTransaction_txn_paceCnt (s : State) : (openTransaction s).txn.paceCnt = s.txn.paceCnt := rfl

/-! ### `resetEvent` -/

@[simp] theorem resetEvent_rxq (s : State) : (resetEvent s).rxq = s.rxq := rfl
@[simp] theorem resetEvent_txw (s : State) : (resetEvent s).txw = s.txw := rfl
@[simp] theorem resetEvent_params (s : State) : (resetEvent s).params = s.params := rfl
@[simp] theorem resetEvent_schedule (s : State) : (resetEvent s).schedule = s.schedule := rfl
@[simp] theorem resetEvent_crcAcc (s : State) : (resetEvent s).crcAcc = 0xFFFF#16 := rfl
@[simp] theorem resetEvent_dec (s : State) : (resetEvent s).dec = decReset s.dec := rfl
@[simp] theorem resetEvent_req_buf (s : State) : (resetEvent s).req.buf = s.req.buf := rfl
@[simp] theorem resetEvent_frm_buf (s : State) : (resetEvent s).frm.buf = s.frm.buf := rfl
@[simp] theorem resetEvent_req_len (s : State) : (resetEvent s).req.len = 0#16 := rfl
@[simp] theorem resetEvent_frm_len (s : State) : (resetEvent s).frm.len = 0#16 := rfl
@[simp] theorem resetEvent_frm_valid (s : State) : (resetEvent s).frm.valid = false := rfl
@[simp] theorem resetEvent_txn_phase (s : State) : (resetEvent s).txn.phase = .idle := rfl

/-! ### `beginFrame` -/

@[simp] theorem beginFrame_state (d : DecRegs) : (beginFrame d).state = d.state := rfl
@[simp] theorem beginFrame_result (d : DecRegs) : (beginFrame d).result = d.result := rfl
@[simp] theorem beginFrame_buf (d : DecRegs) : (beginFrame d).buf = d.buf := rfl
@[simp] theorem beginFrame_cmd (d : DecRegs) : (beginFrame d).cmd = 0x00#8 := rfl
@[simp] theorem beginFrame_len (d : DecRegs) : (beginFrame d).len = 0#16 := rfl
@[simp] theorem beginFrame_lidx (d : DecRegs) : (beginFrame d).lidx = 0 := rfl
@[simp] theorem beginFrame_pcount (d : DecRegs) : (beginFrame d).pcount = 0#16 := rfl
@[simp] theorem beginFrame_crcRx (d : DecRegs) : (beginFrame d).crcRx = 0x0000#16 := rfl
@[simp] theorem beginFrame_crcRun (d : DecRegs) : (beginFrame d).crcRun = 0xFFFF#16 := rfl

/-! ### `decReset` -/

@[simp] theorem decReset_state (d : DecRegs) : (decReset d).state = .awaitingStart := rfl
@[simp] theorem decReset_result (d : DecRegs) : (decReset d).result = .incomplete := rfl
@[simp] theorem decReset_buf (d : DecRegs) : (decReset d).buf = d.buf := rfl
@[simp] theorem decReset_cmd (d : DecRegs) : (decReset d).cmd = 0x00#8 := rfl
@[simp] theorem decReset_len (d : DecRegs) : (decReset d).len = 0#16 := rfl
@[simp] theorem decReset_lidx (d : DecRegs) : (decReset d).lidx = 0 := rfl
@[simp] theorem decReset_pcount (d : DecRegs) : (decReset d).pcount = 0#16 := rfl
@[simp] theorem decReset_crcRx (d : DecRegs) : (decReset d).crcRx = 0x0000#16 := rfl
@[simp] theorem decReset_crcRun (d : DecRegs) : (decReset d).crcRun = 0xFFFF#16 := rfl

/-! ### `failAttempt` (its two branches differ in the sequencer's registers only) -/

@[simp] theorem failAttempt_crcAcc (r : FailReason) (s : State) : (failAttempt r s).crcAcc = s.crcAcc := by
  unfold failAttempt; split <;> rfl
@[simp] theorem failAttempt_req (r : FailReason) (s : State) : (failAttempt r s).req = s.req := by
  unfold failAttempt; split <;> rfl
@[simp] theorem failAttempt_dec (r : FailReason) (s : State) : (failAttempt r s).dec = s.dec := by
  unfold failAttempt; split <;> rfl
@[simp] theorem failAttempt_frm (r : FailReason) (s : State) : (failAttempt r s).frm = s.frm := by
  unfold failAttempt; split <;> rfl
@[simp] theorem failAttempt_cfg (r : FailReason) (s : State) : (failAttempt r s).cfg = s.cfg := by
  unfold failAttempt; split <;> rfl
@[simp] theorem failAttempt_host (r : FailReason) (s : State) : (failAttempt r s).host = s.host := by
  unfold failAttempt; split <;> rfl
@[simp] theorem failAttempt_rxq (r : FailReason) (s : State) : (failAttempt r s).rxq = s.rxq := by
  unfold failAttempt; split <;> rfl
@[simp] theorem failAttempt_txw (r : FailReason) (s : State) : (failAttempt r s).txw = s.txw := by
  unfold failAttempt; split <;> rfl
@[simp] theorem failAttempt_params (r : FailReason) (s : State) : (failAttempt r s).params = s.params := by
  unfold failAttempt; split <;> rfl
@[simp] theorem failAttempt_schedule (r : FailReason) (s : State) : (failAttempt r s).schedule = s.schedule := by
  unfold failAttempt; split <;> rfl
@[simp] theorem failAttempt_txn_lastFail (r : FailReason) (s : State) : (failAttempt r s).txn.lastFail = r := by
  unfold failAttempt; split <;> rfl
@[simp] theorem failAttempt_txn_attemptsLeft (r : FailReason) (s : State) : (failAttempt r s).txn.attemptsLeft = s.txn.attemptsLeft := by
  unfold failAttempt; split <;> rfl
@[simp] theorem failAttempt_txn_attemptCnt (r : FailReason) (s : State) : (failAttempt r s).txn.attemptCnt = s.txn.attemptCnt := by
  unfold failAttempt; split <;> rfl
@[simp] theorem failAttempt_txn_deadlineCnt (r : FailReason) (s : State) : (failAttempt r s).txn.deadlineCnt = s.txn.deadlineCnt := by
  unfold failAttempt; split <;> rfl
@[simp] theorem failAttempt_txn_pollCnt (r : FailReason) (s : State) : (failAttempt r s).txn.pollCnt = s.txn.pollCnt := by
  unfold failAttempt; split <;> rfl

/-! ### `tickEvent` (it changes the sequencer's counters only) -/

@[simp] theorem tickEvent_crcAcc (s : State) : (tickEvent s).crcAcc = s.crcAcc := by
  unfold tickEvent; split <;> rfl
@[simp] theorem tickEvent_req (s : State) : (tickEvent s).req = s.req := by
  unfold tickEvent; split <;> rfl
@[simp] theorem tickEvent_dec (s : State) : (tickEvent s).dec = s.dec := by
  unfold tickEvent; split <;> rfl
@[simp] theorem tickEvent_frm (s : State) : (tickEvent s).frm = s.frm := by
  unfold tickEvent; split <;> rfl
@[simp] theorem tickEvent_cfg (s : State) : (tickEvent s).cfg = s.cfg := by
  unfold tickEvent; split <;> rfl
@[simp] theorem tickEvent_host (s : State) : (tickEvent s).host = s.host := by
  unfold tickEvent; split <;> rfl
@[simp] theorem tickEvent_rxq (s : State) : (tickEvent s).rxq = s.rxq := by
  unfold tickEvent; split <;> rfl
@[simp] theorem tickEvent_txw (s : State) : (tickEvent s).txw = s.txw := by
  unfold tickEvent; split <;> rfl
@[simp] theorem tickEvent_params (s : State) : (tickEvent s).params = s.params := by
  unfold tickEvent; split <;> rfl
@[simp] theorem tickEvent_schedule (s : State) : (tickEvent s).schedule = s.schedule := by
  unfold tickEvent; split <;> rfl
@[simp] theorem tickEvent_txn_phase (s : State) : (tickEvent s).txn.phase = s.txn.phase := by
  unfold tickEvent; split <;> rfl
@[simp] theorem tickEvent_txn_result (s : State) : (tickEvent s).txn.result = s.txn.result := by
  unfold tickEvent; split <;> rfl
@[simp] theorem tickEvent_txn_lastFail (s : State) : (tickEvent s).txn.lastFail = s.txn.lastFail := by
  unfold tickEvent; split <;> rfl
@[simp] theorem tickEvent_txn_attemptsLeft (s : State) : (tickEvent s).txn.attemptsLeft = s.txn.attemptsLeft := by
  unfold tickEvent; split <;> rfl
@[simp] theorem tickEvent_txn_attemptCnt (s : State) : (tickEvent s).txn.attemptCnt = s.txn.attemptCnt := by
  unfold tickEvent; split <;> rfl

/-! ### Placing a command word -/

@[simp] theorem State.withCommands_popEvent (s : State) (w : Half) : (s.withCommands [w]).popEvent = s := rfl

@[simp] theorem State.withCommands_nextEvent (s : State) (w : Half) (ws : List Half) :
    (s.withCommands (w :: ws)).nextEvent = .cmd w := rfl

theorem State.withFetchWord_eq (s : State) (nbits w : Nat) :
    s.withFetchWord nbits w = s.withCommands [BitVec.ofNat 16 (w % 2 ^ nbits)] := rfl

/-! ### Reset -/

@[simp] theorem State.resetWith_params (p : Params) : (State.resetWith p).params = p := rfl

theorem State.reset_req_wf : State.reset.req.buf.wf = true := rfl

theorem State.reset_dec_wf : State.reset.dec.buf.wf = true := rfl

theorem State.reset_frm_wf : State.reset.frm.buf.wf = true := rfl

end Sys2Proof.Machine
end

