-- ==== Sys2Proof/Laws/Ops.lean ====
section
/-! SUPPORT. What each shared operation can do, said once: if it answers a state, then which. Proofs cite these and
unfold no operation. -/

namespace Sys2Proof.Machine

/-! ## Outcomes, status and ownership -/

@[simp] theorem outcome_ok (s : State) : outcome (.ok s) = .next s := rfl

@[simp] theorem outcome_error (f : Fault) : outcome (.error f) = .fault f := rfl

@[simp] theorem finishOk_ok (s : State) : finishOk (.ok s) = .next (setStatus .ok s) := rfl

@[simp] theorem finishOk_error (f : Fault) : finishOk (.error f) = .fault f := rfl

theorem outcome_eq_next {r : Except Fault State} {t : State} (h : outcome r = .next t) : r = .ok t := by
  cases r with
  | ok s => simpa using h
  | error f => cases h

/-- A finished command is its effect with `OPST = OK`. -/
theorem finishOk_eq_next {r : Except Fault State} {t : State} (h : finishOk r = .next t) :
    ∃ u, r = .ok u ∧ t = setStatus .ok u := by
  cases r with
  | ok u => exact ⟨u, rfl, by simpa [eq_comm] using h⟩
  | error f => cases h

theorem State.busy_iff (s : State) : s.busy = true ↔ s.txn.phase = .wait ∨ s.txn.phase = .pace := by
  unfold State.busy; split <;> simp_all

theorem State.not_busy_iff (s : State) : s.busy = false ↔ s.txn.phase = .idle ∨ s.txn.phase = .done := by
  unfold State.busy; split <;> simp_all

theorem unlessBusy_of_busy {s : State} (h : s.busy = true) (r : Host.Outcome State Fault Refusal) :
    unlessBusy s r = .next (setStatus .busy s) := by
  simp [unlessBusy, h]

theorem unlessBusy_of_not_busy {s : State} (h : s.busy = false) (r : Host.Outcome State Fault Refusal) :
    unlessBusy s r = r := by
  simp [unlessBusy, h]

/-- A busy operation is turned away with BUSY, or it runs. -/
theorem unlessBusy_eq_next {s t : State} {r : Host.Outcome State Fault Refusal} (h : unlessBusy s r = .next t) :
    (s.busy = true ∧ t = setStatus .busy s) ∨ (s.busy = false ∧ r = .next t) := by
  unfold unlessBusy at h
  split at h
  · exact .inl ⟨by assumption, by injection h with h; exact h.symm⟩
  · exact .inr ⟨by simpa using (by assumption : ¬ s.busy = true), h⟩

/-! ## The request and its frame -/

@[simp] theorem length_frameBody (c : Byte) (p : List Byte) : (frameBody c p).length = 3 + p.length := by
  simp [frameBody]; omega

@[simp] theorem length_encodeFrame (c : Byte) (p : List Byte) : (encodeFrame c p).length = 7 + p.length := by
  simp [encodeFrame]; omega

theorem emitRequest_of_le {s : State} (h : s.req.len ≤ s.params.txCap) :
    emitRequest s = .ok (emit (encodeFrame s.req.cmd (s.req.buf.bytes s.req.len.toNat)) s) := by
  have h' : s.req.len.toNat ≤ s.params.txCap.toNat := by simpa [BitVec.le_def] using h
  simp [emitRequest, requestPayload, Memory.bytesIn_of_le h', Except.map]

/-- Sending the request appends its frame to `TXW`. -/
theorem emitRequest_eq_ok {s t : State} (h : emitRequest s = .ok t) :
    s.req.len ≤ s.params.txCap ∧
      t = emit (encodeFrame s.req.cmd (s.req.buf.bytes s.req.len.toNat)) s := by
  unfold emitRequest requestPayload at h
  cases hb : s.req.buf.bytesIn s.params.txCap.toNat s.req.len.toNat with
  | error e => simp [hb, Except.map] at h
  | ok p =>
    obtain ⟨hle, rfl⟩ := Memory.bytesIn_eq_ok hb
    simp [hb, Except.map] at h
    exact ⟨by simpa [BitVec.le_def] using hle, h.symm⟩

/-- The state an attempt's send leaves (43_sequencer.md R96). -/
theorem sendAttempt_of_le {s : State} (h : s.req.len ≤ s.params.txCap) :
    sendAttempt s = .ok { s with
      txw := s.txw ++ encodeFrame s.req.cmd (s.req.buf.bytes s.req.len.toNat)
      dec := decReset s.dec
      txn := { s.txn with
        attemptsLeft := s.txn.attemptsLeft - 1#8
        attemptCnt := s.txn.attemptCnt + 1#8
        deadlineCnt := s.cfg.timeout
        pollCnt := 0#16
        phase := .wait } } := by
  simp [sendAttempt, emitRequest_of_le h, Except.map, emit]

theorem sendAttempt_eq_ok {s t : State} (h : sendAttempt s = .ok t) :
    s.req.len ≤ s.params.txCap ∧
      t = { s with
        txw := s.txw ++ encodeFrame s.req.cmd (s.req.buf.bytes s.req.len.toNat)
        dec := decReset s.dec
        txn := { s.txn with
          attemptsLeft := s.txn.attemptsLeft - 1#8
          attemptCnt := s.txn.attemptCnt + 1#8
          deadlineCnt := s.cfg.timeout
          pollCnt := 0#16
          phase := .wait } } := by
  cases he : emitRequest s with
  | error e => simp [sendAttempt, he, Except.map] at h
  | ok u =>
    have hle := (emitRequest_eq_ok he).1
    rw [sendAttempt_of_le hle] at h
    exact ⟨hle, by injection h with h; exact h.symm⟩

/-- A failed attempt goes to PACE with attempts left, else to DONE with NOREPLY (43_sequencer.md R97). -/
theorem failAttempt_cases (r : FailReason) (s : State) :
    (0#8 < s.txn.attemptsLeft ∧ failAttempt r s =
        { s with txn := { s.txn with lastFail := r, phase := .pace, paceCnt := s.params.paceDelay } }) ∨
      (s.txn.attemptsLeft = 0#8 ∧ failAttempt r s =
        { s with txn := { s.txn with lastFail := r, phase := .done, result := .noReply } }) := by
  unfold failAttempt
  split
  · exact .inl ⟨by assumption, rfl⟩
  · refine .inr ⟨?_, rfl⟩
    have h : ¬ 0#8 < s.txn.attemptsLeft := by assumption
    bv_omega

/-! ## The decoder -/

/-- What a byte at AwaitingData can do (42_decoder.md R78). -/
theorem atAwaitingData_eq_ok {cap : Half} {b : Byte} {d d' : DecRegs} (h : atAwaitingData cap b d = .ok d') :
    (d.pcount = cap ∧ d' = { d with state := .overflow, result := .incomplete }) ∨
      (d.pcount ≠ cap ∧ d.pcount < cap ∧ d' =
        { d with
          buf := d.buf.write d.pcount.toNat b
          pcount := d.pcount + 1#16
          crcRun := crcStep d.crcRun b
          state := if d.pcount + 1#16 = d.len then .awaitingCrcLow else .awaitingData
          result := .incomplete }) := by
  unfold atAwaitingData at h
  split at h
  · exact .inl ⟨by assumption, by injection h with h; exact h.symm⟩
  · cases hw : d.buf.writeIn cap.toNat d.pcount.toNat b with
    | error e => simp [hw, Except.map] at h
    | ok m =>
      obtain ⟨hlt, rfl⟩ := Memory.writeIn_eq_ok hw
      simp only [hw, Except.map, Except.ok.injEq] at h
      exact .inr ⟨by assumption, by simpa [BitVec.lt_def] using hlt, h.symm⟩

theorem atAwaitingData_of_lt {cap : Half} {b : Byte} {d : DecRegs} (h : d.pcount < cap) :
    atAwaitingData cap b d = .ok
      { d with
        buf := d.buf.write d.pcount.toNat b
        pcount := d.pcount + 1#16
        crcRun := crcStep d.crcRun b
        state := if d.pcount + 1#16 = d.len then .awaitingCrcLow else .awaitingData
        result := .incomplete } := by
  have hne : d.pcount ≠ cap := by rintro rfl; exact absurd h (BitVec.lt_irrefl _)
  have hlt : d.pcount.toNat < cap.toNat := by simpa [BitVec.lt_def] using h
  simp [atAwaitingData, hne, Memory.writeIn_of_lt b hlt, Except.map]

theorem atAwaitingData_full {b : Byte} {d : DecRegs} :
    atAwaitingData d.pcount b d = .ok { d with state := .overflow, result := .incomplete } := by
  simp [atAwaitingData]

/-- What a completed frame leaves in the latch (42_decoder.md R81). -/
theorem latchFrame_eq_ok {cap : Half} {d : DecRegs} {f f' : FrameLatch} (h : latchFrame cap d f = .ok f') :
    d.len ≤ cap ∧ f' =
      { valid := true, cmd := d.cmd, len := d.len, crc := d.crcRx, buf := Memory.copy d.buf f.buf d.len.toNat } := by
  unfold latchFrame at h
  cases hc : Memory.copyIn d.buf f.buf cap.toNat d.len.toNat with
  | error e => simp [hc, Except.map] at h
  | ok m =>
    obtain ⟨hle, rfl⟩ := Memory.copyIn_eq_ok hc
    simp only [hc, Except.map, Except.ok.injEq] at h
    exact ⟨by simpa [BitVec.le_def] using hle, h.symm⟩

theorem latchFrame_of_le {cap : Half} {d : DecRegs} {f : FrameLatch} (h : d.len ≤ cap) :
    latchFrame cap d f = .ok
      { valid := true, cmd := d.cmd, len := d.len, crc := d.crcRx, buf := Memory.copy d.buf f.buf d.len.toNat } := by
  have hle : d.len.toNat ≤ cap.toNat := by simpa [BitVec.le_def] using h
  simp [latchFrame, Memory.copyIn_of_le hle, Except.map]

theorem endResult_eq_frame {b : Byte} {d : DecRegs} : endResult b d = .frame ↔ b = 0xAA#8 ∧ d.crcRx = d.crcRun := by
  unfold endResult; split
  · simp_all
  · split <;> simp_all

/-- What a byte at AwaitingEnd can do (42_decoder.md R81). -/
theorem atAwaitingEnd_eq_ok {cap : Half} {b : Byte} {d d' : DecRegs} {f f' : FrameLatch}
    (h : atAwaitingEnd cap b d f = .ok (d', f')) :
    d' = { d with state := .awaitingStart, result := endResult b d } ∧
      ((endResult b d = .frame ∧ d.len ≤ cap ∧ f' =
          { valid := true, cmd := d.cmd, len := d.len, crc := d.crcRx,
            buf := Memory.copy d.buf f.buf d.len.toNat }) ∨
        (endResult b d ≠ .frame ∧ f' = f)) := by
  unfold atAwaitingEnd at h
  dsimp only at h
  split at h
  · rename_i hr
    cases hl : latchFrame cap d f with
    | error e => simp [hl, Except.map] at h
    | ok g =>
      obtain ⟨hle, rfl⟩ := latchFrame_eq_ok hl
      simp only [hl, Except.map, Except.ok.injEq, Prod.mk.injEq] at h
      exact ⟨h.1.symm, .inl ⟨hr, hle, h.2.symm⟩⟩
  · rename_i hr
    simp only [Except.ok.injEq, Prod.mk.injEq] at h
    exact ⟨h.1.symm, .inr ⟨hr, h.2.symm⟩⟩

/-- Every row of the transition table but AwaitingEnd's leaves the latch alone (42_decoder.md R73 to R82): what one
byte does to the decoder. -/
theorem decStep_eq_ok {cap : Half} {b : Byte} {d d' : DecRegs} {f f' : FrameLatch}
    (h : decStep cap b d f = .ok (d', f')) :
    (d.state = .awaitingStart ∧ d' = atAwaitingStart b d ∧ f' = f) ∨
    (d.state = .awaitingCommand ∧ d' = atAwaitingCommand b d ∧ f' = f) ∨
    (d.state = .awaitingLength ∧ d' = atAwaitingLength b d ∧ f' = f) ∨
    (d.state = .awaitingData ∧ atAwaitingData cap b d = .ok d' ∧ f' = f) ∨
    (d.state = .awaitingCrcLow ∧ d' = atAwaitingCrcLow b d ∧ f' = f) ∨
    (d.state = .awaitingCrcHigh ∧ d' = atAwaitingCrcHigh b d ∧ f' = f) ∨
    (d.state = .awaitingEnd ∧ atAwaitingEnd cap b d f = .ok (d', f')) ∨
    (d.state = .overflow ∧ d' = atOverflow d ∧ f' = f) := by
  unfold decStep at h
  split at h
  case h_4 =>
    cases hd : atAwaitingData cap b d with
    | error e => simp [hd, Except.map] at h
    | ok e =>
      simp only [hd, Except.map, Except.ok.injEq, Prod.mk.injEq] at h
      simp_all
  all_goals simp_all

/-- A byte received changes the decoder's registers and the latch only. -/
theorem receiveByte_eq_ok {b : Byte} {s t : State} (h : receiveByte b s = .ok t) :
    ∃ d f, decStep s.params.rxCap b s.dec s.frm = .ok (d, f) ∧ t = { s with dec := d, frm := f } := by
  unfold receiveByte at h
  cases hd : decStep s.params.rxCap b s.dec s.frm with
  | error e => simp [hd, Except.map] at h
  | ok p =>
    obtain ⟨d, f⟩ := p
    simp only [hd, Except.map, Except.ok.injEq] at h
    exact ⟨d, f, rfl, h.symm⟩

/-- What FEED does after its `dec_step` (43_sequencer.md R98): nothing, the end with OK, or a failed attempt. -/
theorem afterFeed_cases (s : State) :
    (s.dec.result = .incomplete ∧ afterFeed s = s) ∨
    (s.dec.result = .frame ∧ s.frm.cmd = replyCmd s.params s.req.cmd ∧
      afterFeed s = { s with txn := { s.txn with phase := .done, result := .ok } }) ∨
    (s.dec.result = .frame ∧ s.frm.cmd ≠ replyCmd s.params s.req.cmd ∧ afterFeed s = failAttempt .mismatch s) ∨
    (s.dec.result = .badChecksum ∧ afterFeed s = failAttempt .badChecksum s) ∨
    (s.dec.result = .missingTerminator ∧ afterFeed s = failAttempt .missingTerminator s) ∨
    (s.dec.result = .overflow ∧ afterFeed s = failAttempt .overflow s) := by
  unfold afterFeed
  split
  case h_2 => split <;> simp_all
  all_goals simp_all

/-- FEED consumes the oldest received byte (43_sequencer.md R98). -/
theorem feedEvent_eq_ok {s t : State} (h : feedEvent s = .ok t) :
    (s.rxq = [] ∧ t = s) ∨
      ∃ b rest u, s.rxq = b :: rest ∧ receiveByte b { s with rxq := rest } = .ok u ∧ t = afterFeed u := by
  unfold feedEvent at h
  split at h
  · exact .inl ⟨by assumption, by injection h with h; exact h.symm⟩
  · rename_i b rest hq
    cases hr : receiveByte b { s with rxq := rest } with
    | error e => simp [hr, Except.map] at h
    | ok u =>
      simp only [hr, Except.map, Except.ok.injEq] at h
      exact .inr ⟨b, rest, u, hq, hr, h.symm⟩

/-- CLOSE reopens the poll counter, or times the attempt out (43_sequencer.md R99). -/
theorem closeEvent_cases (s : State) :
    (s.txn.deadlineCnt = 0#16 ∧ closeEvent s = failAttempt .timeout s) ∨
      (s.txn.deadlineCnt ≠ 0#16 ∧ closeEvent s = { s with txn := { s.txn with pollCnt := s.cfg.pollInterval } }) := by
  unfold closeEvent
  split
  · exact .inl ⟨by assumption, rfl⟩
  · exact .inr ⟨by assumption, rfl⟩

/-- TICK by phase (43_sequencer.md R101). -/
theorem tickEvent_cases (s : State) :
    (s.busy = false ∧ tickEvent s = s) ∨
    (s.txn.phase = .wait ∧ tickEvent s =
      { s with txn := { s.txn with deadlineCnt := satDec s.txn.deadlineCnt, pollCnt := satDec s.txn.pollCnt } }) ∨
    (s.txn.phase = .pace ∧ tickEvent s = { s with txn := { s.txn with paceCnt := satDec s.txn.paceCnt } }) := by
  unfold tickEvent State.busy
  split <;> simp_all

theorem satDec_toNat (n : Half) : (satDec n).toNat = n.toNat - 1 := by
  unfold satDec
  split <;> bv_omega

/-! ## Readback -/

/-- What a buffer read can do (44_readback.md R112). -/
theorem readBuffer_eq_next {buf : Buffer} {s t : State} (h : readBuffer buf s = .next t) :
    (s.host.idx < bufferLen s buf ∧ s.host.idx.toNat < bufferCap s buf ∧
        t = setStatus .ok (setResp (zext16 ((bufferOf s buf).read s.host.idx.toNat)) s)) ∨
      (¬ s.host.idx < bufferLen s buf ∧ t = setStatus .range s) := by
  unfold readBuffer at h
  split at h
  · cases hr : (bufferOf s buf).readIn (bufferCap s buf) s.host.idx.toNat with
    | error e => simp [hr, Except.map] at h
    | ok v =>
      obtain ⟨hlt, rfl⟩ := Memory.readIn_eq_ok hr
      simp only [hr, Except.map, finishOk_ok, Host.Outcome.next.injEq] at h
      exact .inl ⟨by assumption, hlt, h.symm⟩
  · exact .inr ⟨by assumption, by injection h with h; exact h.symm⟩

/-- What `RD` can do (44_readback.md R111): it changes `RESP` and `OPST` only. -/
theorem execRd_eq_next {sel : Byte} {s t : State} (h : execRd sel s = .next t) :
    (∃ v, t = setStatus .ok (setResp v s)) ∨ t = setStatus .range s ∨ t = setStatus .illegal s := by
  unfold execRd at h
  split at h
  · rcases readBuffer_eq_next h with ⟨-, -, rfl⟩ | ⟨-, rfl⟩
    · exact .inl ⟨_, rfl⟩
    · exact .inr (.inl rfl)
  · split at h
    · simp only [finishOk_ok, Host.Outcome.next.injEq] at h
      exact .inl ⟨_, h.symm⟩
    · injection h with h
      exact .inr (.inr h.symm)

/-! ## Starting a transaction -/

/-- What `TXN.START` can do past its busy check (43_sequencer.md R95). -/
theorem startTransaction_eq_ok {s t : State} (h : startTransaction s = .ok t) :
    (s.cfg.maxAttempts = 0#8 ∧
        t = { openTransaction s with txn := { (openTransaction s).txn with phase := .done, result := .noReply } }) ∨
      (s.cfg.maxAttempts ≠ 0#8 ∧ sendAttempt (openTransaction s) = .ok t) := by
  unfold startTransaction at h
  split at h
  · exact .inl ⟨by assumption, by injection h with h; exact h.symm⟩
  · exact .inr ⟨by assumption, h⟩

/-- What `REQ.PUSH`'s append can do (41_encoder.md R71). -/
theorem pushRequest_eq_ok {b : Byte} {s t : State} (h : pushRequest b s = .ok t) :
    s.req.len < s.params.txCap ∧
      t = { s with req := { s.req with buf := s.req.buf.write s.req.len.toNat b, len := s.req.len + 1#16 } } := by
  unfold pushRequest at h
  cases hw : s.req.buf.writeIn s.params.txCap.toNat s.req.len.toNat b with
  | error e => simp [hw, Except.map] at h
  | ok m =>
    obtain ⟨hlt, rfl⟩ := Memory.writeIn_eq_ok hw
    simp only [hw, Except.map, Except.ok.injEq] at h
    exact ⟨by simpa [BitVec.lt_def] using hlt, h.symm⟩

end Sys2Proof.Machine
end

