-- ==== Sys2Proof/Laws/PerInstr.lean ====
section
/-! SUPPORT. Per-instruction families: a statement about each command as syntax, one lemma a constructor. -/

namespace Sys2Proof.Laws

/-- The OP field of `(OP << 8) | IMM` is OP. -/
theorem opField_word (op imm : Byte) : opField ((op.setWidth 16 <<< 8) ||| imm.setWidth 16) = op := by
  apply BitVec.eq_of_getLsbD_eq
  intro i hi
  have h16 : 8 + i < 16 := by omega
  simp [opField, hi, h16]

/-- The IMM field of `(OP << 8) | IMM` is IMM. -/
theorem immField_word (op imm : Byte) : immField ((op.setWidth 16 <<< 8) ||| imm.setWidth 16) = imm := by
  apply BitVec.eq_of_getLsbD_eq
  intro i hi
  have h16 : i < 16 := by omega
  simp [immField, hi, h16]

/-- The two fields of a command's word are its OP and its IMM (30_encoding.md R51, R56). -/
def EncodeFields.Statement (i : Instr) : Prop := opField (encode i) = i.opcode ∧ immField (encode i) = i.operand

theorem EncodeFields.of_word (i : Instr) : EncodeFields.Statement i :=
  ⟨opField_word i.opcode i.operand, immField_word i.opcode i.operand⟩

theorem EncodeFields.nop : EncodeFields.Statement .nop := EncodeFields.of_word _
theorem EncodeFields.crcInit : EncodeFields.Statement .crcInit := EncodeFields.of_word _
theorem EncodeFields.crcByte (b : Byte) : EncodeFields.Statement (.crcByte b) := EncodeFields.of_word _
theorem EncodeFields.reqClear : EncodeFields.Statement .reqClear := EncodeFields.of_word _
theorem EncodeFields.reqCmd (c : Byte) : EncodeFields.Statement (.reqCmd c) := EncodeFields.of_word _
theorem EncodeFields.reqPush (b : Byte) : EncodeFields.Statement (.reqPush b) := EncodeFields.of_word _
theorem EncodeFields.encSend : EncodeFields.Statement .encSend := EncodeFields.of_word _
theorem EncodeFields.decReset : EncodeFields.Statement .decReset := EncodeFields.of_word _
theorem EncodeFields.decFeed (b : Byte) : EncodeFields.Statement (.decFeed b) := EncodeFields.of_word _
theorem EncodeFields.idxLo (n : Byte) : EncodeFields.Statement (.idxLo n) := EncodeFields.of_word _
theorem EncodeFields.idxHi (n : Byte) : EncodeFields.Statement (.idxHi n) := EncodeFields.of_word _
theorem EncodeFields.rd (sel : Byte) : EncodeFields.Statement (.rd sel) := EncodeFields.of_word _
theorem EncodeFields.cfgAtt (n : Byte) : EncodeFields.Statement (.cfgAtt n) := EncodeFields.of_word _
theorem EncodeFields.cfgTmol (t : Byte) : EncodeFields.Statement (.cfgTmol t) := EncodeFields.of_word _
theorem EncodeFields.cfgTmoh (t : Byte) : EncodeFields.Statement (.cfgTmoh t) := EncodeFields.of_word _
theorem EncodeFields.cfgPolll (p : Byte) : EncodeFields.Statement (.cfgPolll p) := EncodeFields.of_word _
theorem EncodeFields.cfgPollh (p : Byte) : EncodeFields.Statement (.cfgPollh p) := EncodeFields.of_word _
theorem EncodeFields.txnStart : EncodeFields.Statement .txnStart := EncodeFields.of_word _

end Sys2Proof.Laws
end

