-- ==== Sys2Proof/Laws/Step.lean ====
section
/-! SUPPORT. What a step can do, said once: an enabled event, taken off the schedule and performed. -/

namespace Sys2Proof.Machine

/-- A step that answers a state has taken an enabled event. -/
theorem step_eq_next {s t : State} (h : step s = .next t) :
    s.nextEvent.enabled s = true ∧ performEvent s.nextEvent s.popEvent = .next t := by
  unfold step takeEvent at h
  split at h
  · exact ⟨by assumption, h⟩
  · cases h

theorem step_of_enabled {s : State} (h : s.nextEvent.enabled s = true) :
    step s = performEvent s.nextEvent s.popEvent := by
  simp [step, takeEvent, h]

theorem step_withCommands (s : State) (w : Half) : step (s.withCommands [w]) = commandEvent w s := rfl

theorem step_scheduled {s : State} {e : Event} {rest : List Event} (hs : s.schedule = e :: rest)
    (he : e.enabled s = true) : step s = performEvent e { s with schedule := rest } := by
  have hn : s.nextEvent = e := by simp [State.nextEvent, hs]
  have hp : s.popEvent = { s with schedule := rest } := by simp [State.popEvent, hs]
  rw [step_of_enabled (by rw [hn]; exact he), hn, hp]

/-- What a command word can do (30_encoding.md R54, R55). -/
theorem commandEvent_eq_next {w : Half} {s t : State} (h : commandEvent w s = .next t) :
    (∃ i, decode w = .ok i ∧ exec i s = .next t) ∨ (∃ e, decode w = .error e ∧ t = setStatus .illegal s) := by
  unfold commandEvent at h
  split at h
  · exact .inl ⟨_, by assumption, h⟩
  · exact .inr ⟨_, by assumption, by injection h with h; exact h.symm⟩

/-- A step by the kind of its event. -/
theorem step_cases {s t : State} (h : step s = .next t) :
    (∃ w, s.nextEvent = .cmd w ∧ commandEvent w s.popEvent = .next t) ∨
    (∃ b, s.nextEvent = .rx b ∧ t = rxEvent b s.popEvent) ∨
    (s.nextEvent = .feed ∧ feedEnabled s = true ∧ feedEvent s.popEvent = .ok t) ∨
    (s.nextEvent = .close ∧ closeEnabled s = true ∧ t = closeEvent s.popEvent) ∨
    (s.nextEvent = .resend ∧ resendEnabled s = true ∧ sendAttempt s.popEvent = .ok t) ∨
    (s.nextEvent = .tick ∧ blockEnabled s = false ∧ t = tickEvent s.popEvent) ∨
    (s.nextEvent = .reset ∧ t = resetEvent s.popEvent) := by
  obtain ⟨he, hp⟩ := step_eq_next h
  cases hn : s.nextEvent with
  | cmd w => rw [hn] at hp; exact .inl ⟨w, rfl, hp⟩
  | rx b => rw [hn] at hp; injection hp with hp; exact .inr (.inl ⟨b, rfl, hp.symm⟩)
  | feed =>
    rw [hn] at hp he
    exact .inr (.inr (.inl ⟨rfl, he, outcome_eq_next hp⟩))
  | close =>
    rw [hn] at hp he; injection hp with hp
    exact .inr (.inr (.inr (.inl ⟨rfl, he, hp.symm⟩)))
  | resend =>
    rw [hn] at hp he
    exact .inr (.inr (.inr (.inr (.inl ⟨rfl, he, outcome_eq_next hp⟩))))
  | tick =>
    rw [hn] at hp he; injection hp with hp
    exact .inr (.inr (.inr (.inr (.inr (.inl ⟨rfl, by simpa [Event.enabled] using he, hp.symm⟩)))))
  | reset =>
    rw [hn] at hp; injection hp with hp
    exact .inr (.inr (.inr (.inr (.inr (.inr ⟨rfl, hp.symm⟩)))))

/-- FEED's enabling condition (43_sequencer.md R98). -/
theorem feedEnabled_iff (s : State) :
    feedEnabled s = true ↔ s.txn.phase = .wait ∧ s.txn.pollCnt = 0#16 ∧ s.rxq ≠ [] := by
  simp [feedEnabled, and_assoc]

/-- CLOSE's enabling condition (43_sequencer.md R99). -/
theorem closeEnabled_iff (s : State) :
    closeEnabled s = true ↔ s.txn.phase = .wait ∧ s.txn.pollCnt = 0#16 ∧ s.rxq = [] ∧
      (s.txn.deadlineCnt = 0#16 ∨ 0#16 < s.cfg.pollInterval) := by
  simp [closeEnabled, and_assoc]

/-- RESEND's enabling condition (43_sequencer.md R100). -/
theorem resendEnabled_iff (s : State) : resendEnabled s = true ↔ s.txn.phase = .pace ∧ s.txn.paceCnt = 0#16 := by
  simp [resendEnabled]

end Sys2Proof.Machine
end

