-- ==== Sys2Proof/Tests/Slice0.lean ====
section
/-! SUPPORT. Tests on fixed values. Expected values come from the spec: the words of 30_encoding.md R53, the vectors of
95_test_vectors.md (its section or row is named at each test) and the examples of the rules. A theorem `witness_<Name>`
shows values that meet the hypotheses of the statement `Obligations.<Name>`, at boundary values where it has several
clauses. -/

namespace Sys2Proof.Tests

open Sys2Proof.Machine

-- One theorem after another: many kernel evaluations at once each take a thread's stack.
set_option Elab.async false

/-! ## Helpers -/

/-- The next state of an outcome. -/
def nextOf (o : Host.Outcome State Fault Refusal) : Option State :=
  match o with
  | .next s => some s
  | .fault _ => none
  | .refused _ => none

theorem nextOf_some {o : Host.Outcome State Fault Refusal} {s : State} (h : nextOf o = some s) : o = .next s := by
  cases o <;> simp_all [nextOf]

/-- One value of the state after one command word. -/
def after {α : Type} (s : State) (w : Half) (f : State → α) : Option α := (nextOf (step (s.withCommands [w]))).map f

/-- One value of the state after one step taken at `s`. -/
def thenRead {α : Type} (s : State) (f : State → α) : Option α := (nextOf (step s)).map f

/-- `RESP` and `OPST` after one command word. -/
def respAfter (s : State) (w : Half) : Option (Half × OpStatus) := after s w fun t => (t.host.resp, t.host.opst)

/-- The request frame Q of section 2.5. -/
def frameQ : List Byte := [0x55#8, 0x02#8, 0x00#8, 0x00#8, 0xD0#8, 0x00#8, 0xAA#8]

/-- The good reply G of section 2.5. -/
def frameG : List Byte := [0x55#8, 0x02#8, 0x02#8, 0x00#8, 0x12#8, 0x34#8, 0x51#8, 0x0F#8, 0xAA#8]

/-- Reset, configured as section 1.7 says (2 attempts, timeout 3, poll interval 1) with the request `02`. -/
def ready : State :=
  { State.reset with
    req := { State.reset.req with cmd := 0x02#8 }
    cfg := { maxAttempts := 2#8, timeout := 3#16, pollInterval := 1#16 } }

/-- The state TXN.START leaves from there (the example of R95). -/
def waiting : State :=
  { ready with
    txn := { ready.txn with phase := .wait, attemptsLeft := 1#8, attemptCnt := 1#8, deadlineCnt := 3#16 }
    txw := frameQ }

/-- The first attempt failed and the pacing delay is over (the example of R100). -/
def paced : State :=
  { waiting with txn := { waiting.txn with phase := .pace, lastFail := .timeout, deadlineCnt := 0#16 } }

/-- The first attempt's last byte waits at an open poll point (the example of R98). -/
def lastByte : State :=
  { waiting with
    dec := { waiting.dec with
      state := .awaitingEnd, lidx := 2, cmd := 0x02#8, crcRun := 0x00D0#16, crcRx := 0x00D0#16 }
    rxq := [0xAA#8] }

/-- A latch holding `12 34` (H-6). -/
def latched : State :=
  { State.reset with
    frm := { valid := true, cmd := 0x02#8, len := 2#16, crc := 0x0F51#16, buf := [(0, 0x12#8), (1, 0x34#8)] } }

theorem inv_waiting : Inv waiting := by
  constructor <;> first | rfl | decide | exact trivial | exact ⟨rfl, by decide, rfl, by decide, by decide⟩

theorem inv_paced : Inv paced := by
  constructor <;> first
    | rfl
    | decide
    | exact trivial
    | exact ⟨rfl, by decide, by decide, rfl, by decide, by decide⟩

theorem inv_lastByte : Inv lastByte := by
  constructor <;> first
    | rfl
    | decide
    | exact ⟨rfl, rfl, by decide +kernel⟩
    | exact ⟨rfl, by decide, rfl, by decide, by decide⟩

/-! ## Well-formed instructions -/

/-- The one check: a selector that no table assigns (30_encoding.md R54). -/
theorem test_unassigned_selector_refused : Instr.wellFormed (.rd 0x05#8) = false := by decide
theorem test_assigned_selectors_accepted :
    ([0x00#8, 0x04#8, 0x08#8, 0x14#8, 0x18#8, 0x25#8, 0x28#8, 0x2A#8].all fun sel => Instr.wellFormed (.rd sel)) = true := by
  decide
theorem test_selector_gaps_refused :
    ([0x05#8, 0x07#8, 0x15#8, 0x17#8, 0x26#8, 0x27#8, 0x2B#8, 0xFF#8].all fun sel => !Instr.wellFormed (.rd sel)) = true := by
  decide

/-! ## Decoding: every command's word, written out from 30_encoding.md R53 -/

theorem test_decode_nop : decode 0x0000#16 = .ok .nop := by decide
theorem test_decode_crcInit : decode 0x0100#16 = .ok .crcInit := by decide
theorem test_decode_crcByte : decode 0x02FF#16 = .ok (.crcByte 0xFF#8) := by decide
theorem test_decode_reqClear : decode 0x1000#16 = .ok .reqClear := by decide
theorem test_decode_reqCmd : decode 0x1102#16 = .ok (.reqCmd 0x02#8) := by decide
theorem test_decode_reqPush : decode 0x1280#16 = .ok (.reqPush 0x80#8) := by decide
theorem test_decode_encSend : decode 0x1300#16 = .ok .encSend := by decide
theorem test_decode_decReset : decode 0x2000#16 = .ok .decReset := by decide
theorem test_decode_decFeed : decode 0x2155#16 = .ok (.decFeed 0x55#8) := by decide
theorem test_decode_idxLo : decode 0x3005#16 = .ok (.idxLo 0x05#8) := by decide
theorem test_decode_idxHi : decode 0x3101#16 = .ok (.idxHi 0x01#8) := by decide
theorem test_decode_rd : decode 0x3201#16 = .ok (.rd 0x01#8) := by decide
theorem test_decode_cfgAtt : decode 0x4003#16 = .ok (.cfgAtt 0x03#8) := by decide
theorem test_decode_cfgTmol : decode 0x4103#16 = .ok (.cfgTmol 0x03#8) := by decide
theorem test_decode_cfgTmoh : decode 0x42F0#16 = .ok (.cfgTmoh 0xF0#8) := by decide
theorem test_decode_cfgPolll : decode 0x4301#16 = .ok (.cfgPolll 0x01#8) := by decide
theorem test_decode_cfgPollh : decode 0x4481#16 = .ok (.cfgPollh 0x81#8) := by decide
theorem test_decode_txnStart : decode 0x4800#16 = .ok .txnStart := by decide
theorem test_decode_rejects :
    decode 0x0101#16 = .error (.immNotZero 0x01#8 0x01#8) ∧ decode 0x4801#16 = .error (.immNotZero 0x48#8 0x01#8) ∧
      decode 0x0300#16 = .error (.reservedOp 0x03#8) ∧ decode 0xFF00#16 = .error (.reservedOp 0xFF#8) := by decide
theorem test_table_word :
    decodeTableWord 16 0x4003 = some (.cfgAtt 0x03#8) ∧ decodeTableWord 16 0x0300 = none := by decide

/-- The assembler line (30_encoding.md R56, R57). -/
theorem test_assemble_lines :
    assembleLine "RD CRC_ACC ; the accumulator" = some [0x3201#16] ∧ assembleLine "CFG.TIMEOUT 3" = some [0x4103#16, 0x4200#16]
      ∧ assembleLine "REQ.LOAD 0x02, 0x12" = some [0x1000#16, 0x1102#16, 0x1212#16] ∧ assembleLine "" = some []
      ∧ assembleLine "NOP 1" = none := by decide +kernel

/-- `RD STATUS` is how OPST is read; OPST and RESP have no selector of their own (10_state.md R23, log 14). -/
theorem test_assemble_selector_names :
    assembleLine "RD STATUS" = some [0x3200#16] ∧ assembleLine "RD OPST" = none ∧ assembleLine "RD RESP" = none := by
  decide +kernel

/-- A 16-bit operand in hexadecimal digits of either case, one too large, and a word as four digits (R56, log 14). -/
theorem test_assemble_numbers :
    assembleLine "IDX 0x01fF" = some [0x30FF#16, 0x3101#16] ∧ assembleLine "CFG.POLL 65536" = none ∧
      assembleLine "CFG.ATT 0x1G" = none ∧ fourHexDigits 0x3A09#16 = ['3', 'A', '0', '9'] := by decide +kernel

/-! ## The CRC engine (95_test_vectors.md 2.1) -/

theorem test_crc16_check_value :
    crc16 [0x31#8, 0x32#8, 0x33#8, 0x34#8, 0x35#8, 0x36#8, 0x37#8, 0x38#8, 0x39#8] = 0x4B37#16 := by decide +kernel
theorem test_crc16_of_request_body : crc16 [0x02#8, 0x00#8, 0x00#8] = 0x00D0#16 := by decide +kernel
theorem test_crcInit_from_any_value :
    after { State.reset with crcAcc := 0x1234#16 } 0x0100#16 (·.crcAcc) = some 0xFFFF#16 := by decide
theorem test_crcInit_immediate_is_illegal :
    after { State.reset with crcAcc := 0x1234#16 } 0x0101#16 (fun t => (t.crcAcc, t.host.opst))
      = some (0x1234#16, .illegal) := by decide
theorem test_crcByte_steps : after State.reset 0x0202#16 (·.crcAcc) = some 0x813E#16 := by decide +kernel
theorem test_crcByte_in_wait : after waiting 0x0277#16 (·.host.opst) = some .ok := by decide +kernel
theorem test_computeCrc_range :
    computeCrc frameQ 1 3 = some 0x00D0#16 ∧ computeCrc frameQ 1 0 = some 0xFFFF#16 ∧ computeCrc frameQ 4 7 = none := by
  decide +kernel

/-! ## The encoder (2.2) -/

theorem test_encode_frame :
    encodeFrame 0x02#8 [0x12#8, 0x34#8] = [0x55#8, 0x02#8, 0x02#8, 0x00#8, 0x12#8, 0x34#8, 0x51#8, 0x0F#8, 0xAA#8] := by
  decide +kernel
theorem test_reqClear_keeps_command :
    after { ready with req := { ready.req with len := 3#16 } } 0x1000#16 (fun t => (t.req.len, t.req.cmd))
      = some (0#16, 0x02#8) := by decide
theorem test_reqCmd : after State.reset 0x1102#16 (·.req.cmd) = some 0x02#8 := by decide
theorem test_reqPush_appends :
    after State.reset 0x1212#16 (fun t => (t.req.buf.bytes 1, t.req.len)) = some ([0x12#8], 1#16) := by decide
theorem test_reqPush_full_and_busy :
    after { State.reset with req := { State.reset.req with len := 16#16 } } 0x1212#16 (fun t => (t.req.len, t.host.opst))
        = some (16#16, .full) ∧
      after { waiting with req := { waiting.req with len := 16#16 } } 0x1212#16 (·.host.opst) = some .busy := by decide
theorem test_encSend_appends_frame : after { ready with txw := [0x99#8] } 0x1300#16 (·.txw) = some (0x99#8 :: frameQ) := by
  decide +kernel
theorem test_encSend_busy : after waiting 0x1300#16 (fun t => (t.txw, t.host.opst)) = some (frameQ, .busy) := by decide

/-! ## The decoder (1.8, 2.3) -/

theorem test_decReset_example :
    after { State.reset with dec := { State.reset.dec with state := .awaitingData, len := 2#16, pcount := 1#16 } } 0x2000#16
      (fun t => (t.dec.state, t.dec.pcount, t.dec.crcRun)) = some (.awaitingStart, 0#16, 0xFFFF#16) := by decide
theorem test_decFeed_status_ok_on_error :
    after { lastByte with txn := State.reset.txn } 0x2155#16 (fun t => (t.dec.result, t.host.opst, t.frm.valid))
      = some (.missingTerminator, .ok, false) := by decide
theorem test_decFeed_frame :
    after { lastByte with txn := State.reset.txn } 0x21AA#16 (fun t => (t.dec.result, t.frm.cmd, t.frm.crc))
      = some (.frame, 0x02#8, 0x00D0#16) := by decide

/-- D-9: noise that holds a start marker. -/
theorem test_decode_spurious_start :
    (feedAll 16#16 (0x55#8 :: frameQ) State.reset.dec State.reset.frm).toOption.map
        (fun r => (r.1, r.2.1.state, r.2.1.cmd, r.2.1.crcRun, r.2.1.crcRx))
      = some (List.replicate 8 .incomplete, .awaitingEnd, 0x55#8, 0x2828#16, 0xAA00#16) := by decide +kernel

/-- The results, the working registers and the latch after a row of bytes fed from reset. -/
def decoded (cap : Half) (bs : List Byte) : Option (List DecResult × DecRegs × FrameLatch) :=
  (feedAll cap bs State.reset.dec State.reset.frm).toOption

/-- D-1. -/
theorem test_decode_good_frame :
    (decoded 16#16 frameG).map (fun r => (r.1, r.2.2.cmd, r.2.2.len, r.2.2.buf.bytes 2, r.2.2.crc))
      = some (List.replicate 8 .incomplete ++ [.frame], 0x02#8, 2#16, [0x12#8, 0x34#8], 0x0F51#16) := by decide +kernel

/-- D-10: a capacity of zero. -/
theorem test_decode_capacity_zero :
    (decoded 0#16 [0x55#8, 0x02#8, 0x01#8, 0x00#8, 0x07#8, 0x11#8]).map
        (fun r => (r.1.getLast?, r.2.1.state, r.2.1.crcRun)) = some (some .overflow, .awaitingStart, 0x90D1#16) := by
  decide +kernel

/-! ## Readback (2.4) -/

theorem test_nop_clears_status :
    after { State.reset with host := { State.reset.host with opst := .busy } } 0x0000#16 (·.host.opst) = some .ok := by decide
theorem test_idxLo_example :
    after { State.reset with host := { State.reset.host with idx := 0x0100#16 } } 0x3005#16 (·.host.idx) = some 0x0105#16 := by
  decide
theorem test_idxHi_example :
    after { State.reset with host := { State.reset.host with idx := 0x0005#16 } } 0x3101#16 (·.host.idx) = some 0x0105#16 := by
  decide
/-- H-6 and H-7. -/
theorem test_rd_frame_byte_and_range :
    respAfter { latched with host := { idx := 1#16, resp := 0x7777#16, opst := .ok } } 0x3213#16
        = some (0x0034#16, .ok) ∧
      respAfter { latched with host := { idx := 2#16, resp := 0x7777#16, opst := .ok } } 0x3213#16
        = some (0x7777#16, .range) := by decide
/-- H-10: phase DONE, result OK, latch valid. -/
theorem test_rd_status_after_ok :
    respAfter { latched with txn := { latched.txn with phase := .done, result := .ok } } 0x3200#16
      = some (0x0078#16, .ok) := by decide
/-- H-15. -/
theorem test_rd_rx_available : respAfter { State.reset with rxq := frameG } 0x3224#16 = some (0x0009#16, .ok) := by decide
/-- H-9 and the row `0x3205` in WAIT. -/
theorem test_rd_unassigned : respAfter waiting 0x3205#16 = some (0x0000#16, .illegal) := by decide

/-! ## The sequencer (2.5 and the examples of 43_sequencer.md) -/

theorem test_cfgAtt : after State.reset 0x4003#16 (·.cfg.maxAttempts) = some 3#8 := by decide
theorem test_cfgTmol_keeps_high_half :
    after { State.reset with cfg := { ready.cfg with timeout := 0x1234#16 } } 0x4103#16 (·.cfg.timeout) = some 0x1203#16 := by
  decide
theorem test_cfgTmoh_keeps_low_half :
    after { State.reset with cfg := { ready.cfg with timeout := 0x1234#16 } } 0x4203#16 (·.cfg.timeout) = some 0x0334#16 := by
  decide
theorem test_cfgPolll : after State.reset 0x4301#16 (·.cfg.pollInterval) = some 0x0001#16 := by decide
theorem test_cfgPollh : after State.reset 0x4401#16 (·.cfg.pollInterval) = some 0x0100#16 := by decide
theorem test_cfg_busy : after waiting 0x4003#16 (fun t => (t.cfg.maxAttempts, t.host.opst)) = some (2#8, .busy) := by decide
theorem test_txnStart_example : after ready 0x4800#16 id = some waiting := by decide +kernel
theorem test_txnStart_illegal_before_busy : after waiting 0x4801#16 (·.host.opst) = some .illegal := by decide

theorem test_feed_accepts_reply :
    thenRead lastByte (fun t => (t.rxq, t.txn.phase, t.txn.result)) = some ([], .done, .ok) := by decide +kernel
theorem test_feed_mismatch_fails_attempt :
    thenRead { lastByte with req := { lastByte.req with cmd := 0x03#8 } }
      (fun t => (t.txn.phase, t.txn.lastFail, t.txn.paceCnt, t.frm.valid)) = some (.pace, .mismatch, 1#16, true) := by
  decide +kernel
theorem test_close_reopens :
    thenRead { waiting with txn := { waiting.txn with deadlineCnt := 2#16 } } (·.txn.pollCnt) = some 1#16 := by decide
theorem test_close_times_out :
    thenRead { waiting with txn := { waiting.txn with deadlineCnt := 0#16 } } (fun t => (t.txn.phase, t.txn.lastFail))
      = some (.pace, .timeout) := by decide
theorem test_resend_example :
    thenRead paced (fun t => (t.txw, t.txn.phase, t.txn.attemptsLeft, t.txn.attemptCnt))
      = some (frameQ ++ frameQ, .wait, 0#8, 2#8) := by decide +kernel
theorem test_tick_example :
    thenRead { waiting with txn := { waiting.txn with pollCnt := 1#16 } } (fun t => (t.txn.deadlineCnt, t.txn.pollCnt))
      = some (2#16, 0#16) := by decide
theorem test_disabled_event_faults :
    thenRead { waiting with schedule := [.resend] } id = none ∧ thenRead { waiting with schedule := [.tick] } id = none := by
  decide
theorem test_withFetchWord_runs_the_word :
    thenRead (State.reset.withFetchWord 16 0x4003) (·.cfg.maxAttempts) = some 3#8 := by decide

/-! ## Witnesses: values that meet the hypotheses of each statement -/

theorem witness_EncodeOfDecode : decode 0x32FF#16 = .ok (.rd 0xFF#8) := by decide
/-- One word at each edge of each illegal range, and a legal neighbour that completes. -/
theorem witness_IllegalWords :
    ([0x0300#16, 0x0FFF#16, 0x1400#16, 0x1FFF#16, 0x2200#16, 0x2FFF#16, 0x3300#16, 0x3FFF#16, 0x4500#16, 0x47FF#16,
        0x4900#16, 0xFFFF#16, 0x0001#16, 0x0101#16, 0x1001#16, 0x1301#16, 0x2001#16, 0x48FF#16, 0x3205#16, 0x3207#16,
        0x3215#16, 0x3217#16, 0x3226#16, 0x3227#16, 0x322B#16, 0x32FF#16].all
      fun w => decide (after waiting w (·.host.opst) = some .illegal)) = true ∧
    after waiting 0x02FF#16 (·.host.opst) = some .ok ∧ after waiting 0x4800#16 (·.host.opst) = some .busy := by
  decide +kernel
theorem witness_StepRunsDecodedCommand :
    { waiting with schedule := [.cmd 0x0000#16, .tick] }.schedule = .cmd 0x0000#16 :: [.tick] ∧
      decode 0x0000#16 = .ok .nop := ⟨rfl, by decide⟩
theorem witness_BlockEventsExcludeEachOther : paced.schedule = [] ∧ paced.nextEvent = .resend := by decide
theorem witness_SingleBitErrorChangesCrc : 0 < 8 ∧ 7 < 8 := by decide
/-- A range of one byte; then the empty range's neighbours and the ends of a list of two bytes, outside it. -/
theorem witness_ComputeCrcOverRange :
    [0x02#8] ≠ [] ∧ ((-2 : Int) ≠ 0 - 1 ∧ (-2 : Int) < 0) ∧ ((0 : Int) ≠ -1 - 1 ∧ (-1 : Int) < 0) ∧
      ((2 : Int) ≠ 1 - 1 ∧ (([0x02#8, 0x03#8] : List Byte).length : Int) ≤ 2) := by decide
theorem witness_CrcAccumulatorWriters :
    after ready 0x0201#16 (fun t => decide (t.crcAcc = ready.crcAcc)) = some false ∧
      after ready 0x0100#16 (·.crcAcc) = some 0xFFFF#16 ∧
      thenRead { ready with crcAcc := 1#16, schedule := [.reset] } (·.crcAcc) = some 0xFFFF#16 := by decide +kernel
/-- The empty payload and the longest. -/
theorem witness_FrameLayout :
    ([] : List Byte).length ≤ 65535 ∧ (List.replicate 65535 0x00#8).length ≤ 65535 :=
  ⟨by decide, by rw [List.length_replicate]⟩
theorem witness_RequestRegisterCommands : ready.free ∧ waiting.inTransaction ∧ paced.inTransaction :=
  ⟨.inl rfl, .inl rfl, .inr rfl⟩
/-- Full at the capacity; one byte of room below it. -/
theorem witness_ReqPushCommand :
    (ready.free ∧ { ready.req with len := 16#16 }.len = ready.params.txCap) ∧ waiting.inTransaction ∧
      15#16 < ready.params.txCap ∧ ready.req.buf.wf = true := ⟨⟨.inl rfl, rfl⟩, .inl rfl, by decide, rfl⟩
theorem witness_EncSendCommand : ready.free ∧ 16#16 ≤ ready.params.txCap ∧ waiting.inTransaction :=
  ⟨.inl rfl, by decide, .inl rfl⟩
theorem witness_DecResetCommand : ready.free ∧ waiting.inTransaction := ⟨.inl rfl, .inl rfl⟩
/-- AwaitingData at the capacity, and AwaitingEnd with a payload that fills it. -/
theorem witness_DecFeedCommand :
    ready.free ∧ waiting.inTransaction ∧
      ({ ready.dec with state := .awaitingData, pcount := 16#16 }.state = .awaitingData ∧ 16#16 ≤ ready.params.rxCap) ∧
      { ready.dec with state := .awaitingEnd, len := 16#16 }.state = .awaitingEnd :=
  ⟨.inl rfl, .inl rfl, ⟨rfl, by decide⟩, rfl⟩
theorem witness_DecoderStartAndCommandRows :
    ready.dec.state = .awaitingStart ∧ 0xAA#8 ≠ 0x55#8 ∧
      { ready.dec with state := .awaitingCommand }.state = .awaitingCommand := ⟨rfl, by decide, rfl⟩
/-- The low byte; then the high byte after a low byte of `0xFF`, with length zero and not. -/
theorem witness_DecoderLengthRow :
    { ready.dec with state := .awaitingLength }.lidx = 0 ∧
      ({ ready.dec with state := .awaitingLength, lidx := 1, len := 0x00FF#16 }.lidx = 1 ∧
        (0x00FF#16 : Half) = BitVec.ofNat 16 (0xFF#8 : Byte).toNat) ∧
      (0x0000#16 : Half) = BitVec.ofNat 16 (0x00#8 : Byte).toNat := by decide
theorem witness_DecoderDataRow :
    { ready.dec with state := .awaitingData, pcount := 4#16 }.pcount = 4#16 ∧
      ({ ready.dec with state := .awaitingData, pcount := 3#16 }.pcount < 4#16 ∧ ready.dec.buf.wf = true) := by decide
theorem witness_DecoderCrcRows :
    DecRegs.consistent 16#16 { lastByte.dec with state := .awaitingCrcHigh, crcRx := 0x00D0#16 } ∧
    { ready.dec with state := .awaitingCrcLow }.state = .awaitingCrcLow ∧
      ({ ready.dec with state := .awaitingCrcHigh, crcRx := 0x0051#16 }.state = .awaitingCrcHigh ∧
        (0x0051#16 : Half) = BitVec.ofNat 16 (0x51#8 : Byte).toNat) :=
  ⟨⟨⟨rfl, rfl, by decide +kernel⟩, rfl⟩, by decide, by decide, by decide⟩
theorem witness_DecoderEndRow :
    lastByte.dec.state = .awaitingEnd ∧ 0x55#8 ≠ 0xAA#8 ∧ { lastByte.dec with crcRun := 0x9F50#16 }.crcRx ≠ 0x9F50#16 ∧
      (lastByte.dec.crcRx = lastByte.dec.crcRun ∧ lastByte.dec.len ≤ 0#16 ∧ lastByte.frm.buf.wf = true) := by decide
theorem witness_DecoderOverflowRow : { ready.dec with state := .overflow }.state = .overflow := by decide
/-- A payload that fills the capacity. -/
theorem witness_FrameRoundTrip :
    [0x55#8, 0xAA#8].length ≤ (2#16 : Half).toNat ∧ ready.dec.state = .awaitingStart ∧ ready.dec.buf.wf = true ∧
      latched.frm.buf.wf = true := by decide
theorem witness_ResyncAfterNoise :
    (∀ b ∈ [0x54#8, 0x56#8, 0xAA#8], b ≠ 0x55#8) ∧ [0x12#8].length ≤ (1#16 : Half).toNat ∧
      ready.dec.state = .awaitingStart ∧ ready.dec.buf.wf = true ∧ latched.frm.buf.wf = true ∧
      (decStep 16#16 0x55#8 lastByte.dec lastByte.frm).toOption.map (·.1.result) = some .missingTerminator := by decide
/-- One byte over a capacity of zero, and of two. -/
theorem witness_OversizedFrameOverflows :
    ((0#16 : Half).toNat < [0x07#8].length ∧ [0x07#8].length ≤ 65535) ∧
      ((2#16 : Half).toNat < [0x07#8, 0x08#8, 0x09#8].length ∧ ready.dec.state = .awaitingStart) ∧
      ∀ b ∈ (encodeFrame 0x02#8 [0x07#8]).drop (6 + (0#16 : Half).toNat), b ≠ 0x55#8 := by decide +kernel
/-- The first and last offset of each clause, for a payload of two bytes that fills the capacity. -/
theorem witness_SingleBitFlipOutcomes :
    [0x12#8, 0x34#8].length ≤ (2#16 : Half).toNat ∧ ready.dec.state = .awaitingStart ∧ ready.dec.buf.wf = true ∧ 7 < 8 ∧
      (encodeFrame 0x02#8 [0x12#8, 0x34#8])[0]? = some 0x55#8 ∧
      (encodeFrame 0x02#8 [0x12#8, 0x34#8])[1]? = some 0x02#8 ∧
      (encodeFrame 0x02#8 [0x12#8, 0x34#8])[4]? = some 0x12#8 ∧
      (encodeFrame 0x02#8 [0x12#8, 0x34#8])[7]? = some 0x0F#8 ∧
      (encodeFrame 0x02#8 [0x12#8, 0x34#8])[8]? = some 0xAA#8 := by decide +kernel
/-- A length at the capacity of two, one above it, and zero. -/
theorem witness_FrameEndsInBoundedBytes :
    { ready.dec with state := .awaitingCommand }.lidx = 0 ∧ { ready.dec with state := .awaitingCommand }.pcount = 0#16 ∧
      3 + (List.replicate 5 0x00#8).length = (if 2 ≤ (2#16 : Half).toNat then 2 + 6 else (2#16 : Half).toNat + 5) ∧
      3 + (List.replicate 4 0x00#8).length = (if 3 ≤ (2#16 : Half).toNat then 3 + 6 else (2#16 : Half).toNat + 5) ∧
      3 + (List.replicate 3 0x00#8).length = (if 0 ≤ (2#16 : Half).toNat then 0 + 6 else (2#16 : Half).toNat + 5) := by
  decide
theorem witness_RdReadsValues : assignedSelector 0x05#8 = false ∧ assignedSelector 0x2B#8 = false := by decide
/-- An index one below the length and at it, for each buffer's selector, with a length at the capacity. -/
theorem witness_RdReadsBuffers :
    (0x04#8 = 0x04#8 ∧ 15#16 < 16#16 ∧ (16#16 : Half) ≤ ready.params.txCap ∧ (16#16 : Half) ≤ 16#16) ∧
      (0x0F#8 = 0x0F#8 ∧ (16#16 : Half) ≤ ready.params.rxCap) ∧
      (0x13#8 = 0x13#8 ∧ latched.frm.len ≤ latched.params.rxCap ∧ 1#16 < latched.frm.len) := by decide
theorem witness_ConfigurationCommands : ready.free ∧ waiting.inTransaction := ⟨.inl rfl, .inl rfl⟩
/-- No attempt; one or more; while a transaction runs; a request that fills the buffer. -/
theorem witness_TxnStartCommand :
    (State.reset.free ∧ State.reset.cfg.maxAttempts = 0#8) ∧
      (ready.free ∧ ready.cfg.maxAttempts ≠ 0#8 ∧ ready.req.len ≤ ready.params.txCap) ∧ waiting.inTransaction :=
  ⟨⟨.inl rfl, rfl⟩, ⟨.inl rfl, by decide, by decide⟩, .inl rfl⟩
theorem witness_BusyOperationsRefused :
    waiting.inTransaction ∧ busyOperation .txnStart = true ∧ busyOperation (.rd 0x00#8) = false ∧
      ∃ t, exec (.rd 0x00#8) waiting = .next t := ⟨.inl rfl, rfl, rfl, _, rfl⟩
theorem witness_TransactionOwnsItsState :
    { waiting with schedule := [.cmd 0x1000#16] }.inTransaction ∧
      { waiting with schedule := [.cmd 0x1000#16] }.nextEvent = .cmd 0x1000#16 ∧
      ∃ t, step { waiting with schedule := [.cmd 0x1000#16] } = .next t := ⟨.inl rfl, rfl, _, rfl⟩
/-- A FEED that ends an attempt with a frame; the hypotheses of the other outcomes differ in the byte only. -/
theorem witness_FeedConsumesOneByte :
    { lastByte with schedule := [.feed] }.schedule = [.feed] ∧ lastByte.txn.phase = .wait ∧ lastByte.txn.pollCnt = 0#16 ∧
      lastByte.rxq = 0xAA#8 :: [] ∧
      (∃ d f, decStep lastByte.params.rxCap 0xAA#8 lastByte.dec lastByte.frm = .ok (d, f) ∧ d.result = .frame) ∧
      (∃ d f, decStep lastByte.params.rxCap 0xAB#8 lastByte.dec lastByte.frm = .ok (d, f) ∧
        d.result = .missingTerminator) ∧
      ∃ d f, decStep lastByte.params.rxCap 0xAA#8 waiting.dec waiting.frm = .ok (d, f) ∧ d.result = .incomplete :=
  ⟨rfl, rfl, rfl, rfl, ⟨_, _, rfl, rfl⟩, ⟨_, _, rfl, rfl⟩, ⟨_, _, rfl, rfl⟩⟩
/-- A deadline not passed, and one just passed with no poll interval. -/
theorem witness_CloseEndsPollPoint :
    Event.close.enabled { waiting with schedule := [.close] } = true ∧
      Event.close.enabled { waiting with
        schedule := [.close], txn := { waiting.txn with deadlineCnt := 0#16 },
        cfg := { waiting.cfg with pollInterval := 0#16 } } = true := by decide
theorem witness_ResendStartsNextAttempt :
    Event.resend.enabled { paced with schedule := [.resend] } = true ∧ paced.req.len ≤ paced.params.txCap := by decide
/-- A counter at 1 and at 0 in WAIT, and PACE, and no transaction. -/
theorem witness_TickAndReceive :
    Event.tick.enabled { waiting with schedule := [.tick], txn := { waiting.txn with pollCnt := 1#16, deadlineCnt := 0#16 } }
        = true ∧
      Event.tick.enabled { paced with schedule := [.tick], txn := { paced.txn with paceCnt := 1#16 } } = true ∧
      Event.tick.enabled { ready with schedule := [.tick] } = true ∧ ready.txn.phase = .idle ∧
      { ready with schedule := [.rx 0x55#8] }.schedule = [.rx 0x55#8] := by decide
theorem witness_ResetSetsEveryRegister : { lastByte with schedule := [.reset] }.schedule = [.reset] := rfl
/-- An end with OK, and one with NOREPLY. -/
theorem witness_EndOfTransaction :
    (Inv lastByte ∧ lastByte.inTransaction ∧ ∃ t, step lastByte = .next t ∧ t.txn.phase = .done) ∧
      ∃ t, step { waiting with txn := { waiting.txn with deadlineCnt := 0#16, attemptsLeft := 0#8, attemptCnt := 2#8 } }
        = .next t ∧ t.txn.phase = .done :=
  ⟨⟨inv_lastByte, .inl rfl, _, rfl, rfl⟩, _, rfl, rfl⟩
theorem witness_SilentLineEndsWithNoReply :
    ready.free ∧ ready.rxq = [] ∧ ready.schedule = [] ∧ ready.cfg.maxAttempts ≠ 0#8 ∧ ready.req.len ≤ ready.params.txCap :=
  ⟨.inl rfl, rfl, rfl, by decide, by decide⟩

/-- Section 1.7: 7 ticks for 2 attempts of 3 ticks and one pacing delay. -/
theorem test_transaction_ticks : transactionTicks ready = 7 ∧ attemptTicks 3#16 2#16 = 4 ∧ attemptTicks 3#16 0#16 = 3 := by
  decide

/-- One step more of a run that stays in a transaction. -/
theorem run_step {P : State → Prop} {s t u : State} {n m : Nat} (h : RunThrough P s n t) (ht : step t = .next u)
    (hu : P u) (hm : m = n + t.tickCost) : RunThrough P s m u := hm ▸ .snoc h ht hu

/-- `waiting` with the counters of its attempt at other values. -/
def waitingAt (timeout deadline poll : Half) : State :=
  { waiting with
    cfg := { waiting.cfg with timeout := timeout }
    txn := { waiting.txn with deadlineCnt := deadline, pollCnt := poll } }

/-- The run of CLOSE and TICK from the state TXN.START leaves: one tick passes. -/
theorem witness_TransactionTickBound :
    ready.free ∧ step (ready.withCommands [0x4800#16]) = .next waiting ∧
      RunThrough State.inTransaction waiting 1 (waitingAt 3#16 2#16 0#16) := by
  have r1 : RunThrough State.inTransaction waiting 0 (waitingAt 3#16 3#16 1#16) :=
    run_step (.here (.inl rfl)) rfl (.inl rfl) rfl
  exact ⟨.inl rfl, nextOf_some (by decide +kernel), run_step r1 rfl (.inl rfl) rfl⟩

/-- With a timeout and a poll interval of 1: CLOSE, TICK, and the CLOSE that ends the attempt. -/
theorem witness_AttemptTimeoutTicks :
    (waitingAt 1#16 1#16 0#16).txn.phase = .wait ∧ (waitingAt 1#16 1#16 0#16).txn.pollCnt = 0#16 ∧
      (waitingAt 1#16 1#16 0#16).txn.deadlineCnt = (waitingAt 1#16 1#16 0#16).cfg.timeout ∧
      RunThrough (fun s => s.txn.phase = .wait) (waitingAt 1#16 1#16 0#16) 1 (waitingAt 1#16 0#16 0#16) ∧
      (waitingAt 1#16 0#16 0#16).nextEvent = .close ∧
      ∃ v, step (waitingAt 1#16 0#16 0#16) = .next v ∧ v.txn.phase ≠ .wait := by
  have r1 : RunThrough (fun s => s.txn.phase = .wait) (waitingAt 1#16 1#16 0#16) 0 (waitingAt 1#16 1#16 1#16) :=
    run_step (.here rfl) rfl rfl rfl
  exact ⟨rfl, rfl, rfl, run_step r1 rfl rfl rfl, rfl, _, rfl, by decide⟩
theorem witness_TransactionReachesDone : Inv paced ∧ paced.inTransaction ∧ paced.schedule = [] := ⟨inv_paced, .inr rfl, rfl⟩

/-- A whole reply waits in `RXQ`, with one byte after it. -/
def replied : State := { waiting with rxq := encodeFrame 0x02#8 [0x12#8, 0x34#8] ++ [0x55#8] }

theorem inv_replied : Inv replied := by
  constructor <;> first | rfl | decide | exact trivial | exact ⟨rfl, by decide, rfl, by decide, by decide⟩

theorem witness_GoodReplyIsAccepted :
    Inv replied ∧ replied.txn.phase = .wait ∧ replied.txn.pollCnt = 0#16 ∧ replied.dec.state = .awaitingStart ∧
      replied.schedule = [] ∧ [0x12#8, 0x34#8].length ≤ replied.params.rxCap.toNat ∧
      replied.rxq = encodeFrame (replyCmd replied.params replied.req.cmd) [0x12#8, 0x34#8] ++ [0x55#8] :=
  ⟨inv_replied, rfl, rfl, rfl, rfl, by decide, rfl⟩
/-- A run that resends once. -/
theorem witness_AttemptsSendTheSameFrame :
    Inv paced ∧ ∃ t, RunThrough State.inTransaction paced (0 + 0) t ∧ t.txn.attemptCnt = 2#8 :=
  ⟨inv_paced, _, .snoc (.here (Or.inr rfl)) rfl (Or.inl rfl), rfl⟩
theorem witness_StatusWriters :
    (∃ t, step (waiting.withCommands [0x1000#16]) = .next t ∧ t.host.opst ≠ .ok) ∧
      ((∃ t, step waiting = .next t) ∧ (∀ w, waiting.nextEvent ≠ .cmd w) ∧ waiting.nextEvent ≠ .reset) :=
  ⟨⟨_, rfl, by decide⟩, ⟨_, rfl⟩, fun _ h => by simp [show waiting.nextEvent = .close from rfl] at h, by decide⟩
theorem witness_InvariantKept : Inv lastByte ∧ ∃ t, step lastByte = .next t := ⟨inv_lastByte, _, rfl⟩
/-- An enabled event and a disabled one. -/
theorem witness_EnabledEventsComplete :
    Inv paced ∧ paced.nextEvent.enabled paced = true ∧
      ({ paced with schedule := [.feed] } : State).nextEvent.enabled { paced with schedule := [.feed] } = false :=
  ⟨inv_paced, by decide, by decide⟩
theorem witness_TransmitWireGrowsByFrames : ∃ t, step paced = .next t ∧ t.txw ≠ paced.txw := ⟨_, rfl, by decide +kernel⟩
theorem witness_ReceiveQueueInOrder :
    (∃ t, step lastByte = .next t ∧ lastByte.nextEvent = .feed) ∧
      (∃ t, step { ready with schedule := [.rx 0x55#8] } = .next t) ∧ ∃ t, step ready = .next t :=
  ⟨⟨_, rfl, rfl⟩, ⟨_, rfl⟩, _, rfl⟩

/-- `lastByte` with another byte where no frame has put one. -/
def lastByte' : State := { lastByte with frm := { lastByte.frm with buf := [(3, 0x99#8)] } }

theorem inv_lastByte' : Inv lastByte' := by
  constructor <;> first
    | rfl
    | decide
    | exact ⟨rfl, rfl, by decide +kernel⟩
    | exact ⟨rfl, by decide, rfl, by decide, by decide⟩

theorem witness_UnwrittenBytesUnobservable :
    Inv lastByte ∧ Inv lastByte' ∧ lastByte ≠ lastByte' ∧ lastByte.observable = lastByte'.observable ∧
      ∃ t, step lastByte = .next t := ⟨inv_lastByte, inv_lastByte', by decide, by decide, _, rfl⟩
theorem witness_IdempotentCommands : notIdempotent (.rd 0x23#8) = false ∧ ∃ t, exec (.rd 0x23#8) ready = .next t :=
  ⟨rfl, _, rfl⟩
/-- Each clause: a FRAME outcome, TXN.START, RESET. -/
theorem witness_FrameLatchWriters :
    (∃ t, step lastByte = .next t ∧ lastByte.nextEvent = .feed ∧ t.frm ≠ lastByte.frm) ∧
      (∃ t, step (latched.withCommands [0x4800#16]) = .next t ∧ t.frm ≠ latched.frm) ∧
      ∃ t, step { latched with schedule := [.reset] } = .next t ∧ t.frm ≠ latched.frm :=
  ⟨⟨_, rfl, rfl, by decide⟩, ⟨_, rfl, by decide⟩, _, rfl, by decide⟩
/-- A request that fills the buffer, an empty one, and bytes the decoder takes. -/
theorem witness_PseudoInstructionsLoad :
    ready.free ∧ ready.req.buf.wf = true ∧ (List.replicate 16 0x01#8).length ≤ ready.params.txCap.toNat ∧
      ([] : List Byte).length ≤ ready.params.txCap.toNat ∧ [0x55#8] ≠ [] ∧
      ∃ rs d f, feedAll ready.params.rxCap [0x55#8] ready.dec ready.frm = .ok (rs, d, f) :=
  ⟨.inl rfl, rfl, by decide, by decide, by decide, _, _, _, rfl⟩

end Sys2Proof.Tests
end

section
/-! SUPPORT. What each host command and each event can do, said once: a command word is its command's only word, a
command that answers has turned back with a status or had its one effect, and the event operations leave every register
alone but the ones they name. -/

namespace Sys2Proof.Machine

/-! ## The word of a command -/

theorem formatZ_eq_ok {op imm : Byte} {i j : Instr} (h : formatZ op imm i = .ok j) : j = i ∧ imm = 0x00#8 := by
  unfold formatZ at h
  split at h
  · exact ⟨by injection h with h; exact h.symm, by assumption⟩
  · cases h

/-- The decoder reads the OP and the IMM of the command it answers (30_encoding.md R53). -/
theorem fields_of_decode {w : Half} {i : Instr} (h : decode w = .ok i) :
    opField w = i.opcode ∧ immField w = i.operand := by
  unfold decode at h
  dsimp only at h
  split at h
  case h_19 => cases h
  case h_1 | h_2 | h_4 | h_7 | h_8 | h_18 =>
    obtain ⟨rfl, himm⟩ := formatZ_eq_ok h
    exact ⟨by assumption, himm⟩
  all_goals
    cases h
    exact ⟨by assumption, rfl⟩

/-- A command's word is its OP byte followed by its IMM byte (30_encoding.md R51, R53). -/
theorem word_of_decode {w : Half} {i : Instr} (h : decode w = .ok i) : w = i.opcode ++ i.operand := by
  obtain ⟨hop, himm⟩ := fields_of_decode h
  rw [← fields_eq w, hop, himm]

/-! ## The effect of a command -/

/-- The state command `i` leaves when it completes, but for its `status(OK)` (30_encoding.md R53; the families' own
files give each rule). A busy operation has an effect only while no transaction runs (43_sequencer.md R91). -/
inductive CommandEffect : Instr → State → State → Prop
  | nop {s} : CommandEffect .nop s s
  | crcInit {s} : CommandEffect .crcInit s { s with crcAcc := 0xFFFF#16 }
  | crcByte {s b} : CommandEffect (.crcByte b) s { s with crcAcc := crcStep s.crcAcc b }
  | reqClear {s} (hfree : s.busy = false) : CommandEffect .reqClear s { s with req := { s.req with len := 0#16 } }
  | reqCmd {s c} (hfree : s.busy = false) : CommandEffect (.reqCmd c) s { s with req := { s.req with cmd := c } }
  | reqPush {s b} (hfree : s.busy = false) (hlen : s.req.len < s.params.txCap) :
      CommandEffect (.reqPush b) s
        { s with req := { s.req with buf := s.req.buf.write s.req.len.toNat b, len := s.req.len + 1#16 } }
  | encSend {s} (hfree : s.busy = false) (hlen : s.req.len ≤ s.params.txCap) :
      CommandEffect .encSend s (emit s.requestFrame s)
  | decReset {s} (hfree : s.busy = false) : CommandEffect .decReset s { s with dec := decReset s.dec }
  | decFeed {s b d f} (hfree : s.busy = false) (hstep : decStep s.params.rxCap b s.dec s.frm = .ok (d, f)) :
      CommandEffect (.decFeed b) s { s with dec := d, frm := f }
  | idxLo {s n} : CommandEffect (.idxLo n) s { s with host := { s.host with idx := setLo s.host.idx n } }
  | idxHi {s n} : CommandEffect (.idxHi n) s { s with host := { s.host with idx := setHi s.host.idx n } }
  | rd {s sel v} : CommandEffect (.rd sel) s (setResp v s)
  | cfgAtt {s n} (hfree : s.busy = false) :
      CommandEffect (.cfgAtt n) s { s with cfg := { s.cfg with maxAttempts := n } }
  | cfgTmol {s t} (hfree : s.busy = false) :
      CommandEffect (.cfgTmol t) s { s with cfg := { s.cfg with timeout := setLo s.cfg.timeout t } }
  | cfgTmoh {s t} (hfree : s.busy = false) :
      CommandEffect (.cfgTmoh t) s { s with cfg := { s.cfg with timeout := setHi s.cfg.timeout t } }
  | cfgPolll {s p} (hfree : s.busy = false) :
      CommandEffect (.cfgPolll p) s { s with cfg := { s.cfg with pollInterval := setLo s.cfg.pollInterval p } }
  | cfgPollh {s p} (hfree : s.busy = false) :
      CommandEffect (.cfgPollh p) s { s with cfg := { s.cfg with pollInterval := setHi s.cfg.pollInterval p } }
  | txnStart_noAttempt {s} (hfree : s.busy = false) (hmax : s.cfg.maxAttempts = 0#8) :
      CommandEffect .txnStart s
        { openTransaction s with txn := { (openTransaction s).txn with phase := .done, result := .noReply } }
  | txnStart_send {s u} (hfree : s.busy = false) (hmax : s.cfg.maxAttempts ≠ 0#8)
      (hsend : sendAttempt (openTransaction s) = .ok u) : CommandEffect .txnStart s u

/-- How a command ends (60_exceptions.md R114): turned back with another status and nothing else changed, or its effect
with status OK. -/
def CommandOutcome (i : Instr) (s t : State) : Prop :=
  (∃ c, c ≠ .ok ∧ t = setStatus c s) ∨ ∃ u, CommandEffect i s u ∧ t = setStatus .ok u

theorem CommandOutcome.of_status {i : Instr} {s t : State} {c : OpStatus} (hc : c ≠ .ok)
    (ht : t = setStatus c s) : CommandOutcome i s t := .inl ⟨c, hc, ht⟩

theorem CommandOutcome.of_finishOk {i : Instr} {s t : State} {r : Except Fault State} (h : finishOk r = .next t)
    (heffect : ∀ u, r = .ok u → CommandEffect i s u) : CommandOutcome i s t := by
  obtain ⟨u, hu, rfl⟩ := finishOk_eq_next h
  exact .inr ⟨u, heffect u hu, rfl⟩

theorem CommandOutcome.of_finishOk_ok {i : Instr} {s t u : State} (h : finishOk (.ok u) = .next t)
    (heffect : CommandEffect i s u) : CommandOutcome i s t :=
  .of_finishOk h fun _ hu => by cases hu; exact heffect

theorem CommandOutcome.of_unlessBusy {i : Instr} {s t : State} {r : Host.Outcome State Fault Refusal}
    (h : unlessBusy s r = .next t) (hrun : s.busy = false → r = .next t → CommandOutcome i s t) :
    CommandOutcome i s t := by
  rcases unlessBusy_eq_next h with ⟨-, ht⟩ | ⟨hfree, hr⟩
  · exact .of_status (by decide) ht
  · exact hrun hfree hr

/-- What a host command can do. -/
theorem commandOutcome_of_exec {i : Instr} {s t : State} (h : exec i s = .next t) : CommandOutcome i s t := by
  cases i with
  | nop => exact .of_finishOk_ok h .nop
  | crcInit => exact .of_finishOk_ok h .crcInit
  | crcByte b => exact .of_finishOk_ok h .crcByte
  | reqClear => exact .of_unlessBusy h fun hfree h => .of_finishOk_ok h (.reqClear hfree)
  | reqCmd c => exact .of_unlessBusy h fun hfree h => .of_finishOk_ok h (.reqCmd hfree)
  | reqPush b =>
    refine .of_unlessBusy h fun hfree h => ?_
    split at h
    · exact .of_status (c := .full) (by decide) (by injection h with h; exact h.symm)
    · refine .of_finishOk h fun u hu => ?_
      obtain ⟨hlen, rfl⟩ := pushRequest_eq_ok hu
      exact .reqPush hfree hlen
  | encSend =>
    refine .of_unlessBusy h fun hfree h => .of_finishOk h fun u hu => ?_
    obtain ⟨hlen, rfl⟩ := emitRequest_eq_ok hu
    exact .encSend hfree hlen
  | decReset => exact .of_unlessBusy h fun hfree h => .of_finishOk_ok h (.decReset hfree)
  | decFeed b =>
    refine .of_unlessBusy h fun hfree h => .of_finishOk h fun u hu => ?_
    obtain ⟨d, f, hstep, rfl⟩ := receiveByte_eq_ok hu
    exact .decFeed hfree hstep
  | idxLo n => exact .of_finishOk_ok h .idxLo
  | idxHi n => exact .of_finishOk_ok h .idxHi
  | rd sel =>
    rcases execRd_eq_next h with ⟨v, rfl⟩ | ht | ht
    · exact .inr ⟨_, .rd, rfl⟩
    · exact .of_status (by decide) ht
    · exact .of_status (by decide) ht
  | cfgAtt n => exact .of_unlessBusy h fun hfree h => .of_finishOk_ok h (.cfgAtt hfree)
  | cfgTmol t => exact .of_unlessBusy h fun hfree h => .of_finishOk_ok h (.cfgTmol hfree)
  | cfgTmoh t => exact .of_unlessBusy h fun hfree h => .of_finishOk_ok h (.cfgTmoh hfree)
  | cfgPolll p => exact .of_unlessBusy h fun hfree h => .of_finishOk_ok h (.cfgPolll hfree)
  | cfgPollh p => exact .of_unlessBusy h fun hfree h => .of_finishOk_ok h (.cfgPollh hfree)
  | txnStart =>
    refine .of_unlessBusy h fun hfree h => .of_finishOk h fun u hu => ?_
    rcases startTransaction_eq_ok hu with ⟨hmax, rfl⟩ | ⟨hmax, hsend⟩
    · exact .txnStart_noAttempt hfree hmax
    · exact .txnStart_send hfree hmax hsend

/-- What a command word can do: a status and nothing else, or the effect of the command whose word it is. -/
theorem commandEvent_cases {w : Half} {s t : State} (h : commandEvent w s = .next t) :
    (∃ c, c ≠ .ok ∧ t = setStatus c s) ∨
      ∃ i u, w = i.opcode ++ i.operand ∧ CommandEffect i s u ∧ t = setStatus .ok u := by
  rcases commandEvent_eq_next h with ⟨i, hdecode, hexec⟩ | ⟨e, -, rfl⟩
  · exact (commandOutcome_of_exec hexec).imp id fun ⟨u, heffect, ht⟩ => ⟨i, u, word_of_decode hdecode, heffect, ht⟩
  · exact .inl ⟨.illegal, by decide, rfl⟩

/-! ## What the block's events leave alone -/

/-- FEED's decision after its `dec_step` writes the sequencer's registers only (43_sequencer.md R98). -/
theorem afterFeed_eq (s : State) : afterFeed s = { s with txn := (afterFeed s).txn } := by
  have hfail (r : FailReason) : failAttempt r s = { s with txn := (failAttempt r s).txn } := by
    rcases failAttempt_cases r s with ⟨-, h⟩ | ⟨-, h⟩ <;> rw [h]
  rcases afterFeed_cases s with ⟨-, h⟩ | ⟨-, -, h⟩ | ⟨-, -, h⟩ | ⟨-, h⟩ | ⟨-, h⟩ | ⟨-, h⟩ <;> rw [h]
  all_goals exact hfail _

@[simp] theorem afterFeed_crcAcc (s : State) : (afterFeed s).crcAcc = s.crcAcc := by rw [afterFeed_eq]
@[simp] theorem afterFeed_req (s : State) : (afterFeed s).req = s.req := by rw [afterFeed_eq]
@[simp] theorem afterFeed_dec (s : State) : (afterFeed s).dec = s.dec := by rw [afterFeed_eq]
@[simp] theorem afterFeed_frm (s : State) : (afterFeed s).frm = s.frm := by rw [afterFeed_eq]
@[simp] theorem afterFeed_cfg (s : State) : (afterFeed s).cfg = s.cfg := by rw [afterFeed_eq]
@[simp] theorem afterFeed_host (s : State) : (afterFeed s).host = s.host := by rw [afterFeed_eq]
@[simp] theorem afterFeed_rxq (s : State) : (afterFeed s).rxq = s.rxq := by rw [afterFeed_eq]
@[simp] theorem afterFeed_txw (s : State) : (afterFeed s).txw = s.txw := by rw [afterFeed_eq]
@[simp] theorem afterFeed_params (s : State) : (afterFeed s).params = s.params := by rw [afterFeed_eq]
@[simp] theorem afterFeed_schedule (s : State) : (afterFeed s).schedule = s.schedule := by rw [afterFeed_eq]

/-- CLOSE writes the sequencer's registers only (43_sequencer.md R99). -/
theorem closeEvent_eq (s : State) : closeEvent s = { s with txn := (closeEvent s).txn } := by
  rcases closeEvent_cases s with ⟨-, h⟩ | ⟨-, h⟩ <;> rw [h]
  rcases failAttempt_cases .timeout s with ⟨-, h⟩ | ⟨-, h⟩ <;> rw [h]

@[simp] theorem closeEvent_crcAcc (s : State) : (closeEvent s).crcAcc = s.crcAcc := by rw [closeEvent_eq]
@[simp] theorem closeEvent_req (s : State) : (closeEvent s).req = s.req := by rw [closeEvent_eq]
@[simp] theorem closeEvent_dec (s : State) : (closeEvent s).dec = s.dec := by rw [closeEvent_eq]
@[simp] theorem closeEvent_frm (s : State) : (closeEvent s).frm = s.frm := by rw [closeEvent_eq]
@[simp] theorem closeEvent_cfg (s : State) : (closeEvent s).cfg = s.cfg := by rw [closeEvent_eq]
@[simp] theorem closeEvent_host (s : State) : (closeEvent s).host = s.host := by rw [closeEvent_eq]
@[simp] theorem closeEvent_rxq (s : State) : (closeEvent s).rxq = s.rxq := by rw [closeEvent_eq]
@[simp] theorem closeEvent_txw (s : State) : (closeEvent s).txw = s.txw := by rw [closeEvent_eq]
@[simp] theorem closeEvent_params (s : State) : (closeEvent s).params = s.params := by rw [closeEvent_eq]
@[simp] theorem closeEvent_schedule (s : State) : (closeEvent s).schedule = s.schedule := by rw [closeEvent_eq]

/-- A byte leaves the latch as it was, or completes a frame and latches it (42_decoder.md R81). -/
theorem decStep_latch {cap : Half} {b : Byte} {d d' : DecRegs} {f f' : FrameLatch}
    (h : decStep cap b d f = .ok (d', f')) : f' = f ∨ (d'.result = .frame ∧ f'.valid = true) := by
  rcases decStep_eq_ok h with ⟨-, -, hf⟩ | ⟨-, -, hf⟩ | ⟨-, -, hf⟩ | ⟨-, -, hf⟩ | ⟨-, -, hf⟩ | ⟨-, -, hf⟩ |
    ⟨-, hend⟩ | ⟨-, -, hf⟩
  case inr.inr.inr.inr.inr.inr.inl =>
    obtain ⟨rfl, ⟨hframe, -, rfl⟩ | ⟨-, rfl⟩⟩ := atAwaitingEnd_eq_ok hend
    · exact .inr ⟨hframe, rfl⟩
    · exact .inl rfl
  all_goals exact .inl hf

/-- What FEED can do (43_sequencer.md R98): one `dec_step` on the oldest received byte, then its decision. -/
theorem feedEvent_cases {s t : State} (h : feedEvent s = .ok t) :
    (s.rxq = [] ∧ t = s) ∨
      ∃ b rest d f, s.rxq = b :: rest ∧ decStep s.params.rxCap b s.dec s.frm = .ok (d, f) ∧
        t = afterFeed { s with rxq := rest, dec := d, frm := f } := by
  rcases feedEvent_eq_ok h with hempty | ⟨b, rest, u, hq, hr, rfl⟩
  · exact .inl hempty
  · obtain ⟨d, f, hstep, rfl⟩ := receiveByte_eq_ok hr
    exact .inr ⟨b, rest, d, f, hq, hstep, rfl⟩

end Sys2Proof.Machine
end

section
/-! SUPPORT. Who writes `CRC_ACC`, `TXW`, the frame latch and the parameters: the statements CrcAccumulatorWriters,
TransmitWireGrowsByFrames and FrameLatchWriters. -/

namespace Sys2Proof.Machine

@[simp] theorem State.popEvent_requestFrame (s : State) : s.popEvent.requestFrame = s.requestFrame := rfl

@[simp] theorem openTransaction_requestFrame (s : State) : (openTransaction s).requestFrame = s.requestFrame := rfl

/-! ## `CRC_ACC` (10_state.md R17, 40_crc.md R64) -/

theorem CommandEffect.crcAcc_eq {i : Instr} {s u : State} (h : CommandEffect i s u) :
    u.crcAcc = s.crcAcc ∨ i = .crcInit ∨ ∃ b, i = .crcByte b := by
  cases h with
  | crcInit => exact .inr (.inl rfl)
  | crcByte => exact .inr (.inr ⟨_, rfl⟩)
  | txnStart_send hfree hmax hsend =>
    obtain ⟨-, rfl⟩ := sendAttempt_eq_ok hsend
    exact .inl rfl
  | _ => exact .inl rfl

theorem feedEvent_crcAcc {s t : State} (h : feedEvent s = .ok t) : t.crcAcc = s.crcAcc := by
  rcases feedEvent_cases h with ⟨-, rfl⟩ | ⟨b, rest, d, f, -, -, rfl⟩
  · rfl
  · exact afterFeed_crcAcc _

/-- Settles O13: among the commands CRC.INIT and CRC.BYTE write the accumulator, and RESET alone among the other
events. -/
theorem crcAccumulatorWriters : Obligations.CrcAccumulatorWriters := by
  intro s t h
  rcases step_cases h with ⟨w, hn, hc⟩ | ⟨b, -, rfl⟩ | ⟨-, -, hfeed⟩ | ⟨-, -, rfl⟩ | ⟨-, -, hsend⟩ | ⟨-, -, rfl⟩ |
    ⟨hn, -⟩
  · rcases commandEvent_cases hc with ⟨c, -, rfl⟩ | ⟨i, u, rfl, heffect, rfl⟩
    · exact .inl rfl
    · rcases heffect.crcAcc_eq with hacc | rfl | ⟨b, rfl⟩
      · exact .inl hacc
      · exact .inr (.inr (.inl hn))
      · exact .inr (.inr (.inr ⟨b, hn⟩))
  · exact .inl rfl
  · exact .inl (by simpa using feedEvent_crcAcc hfeed)
  · exact .inl (closeEvent_crcAcc s.popEvent)
  · obtain ⟨-, rfl⟩ := sendAttempt_eq_ok hsend
    exact .inl rfl
  · exact .inl (tickEvent_crcAcc s.popEvent)
  · exact .inr (.inl hn)

/-! ## `TXW` (10_state.md R27, 20_memory.md R36) -/

theorem sendAttempt_txw {s t : State} (h : sendAttempt s = .ok t) : t.txw = s.txw ++ s.requestFrame := by
  obtain ⟨-, rfl⟩ := sendAttempt_eq_ok h
  rfl

theorem CommandEffect.txw_eq {i : Instr} {s u : State} (h : CommandEffect i s u) :
    u.txw = s.txw ∨ (u.txw = s.txw ++ s.requestFrame ∧ (i = .encSend ∨ i = .txnStart)) := by
  cases h with
  | encSend => exact .inr ⟨rfl, .inl rfl⟩
  | txnStart_send hfree hmax hsend => exact .inr ⟨by simpa using sendAttempt_txw hsend, .inr rfl⟩
  | _ => exact .inl rfl

theorem feedEvent_txw {s t : State} (h : feedEvent s = .ok t) : t.txw = s.txw := by
  rcases feedEvent_cases h with ⟨-, rfl⟩ | ⟨b, rest, d, f, -, -, rfl⟩
  · rfl
  · exact afterFeed_txw _

/-- Settles O55: only ENC.SEND and an attempt's send emit, and each emits the request's whole frame. -/
theorem transmitWireGrowsByFrames : Obligations.TransmitWireGrowsByFrames := by
  intro s t h
  rcases step_cases h with ⟨w, hn, hc⟩ | ⟨b, -, rfl⟩ | ⟨-, -, hfeed⟩ | ⟨-, -, rfl⟩ | ⟨hn, -, hsend⟩ | ⟨-, -, rfl⟩ |
    ⟨-, rfl⟩
  · rcases commandEvent_cases hc with ⟨c, -, rfl⟩ | ⟨i, u, rfl, heffect, rfl⟩
    · exact .inl rfl
    · rcases heffect.txw_eq with htxw | ⟨htxw, rfl | rfl⟩
      · exact .inl htxw
      · exact .inr ⟨htxw, .inl hn⟩
      · exact .inr ⟨htxw, .inr (.inl hn)⟩
  · exact .inl rfl
  · exact .inl (by simpa using feedEvent_txw hfeed)
  · exact .inl (closeEvent_txw s.popEvent)
  · exact .inr ⟨by simpa using sendAttempt_txw hsend, .inr (.inr hn)⟩
  · exact .inl (tickEvent_txw s.popEvent)
  · exact .inl rfl

/-! ## The frame latch and the parameters (10_state.md R20, R24, R26) -/

theorem sendAttempt_frm {s t : State} (h : sendAttempt s = .ok t) : t.frm = s.frm := by
  obtain ⟨-, rfl⟩ := sendAttempt_eq_ok h
  rfl

theorem sendAttempt_params {s t : State} (h : sendAttempt s = .ok t) : t.params = s.params := by
  obtain ⟨-, rfl⟩ := sendAttempt_eq_ok h
  rfl

theorem CommandEffect.params_eq {i : Instr} {s u : State} (h : CommandEffect i s u) : u.params = s.params := by
  cases h with
  | txnStart_send hfree hmax hsend => simpa using sendAttempt_params hsend
  | _ => rfl

theorem CommandEffect.frm_eq {i : Instr} {s u : State} (h : CommandEffect i s u) :
    u.frm = s.frm ∨ (i = .txnStart ∧ u.frm = { s.frm with valid := false }) ∨
      ((∃ b, i = .decFeed b) ∧ u.dec.result = .frame ∧ u.frm.valid = true) := by
  cases h with
  | decFeed hfree hstep =>
    rcases decStep_latch hstep with rfl | hframe
    · exact .inl rfl
    · exact .inr (.inr ⟨⟨_, rfl⟩, hframe⟩)
  | txnStart_noAttempt => exact .inr (.inl ⟨rfl, rfl⟩)
  | txnStart_send hfree hmax hsend => exact .inr (.inl ⟨rfl, sendAttempt_frm hsend⟩)
  | _ => exact .inl rfl

theorem feedEvent_params {s t : State} (h : feedEvent s = .ok t) : t.params = s.params := by
  rcases feedEvent_cases h with ⟨-, rfl⟩ | ⟨b, rest, d, f, -, -, rfl⟩
  · rfl
  · exact afterFeed_params _

theorem feedEvent_frm {s t : State} (h : feedEvent s = .ok t) :
    t.frm = s.frm ∨ (t.dec.result = .frame ∧ t.frm.valid = true) := by
  rcases feedEvent_cases h with ⟨-, rfl⟩ | ⟨b, rest, d, f, -, hstep, rfl⟩
  · exact .inl rfl
  · rw [afterFeed_eq]
    exact decStep_latch hstep

theorem step_params {s t : State} (h : step s = .next t) : t.params = s.params := by
  rcases step_cases h with ⟨w, -, hc⟩ | ⟨b, -, rfl⟩ | ⟨-, -, hfeed⟩ | ⟨-, -, rfl⟩ | ⟨-, -, hsend⟩ | ⟨-, -, rfl⟩ |
    ⟨-, rfl⟩
  · rcases commandEvent_cases hc with ⟨c, -, rfl⟩ | ⟨i, u, -, heffect, rfl⟩
    · rfl
    · exact heffect.params_eq
  · rfl
  · simpa using feedEvent_params hfeed
  · exact closeEvent_params s.popEvent
  · simpa using sendAttempt_params hsend
  · exact tickEvent_params s.popEvent
  · rfl

/-- Settles O59: the latch by the kind of the event; the parameters by `step_params`. -/
theorem frameLatchWriters : Obligations.FrameLatchWriters := by
  intro s t h
  refine ⟨step_params h, ?_⟩
  rcases step_cases h with ⟨w, hn, hc⟩ | ⟨b, -, rfl⟩ | ⟨hn, -, hfeed⟩ | ⟨-, -, rfl⟩ | ⟨-, -, hsend⟩ | ⟨-, -, rfl⟩ |
    ⟨hn, -⟩
  · rcases commandEvent_cases hc with ⟨c, -, rfl⟩ | ⟨i, u, rfl, heffect, rfl⟩
    · exact .inl rfl
    · rcases heffect.frm_eq with hfrm | ⟨rfl, hfrm⟩ | ⟨⟨b, rfl⟩, hframe⟩
      · exact .inl hfrm
      · exact .inr (.inr (.inl ⟨hn, hfrm⟩))
      · exact .inr (.inr (.inr ⟨.inr ⟨b, hn⟩, hframe⟩))
  · exact .inl rfl
  · exact (feedEvent_frm hfeed).imp id fun hframe => .inr (.inr ⟨.inl hn, hframe⟩)
  · exact .inl (closeEvent_frm s.popEvent)
  · exact .inl (by simpa using sendAttempt_frm hsend)
  · exact .inl (tickEvent_frm s.popEvent)
  · exact .inr (.inl hn)

end Sys2Proof.Machine
end

section
/-! SUPPORT. The code tables, the dispatch of a scheduled command, the block's events and the values RD reads: the
statements RegisterCodes, StepRunsDecodedCommand, BlockEventsExcludeEachOther and RdReadsValues. -/

namespace Sys2Proof.Machine

/-! ## The codes (10_state.md R25) -/

theorem DecResult.code_le (c : DecResult) : c.code.toNat ≤ 4 := by cases c <;> decide

theorem TxnResult.code_le (c : TxnResult) : c.code.toNat ≤ 2 := by cases c <;> decide

theorem FailReason.code_le (c : FailReason) : c.code.toNat ≤ 5 := by cases c <;> decide

theorem OpStatus.code_le (c : OpStatus) : c.code.toNat ≤ 4 := by cases c <;> decide

/-- Settles O5: the tables by evaluation, the bounds by the constructors. -/
theorem registerCodes : Obligations.RegisterCodes :=
  ⟨rfl, rfl, rfl, rfl, rfl, rfl, DecResult.code_le, TxnResult.code_le, FailReason.code_le, OpStatus.code_le,
    rfl, rfl, rfl⟩

/-! ## The step (10_state.md R28, R29) -/

theorem commandEvent_of_decode {w : Half} {i : Instr} (h : decode w = .ok i) (s : State) :
    commandEvent w s = exec i s := by
  simp [commandEvent, h]

/-- Settles O6: CMD is enabled in every state, so the scheduled word is taken and its command runs. -/
theorem stepRunsDecodedCommand : Obligations.StepRunsDecodedCommand := by
  intro s w rest i hschedule hdecode
  calc step s
      = performEvent (.cmd w) { s with schedule := rest } := step_scheduled hschedule rfl
    _ = exec i { s with schedule := rest } := commandEvent_of_decode hdecode _

theorem not_feedEnabled_and_closeEnabled (s : State) : ¬ (feedEnabled s = true ∧ closeEnabled s = true) := by
  rw [feedEnabled_iff, closeEnabled_iff]
  rintro ⟨⟨-, -, hsome⟩, -, -, hnone, -⟩
  exact hsome hnone

theorem not_feedEnabled_and_resendEnabled (s : State) : ¬ (feedEnabled s = true ∧ resendEnabled s = true) := by
  rw [feedEnabled_iff, resendEnabled_iff]
  rintro ⟨⟨hwait, -⟩, hpace, -⟩
  simp [hwait] at hpace

theorem not_closeEnabled_and_resendEnabled (s : State) : ¬ (closeEnabled s = true ∧ resendEnabled s = true) := by
  rw [closeEnabled_iff, resendEnabled_iff]
  rintro ⟨⟨hwait, -⟩, hpace, -⟩
  simp [hwait] at hpace

theorem tick_enabled_iff (s : State) :
    Event.tick.enabled s = true ↔ feedEnabled s = false ∧ closeEnabled s = false ∧ resendEnabled s = false := by
  simp [Event.enabled, blockEnabled, and_assoc]

/-- The event the model takes on an empty schedule is one the spec allows (log 1). -/
theorem autonomousEvent_enabled (s : State) : (autonomousEvent s).enabled s = true := by
  unfold autonomousEvent
  split
  next hfeed => exact hfeed
  next hfeed =>
    split
    next hclose => exact hclose
    next hclose =>
      split
      next hresend => exact hresend
      next hresend => exact (tick_enabled_iff s).2 (by simp_all)

theorem nextEvent_of_schedule_nil {s : State} (h : s.schedule = []) : s.nextEvent = autonomousEvent s := by
  simp [State.nextEvent, h]

/-- Settles O7: FEED and CLOSE differ on `RXQ`, RESEND differs from both on the phase. -/
theorem blockEventsExcludeEachOther : Obligations.BlockEventsExcludeEachOther := by
  intro s
  refine ⟨not_feedEnabled_and_closeEnabled s, not_feedEnabled_and_resendEnabled s,
    not_closeEnabled_and_resendEnabled s, tick_enabled_iff s, fun hempty => ?_⟩
  rw [nextEvent_of_schedule_nil hempty]
  exact autonomousEvent_enabled s

/-! ## RD (44_readback.md R111) -/

theorem decode_rd (imm : Byte) : decode (0x32#8 ++ imm) = .ok (.rd imm) := by
  simp [decode]

/-- A flag zero-extended is the number 0 or 1. -/
theorem setWidth_ofBool (b : Bool) : (BitVec.ofBool b).setWidth 16 = BitVec.ofNat 16 b.toNat := by cases b <;> rfl

theorem exec_rd_of_value {s : State} {sel : Byte} {v : Half} (hbuf : bufferOfSelector sel = none)
    (hv : selectorValue s sel = some v) :
    exec (.rd sel) s = .next { s with host := { s.host with resp := v, opst := .ok } } := by
  simp only [exec, execRd, hbuf, hv]
  rfl

theorem exec_rd_of_no_value {s : State} {sel : Byte} (hbuf : bufferOfSelector sel = none)
    (hv : selectorValue s sel = none) : exec (.rd sel) s = .next (s.withOpst .illegal) := by
  simp only [exec, execRd, hbuf, hv]
  rfl

/-- An unassigned selector is no buffer's (30_encoding.md R54). -/
theorem bufferOfSelector_of_unassigned {sel : Byte} (h : assignedSelector sel = false) :
    bufferOfSelector sel = none := by
  unfold bufferOfSelector
  split
  case h_4 => rfl
  all_goals exact absurd h (by decide)

/-- An unassigned selector selects no value (30_encoding.md R54). -/
theorem selectorValue_of_unassigned {sel : Byte} (s : State) (h : assignedSelector sel = false) :
    selectorValue s sel = none := by
  unfold selectorValue
  split
  case h_33 => rfl
  all_goals exact absurd h (by decide)

/-- Settles O32: every row of the table by `exec_rd_of_value`, the zero extension being the number itself. -/
theorem rdReadsValues : Obligations.RdReadsValues := by
  refine ⟨fun s imm => commandEvent_of_decode (decode_rd imm) s, fun s => ⟨fun e he => ?_, fun sel hsel => ?_⟩⟩
  · suffices h : bufferOfSelector e.1 = none ∧ selectorValue s e.1 = some (BitVec.ofNat 16 e.2) from
      exec_rd_of_value h.1 h.2
    revert e
    simp only [List.forall_mem_cons]
    simp [bufferOfSelector, selectorValue, zext16_eq_ofNat, setWidth_ofBool]
  · exact exec_rd_of_no_value (bufferOfSelector_of_unassigned hsel) (selectorValue_of_unassigned s hsel)

end Sys2Proof.Machine
end

section
/-! SUPPORT. The invariant (10_state.md R18 to R21) by the registers it speaks of: the request's, the decoder's, the
latch's and the sequencer's part, what keeps each, and the statement InvariantKept put together from them. -/

namespace Sys2Proof.Machine

/-! ## The parts of the invariant -/

/-- The request's part (10_state.md R18), for `TX_CAP = cap`. -/
structure ReqRegs.Valid (cap : Half) (r : ReqRegs) : Prop where
  wf : r.buf.wf = true
  within : r.buf.within cap.toNat = true
  len : r.len ≤ cap

/-- The decoder's part (10_state.md R19), for `RX_CAP = cap`. -/
structure DecRegs.Valid (cap : Half) (d : DecRegs) : Prop where
  wf : d.buf.wf = true
  within : d.buf.within cap.toNat = true
  pcountLen : d.pcount ≤ d.len
  pcountCap : d.pcount ≤ cap
  consistent : d.consistent cap

/-- The latch's part (10_state.md R20), for `RX_CAP = cap`. -/
structure FrameLatch.Valid (cap : Half) (f : FrameLatch) : Prop where
  wf : f.buf.wf = true
  within : f.buf.within cap.toNat = true
  len : f.len ≤ cap
  crc : f.valid = true → f.crc = crc16 (frameBody f.cmd (f.buf.bytes f.len.toNat))

/-- The invariant is its four parts. -/
theorem inv_iff (s : State) :
    Inv s ↔ s.req.Valid s.params.txCap ∧ s.dec.Valid s.params.rxCap ∧ s.frm.Valid s.params.rxCap ∧
      s.sequencerConsistent :=
  ⟨fun h => ⟨⟨h.reqWf, h.reqWithin, h.reqLen⟩, ⟨h.decWf, h.decWithin, h.pcountLen, h.pcountCap, h.decoder⟩,
      ⟨h.frmWf, h.frmWithin, h.frmLen, h.frmCrc⟩, h.sequencer⟩,
    fun ⟨hreq, hdec, hfrm, hseq⟩ =>
      { reqWf := hreq.wf, reqWithin := hreq.within, reqLen := hreq.len
        decWf := hdec.wf, decWithin := hdec.within, pcountLen := hdec.pcountLen, pcountCap := hdec.pcountCap
        decoder := hdec.consistent
        frmWf := hfrm.wf, frmWithin := hfrm.within, frmLen := hfrm.len, frmCrc := hfrm.crc
        sequencer := hseq }⟩

theorem Inv.req {s : State} (h : Inv s) : s.req.Valid s.params.txCap := ((inv_iff s).1 h).1
theorem Inv.dec {s : State} (h : Inv s) : s.dec.Valid s.params.rxCap := ((inv_iff s).1 h).2.1
theorem Inv.frm {s : State} (h : Inv s) : s.frm.Valid s.params.rxCap := ((inv_iff s).1 h).2.2.1

theorem zero_le_half (h : Half) : 0#16 ≤ h := by simp [BitVec.le_def]

/-! ## The request's part -/

theorem ReqRegs.Valid.clear {cap : Half} {r : ReqRegs} (h : r.Valid cap) : ReqRegs.Valid cap { r with len := 0#16 } :=
  ⟨h.wf, h.within, zero_le_half cap⟩

/-- A byte appended below the capacity (41_encoder.md R71). -/
theorem ReqRegs.Valid.push {cap : Half} {r : ReqRegs} (h : r.Valid cap) (hlt : r.len < cap) (b : Byte) :
    ReqRegs.Valid cap { r with buf := r.buf.write r.len.toNat b, len := r.len + 1#16 } :=
  ⟨Memory.wf_write _ _ h.wf, Memory.within_write _ _ h.within (by simpa [BitVec.lt_def] using hlt), by
    dsimp only
    bv_omega⟩

/-! ## The running CRC -/

theorem crc16_concat (bs : List Byte) (b : Byte) : crc16 (bs ++ [b]) = crcStep (crc16 bs) b := by
  simp [crc16]

/-- With no payload byte stored the CRC covers the header alone. -/
theorem DecRegs.covered_of_pcount_zero {d : DecRegs} (h : d.pcount = 0#16) :
    d.covered = [d.cmd, lo d.len, hi d.len] := by
  simp [DecRegs.covered, h]

/-- A payload byte stored at `DEC_PCOUNT` and run through the CRC leaves the CRC of what is then covered
(42_decoder.md R78). -/
theorem DecRegs.crcRun_store {d d' : DecRegs} {b : Byte} (hwf : d.buf.wf = true) (hrun : d.crcRun = crc16 d.covered)
    (hcmd : d'.cmd = d.cmd) (hlen : d'.len = d.len) (hpcount : d'.pcount.toNat = d.pcount.toNat + 1)
    (hbuf : d'.buf = d.buf.write d.pcount.toNat b) (hrun' : d'.crcRun = crcStep d.crcRun b) :
    d'.crcRun = crc16 d'.covered := by
  have hcovered : d'.covered = d.covered ++ [b] := by
    simp only [DecRegs.covered, hcmd, hlen, hpcount, hbuf, Memory.bytes_write_end _ _ hwf, List.append_assoc]
  rw [hcovered, crc16_concat, hrun', hrun]

/-- A completed payload's CRC covers the body of the frame that is latched (42_decoder.md R81). -/
theorem DecRegs.covered_eq_frameBody {d : DecRegs} (h : d.pcount = d.len) :
    d.covered = frameBody d.cmd (d.buf.bytes d.len.toNat) := by
  simp [DecRegs.covered, frameBody, h]

/-! ## The decoder's part, by the state it is in -/

section
variable {cap : Half} {d : DecRegs}

theorem DecRegs.consistent_awaitingStart (hs : d.state = .awaitingStart) : d.consistent cap := by
  simp [DecRegs.consistent, hs]

theorem DecRegs.consistent_awaitingCommand_iff (hs : d.state = .awaitingCommand) :
    d.consistent cap ↔
      d.cmd = 0x00#8 ∧ d.len = 0#16 ∧ d.lidx = 0 ∧ d.pcount = 0#16 ∧ d.crcRx = 0#16 ∧ d.crcRun = 0xFFFF#16 := by
  simp [DecRegs.consistent, hs]

theorem DecRegs.consistent_awaitingLength_iff (hs : d.state = .awaitingLength) :
    d.consistent cap ↔ d.pcount = 0#16 ∧ d.crcRx = 0#16 ∧
      ((d.lidx = 0 ∧ d.len = 0#16 ∧ d.crcRun = crc16 [d.cmd]) ∨
        (d.lidx = 1 ∧ hi d.len = 0x00#8 ∧ d.crcRun = crc16 [d.cmd, lo d.len])) := by
  simp [DecRegs.consistent, hs]

theorem DecRegs.consistent_awaitingData_iff (hs : d.state = .awaitingData) :
    d.consistent cap ↔ d.lidx = 2 ∧ d.pcount < d.len ∧ d.crcRx = 0#16 ∧ d.crcRun = crc16 d.covered := by
  simp [DecRegs.consistent, hs]

theorem DecRegs.consistent_awaitingCrcLow_iff (hs : d.state = .awaitingCrcLow) :
    d.consistent cap ↔ d.payloadDone ∧ d.crcRx = 0#16 := by
  simp [DecRegs.consistent, hs]

theorem DecRegs.consistent_awaitingCrcHigh_iff (hs : d.state = .awaitingCrcHigh) :
    d.consistent cap ↔ d.payloadDone ∧ hi d.crcRx = 0x00#8 := by
  simp [DecRegs.consistent, hs]

theorem DecRegs.consistent_awaitingEnd_iff (hs : d.state = .awaitingEnd) : d.consistent cap ↔ d.payloadDone := by
  simp [DecRegs.consistent, hs]

theorem DecRegs.consistent_overflow_iff (hs : d.state = .overflow) :
    d.consistent cap ↔ d.lidx = 2 ∧ d.pcount = cap ∧ cap < d.len := by
  simp [DecRegs.consistent, hs]

/-! ### One row of the transition table after the other (42_decoder.md R75 to R82) -/

theorem DecRegs.Valid.reset (h : d.Valid cap) : (Machine.decReset d).Valid cap :=
  ⟨h.wf, h.within, BitVec.le_refl _, zero_le_half cap, consistent_awaitingStart rfl⟩

theorem DecRegs.Valid.atAwaitingStart (h : d.Valid cap) (hs : d.state = .awaitingStart) (b : Byte) :
    (Machine.atAwaitingStart b d).Valid cap := by
  unfold Machine.atAwaitingStart
  split
  · exact ⟨h.wf, h.within, BitVec.le_refl _, zero_le_half cap,
      (consistent_awaitingCommand_iff rfl).2 ⟨rfl, rfl, rfl, rfl, rfl, rfl⟩⟩
  · exact ⟨h.wf, h.within, h.pcountLen, h.pcountCap, consistent_awaitingStart hs⟩

theorem DecRegs.Valid.atAwaitingCommand (h : d.Valid cap) (hs : d.state = .awaitingCommand) (b : Byte) :
    (Machine.atAwaitingCommand b d).Valid cap := by
  obtain ⟨-, hlen, hlidx, hpcount, hrx, hrun⟩ := (consistent_awaitingCommand_iff hs).1 h.consistent
  refine ⟨h.wf, h.within, h.pcountLen, h.pcountCap,
    (consistent_awaitingLength_iff rfl).2 ⟨hpcount, hrx, .inl ⟨hlidx, hlen, ?_⟩⟩⟩
  simp [Machine.atAwaitingCommand, hrun, crc16]

/-- The low length byte: its high half is clear, and the CRC covers it. -/
theorem DecRegs.Valid.atAwaitingLength_low (h : d.Valid cap) (hs : d.state = .awaitingLength) (hlidx : d.lidx = 0)
    (hpcount : d.pcount = 0#16) (hrx : d.crcRx = 0#16) (hrun : d.crcRun = crc16 [d.cmd]) (b : Byte) :
    (Machine.atAwaitingLength b d).Valid cap := by
  have hzero : (0#16) ≤ zext16 b := zero_le_half _
  simp only [Machine.atAwaitingLength, hlidx, if_true]
  refine ⟨h.wf, h.within, hpcount ▸ hzero, h.pcountCap,
    (consistent_awaitingLength_iff (by exact hs)).2 ⟨hpcount, hrx, .inr ⟨rfl, ?_, ?_⟩⟩⟩
  · simp [zext16_eq_bytes]
  · simp [zext16_eq_bytes, hrun, crc16]

/-- The high length byte completes the length and the header's CRC; an empty payload is then done. -/
theorem DecRegs.Valid.atAwaitingLength_high (h : d.Valid cap) (hlidx : d.lidx = 1) (hpcount : d.pcount = 0#16)
    (hrx : d.crcRx = 0#16) (hhi : hi d.len = 0x00#8) (hrun : d.crcRun = crc16 [d.cmd, lo d.len]) (b : Byte) :
    (Machine.atAwaitingLength b d).Valid cap := by
  have hne : d.lidx ≠ 0 := by simp [hlidx]
  have hzero : (0#16) ≤ b ++ lo d.len := zero_le_half _
  have hcrc : crcStep d.crcRun b = crc16 [d.cmd, lo d.len, b] := by simp [hrun, crc16]
  simp only [Machine.atAwaitingLength, hne, if_false, or_highByte hhi]
  refine ⟨h.wf, h.within, hpcount ▸ hzero, h.pcountCap, ?_⟩
  split
  next hpos =>
    refine (consistent_awaitingData_iff rfl).2 ⟨rfl, hpcount ▸ hpos, hrx, ?_⟩
    rw [covered_of_pcount_zero (by exact hpcount)]
    simpa using hcrc
  next hpos =>
    have hlen : b ++ lo d.len = 0#16 := by bv_omega
    refine (consistent_awaitingCrcLow_iff rfl).2 ⟨⟨rfl, hpcount.trans hlen.symm, ?_⟩, hrx⟩
    rw [covered_of_pcount_zero (by exact hpcount)]
    simpa using hcrc

theorem DecRegs.Valid.atAwaitingLength (h : d.Valid cap) (hs : d.state = .awaitingLength) (b : Byte) :
    (Machine.atAwaitingLength b d).Valid cap := by
  obtain ⟨hpcount, hrx, ⟨hlidx, -, hrun⟩ | ⟨hlidx, hhi, hrun⟩⟩ :=
    (consistent_awaitingLength_iff hs).1 h.consistent
  · exact h.atAwaitingLength_low hs hlidx hpcount hrx hrun b
  · exact h.atAwaitingLength_high hlidx hpcount hrx hhi hrun b

/-- A payload byte below the capacity is stored and covered by the CRC; the last one completes the payload. -/
theorem DecRegs.Valid.store (h : d.Valid cap) (hs : d.state = .awaitingData) (hlt : d.pcount < cap) (b : Byte) :
    DecRegs.Valid cap
      { d with
        buf := d.buf.write d.pcount.toNat b
        pcount := d.pcount + 1#16
        crcRun := crcStep d.crcRun b
        state := if d.pcount + 1#16 = d.len then .awaitingCrcLow else .awaitingData
        result := .incomplete } := by
  obtain ⟨hlidx, hlen, hrx, hrun⟩ := (consistent_awaitingData_iff hs).1 h.consistent
  have hsucc : (d.pcount + 1#16).toNat = d.pcount.toNat + 1 := by bv_omega
  have hle : d.pcount + 1#16 ≤ d.len := by bv_omega
  refine ⟨Memory.wf_write _ _ h.wf, Memory.within_write _ _ h.within (by simpa [BitVec.lt_def] using hlt), hle,
    (by dsimp only; bv_omega), ?_⟩
  split
  next hlast =>
    exact (consistent_awaitingCrcLow_iff rfl).2
      ⟨⟨hlidx, hlast, crcRun_store h.wf hrun rfl rfl hsucc rfl rfl⟩, hrx⟩
  next hmore =>
    exact (consistent_awaitingData_iff rfl).2
      ⟨hlidx, by dsimp only; bv_omega, hrx, crcRun_store h.wf hrun rfl rfl hsucc rfl rfl⟩

theorem DecRegs.Valid.atAwaitingData {d' : DecRegs} {b : Byte} (h : d.Valid cap) (hs : d.state = .awaitingData)
    (hd : Machine.atAwaitingData cap b d = .ok d') : d'.Valid cap := by
  rcases atAwaitingData_eq_ok hd with ⟨hfull, rfl⟩ | ⟨-, hlt, rfl⟩
  · obtain ⟨hlidx, hlen, -, -⟩ := (consistent_awaitingData_iff hs).1 h.consistent
    exact ⟨h.wf, h.within, h.pcountLen, h.pcountCap, (consistent_overflow_iff rfl).2 ⟨hlidx, hfull, hfull ▸ hlen⟩⟩
  · exact h.store hs hlt b

theorem DecRegs.Valid.atAwaitingCrcLow (h : d.Valid cap) (hs : d.state = .awaitingCrcLow) (b : Byte) :
    (Machine.atAwaitingCrcLow b d).Valid cap := by
  obtain ⟨hdone, -⟩ := (consistent_awaitingCrcLow_iff hs).1 h.consistent
  exact ⟨h.wf, h.within, h.pcountLen, h.pcountCap,
    (consistent_awaitingCrcHigh_iff rfl).2 ⟨hdone, by simp [Machine.atAwaitingCrcLow, zext16_eq_bytes]⟩⟩

theorem DecRegs.Valid.atAwaitingCrcHigh (h : d.Valid cap) (hs : d.state = .awaitingCrcHigh) (b : Byte) :
    (Machine.atAwaitingCrcHigh b d).Valid cap := by
  obtain ⟨hdone, -⟩ := (consistent_awaitingCrcHigh_iff hs).1 h.consistent
  exact ⟨h.wf, h.within, h.pcountLen, h.pcountCap, (consistent_awaitingEnd_iff rfl).2 hdone⟩

/-- Back in AwaitingStart any result is consistent. -/
theorem DecRegs.Valid.restart (h : d.Valid cap) (r : DecResult) :
    DecRegs.Valid cap { d with state := .awaitingStart, result := r } :=
  ⟨h.wf, h.within, h.pcountLen, h.pcountCap, consistent_awaitingStart rfl⟩

/-- The latch of a FRAME outcome: its CRC is the received one, which the decoder has found equal to the CRC of what it
copies (42_decoder.md R81). -/
theorem FrameLatch.Valid.latch {f : FrameLatch} (hf : f.Valid cap) (hdone : d.payloadDone) (hlen : d.len ≤ cap)
    (hcrc : d.crcRx = d.crcRun) :
    FrameLatch.Valid cap
      { valid := true, cmd := d.cmd, len := d.len, crc := d.crcRx, buf := Memory.copy d.buf f.buf d.len.toNat } := by
  obtain ⟨-, hpcount, hrun⟩ := hdone
  refine ⟨Memory.wf_copy _ _ hf.wf, Memory.within_copy _ _ hf.within (by simpa [BitVec.le_def] using hlen), hlen,
    fun _ => ?_⟩
  dsimp only
  rw [hcrc, hrun, DecRegs.covered_eq_frameBody hpcount, Memory.bytes_copy _ _ hf.wf]

theorem FrameLatch.Valid.invalidate {f : FrameLatch} (hf : f.Valid cap) :
    FrameLatch.Valid cap { f with valid := false } :=
  ⟨hf.wf, hf.within, hf.len, fun h => by cases h⟩

/-- `dec_step` keeps the decoder's and the latch's part (42_decoder.md R73 to R82). -/
theorem decStep_valid {d' : DecRegs} {f f' : FrameLatch} {b : Byte} (hd : d.Valid cap) (hf : f.Valid cap)
    (h : decStep cap b d f = .ok (d', f')) : d'.Valid cap ∧ f'.Valid cap := by
  rcases decStep_eq_ok h with ⟨hs, rfl, rfl⟩ | ⟨hs, rfl, rfl⟩ | ⟨hs, rfl, rfl⟩ | ⟨hs, hdata, rfl⟩ | ⟨hs, rfl, rfl⟩ |
    ⟨hs, rfl, rfl⟩ | ⟨hs, hend⟩ | ⟨-, rfl, rfl⟩
  · exact ⟨hd.atAwaitingStart hs b, hf⟩
  · exact ⟨hd.atAwaitingCommand hs b, hf⟩
  · exact ⟨hd.atAwaitingLength hs b, hf⟩
  · exact ⟨hd.atAwaitingData hs hdata, hf⟩
  · exact ⟨hd.atAwaitingCrcLow hs b, hf⟩
  · exact ⟨hd.atAwaitingCrcHigh hs b, hf⟩
  · obtain ⟨rfl, ⟨hframe, hlen, rfl⟩ | ⟨-, rfl⟩⟩ := atAwaitingEnd_eq_ok hend
    · have hdone := (DecRegs.consistent_awaitingEnd_iff hs).1 hd.consistent
      exact ⟨hd.restart _, hf.latch hdone hlen (endResult_eq_frame.1 hframe).2⟩
    · exact ⟨hd.restart _, hf⟩
  · exact ⟨hd.restart _, hf⟩

end

/-! ## The sequencer's part, by its phase -/

section
variable {s t : State}

theorem State.sequencerConsistent_idle_iff (hp : s.txn.phase = .idle) :
    s.sequencerConsistent ↔ s.txn.result = .none ∧ s.txn.lastFail = .none := by
  simp [State.sequencerConsistent, hp]

theorem State.sequencerConsistent_wait_iff (hp : s.txn.phase = .wait) :
    s.sequencerConsistent ↔
      s.txn.attemptCnt.toNat + s.txn.attemptsLeft.toNat = s.cfg.maxAttempts.toNat ∧ 0#8 < s.txn.attemptCnt ∧
        s.txn.result = .none ∧ s.txn.deadlineCnt ≤ s.cfg.timeout ∧ s.txn.pollCnt ≤ s.cfg.pollInterval := by
  simp [State.sequencerConsistent, hp]

theorem State.sequencerConsistent_pace_iff (hp : s.txn.phase = .pace) :
    s.sequencerConsistent ↔
      s.txn.attemptCnt.toNat + s.txn.attemptsLeft.toNat = s.cfg.maxAttempts.toNat ∧ 0#8 < s.txn.attemptCnt ∧
        0#8 < s.txn.attemptsLeft ∧ s.txn.result = .none ∧ s.txn.lastFail ≠ .none ∧
        s.txn.paceCnt ≤ s.params.paceDelay := by
  simp [State.sequencerConsistent, hp]

theorem State.sequencerConsistent_done_iff (hp : s.txn.phase = .done) :
    s.sequencerConsistent ↔ s.txn.result ≠ .none ∧
      (s.txn.result = .noReply → s.txn.lastFail = .none → s.txn.attemptCnt = 0#8) := by
  simp [State.sequencerConsistent, hp]

/-- The sequencer's part speaks of its own registers, the configuration and the parameters. -/
theorem State.sequencerConsistent.congr (h : s.sequencerConsistent) (htxn : t.txn = s.txn) (hcfg : t.cfg = s.cfg)
    (hparams : t.params = s.params) : t.sequencerConsistent := by
  unfold State.sequencerConsistent at h ⊢
  rwa [htxn, hcfg, hparams]

/-- While no transaction runs it does not speak of the configuration, which may then change (43_sequencer.md R91). -/
theorem State.sequencerConsistent.congr_of_free (h : s.sequencerConsistent) (hfree : s.busy = false)
    (htxn : t.txn = s.txn) : t.sequencerConsistent := by
  rcases (State.not_busy_iff s).1 hfree with hp | hp
  · rw [sequencerConsistent_idle_iff (by rw [htxn, hp]), htxn]
    exact (sequencerConsistent_idle_iff hp).1 h
  · rw [sequencerConsistent_done_iff (by rw [htxn, hp]), htxn]
    exact (sequencerConsistent_done_iff hp).1 h

/-- An attempt's send moves one attempt from those left to those counted (43_sequencer.md R96). -/
theorem sendAttempt_sequencer (h : sendAttempt s = .ok t)
    (hsum : s.txn.attemptCnt.toNat + s.txn.attemptsLeft.toNat = s.cfg.maxAttempts.toNat)
    (hleft : 0#8 < s.txn.attemptsLeft) (hresult : s.txn.result = .none) : t.sequencerConsistent := by
  obtain ⟨-, rfl⟩ := sendAttempt_eq_ok h
  refine (State.sequencerConsistent_wait_iff rfl).2
    ⟨?_, ?_, hresult, BitVec.le_refl _, zero_le_half s.cfg.pollInterval⟩
  all_goals
    dsimp only
    bv_omega

/-- A failed attempt ends in PACE with an attempt left, or in DONE with a reason (43_sequencer.md R97). -/
theorem failAttempt_sequencer (h : s.sequencerConsistent) (hp : s.txn.phase = .wait) {r : FailReason}
    (hr : r ≠ .none) : (failAttempt r s).sequencerConsistent := by
  obtain ⟨hsum, hcnt, hresult, -, -⟩ := (State.sequencerConsistent_wait_iff hp).1 h
  rcases failAttempt_cases r s with ⟨hleft, heq⟩ | ⟨-, heq⟩ <;> rw [heq]
  · exact (State.sequencerConsistent_pace_iff rfl).2 ⟨hsum, hcnt, hleft, hresult, hr, BitVec.le_refl _⟩
  · refine (State.sequencerConsistent_done_iff rfl).2 ⟨?_, fun _ hnone => absurd hnone hr⟩
    simp

theorem afterFeed_sequencer (h : s.sequencerConsistent) (hp : s.txn.phase = .wait) :
    (afterFeed s).sequencerConsistent := by
  rcases afterFeed_cases s with ⟨-, heq⟩ | ⟨-, -, heq⟩ | ⟨-, -, heq⟩ | ⟨-, heq⟩ | ⟨-, heq⟩ | ⟨-, heq⟩ <;> rw [heq]
  · exact h
  · exact (State.sequencerConsistent_done_iff rfl).2 (by simp)
  all_goals exact failAttempt_sequencer h hp (by decide)

theorem closeEvent_sequencer (h : s.sequencerConsistent) (hp : s.txn.phase = .wait) :
    (closeEvent s).sequencerConsistent := by
  rcases closeEvent_cases s with ⟨-, heq⟩ | ⟨-, heq⟩ <;> rw [heq]
  · exact failAttempt_sequencer h hp (by decide)
  · obtain ⟨hsum, hcnt, hresult, hdeadline, -⟩ := (State.sequencerConsistent_wait_iff hp).1 h
    exact (State.sequencerConsistent_wait_iff (by exact hp)).2 ⟨hsum, hcnt, hresult, hdeadline, BitVec.le_refl _⟩

theorem satDec_le {n m : Half} (h : n ≤ m) : satDec n ≤ m := by
  have := satDec_toNat n
  bv_omega

/-- TICK only lowers the counters of the phase (43_sequencer.md R101). -/
theorem tickEvent_sequencer (h : s.sequencerConsistent) : (tickEvent s).sequencerConsistent := by
  rcases tickEvent_cases s with ⟨-, heq⟩ | ⟨hp, heq⟩ | ⟨hp, heq⟩ <;> rw [heq]
  · exact h
  · obtain ⟨hsum, hcnt, hresult, hdeadline, hpoll⟩ := (State.sequencerConsistent_wait_iff hp).1 h
    exact (State.sequencerConsistent_wait_iff (by exact hp)).2
      ⟨hsum, hcnt, hresult, satDec_le hdeadline, satDec_le hpoll⟩
  · obtain ⟨hsum, hcnt, hleft, hresult, hfail, hpace⟩ := (State.sequencerConsistent_pace_iff hp).1 h
    exact (State.sequencerConsistent_pace_iff (by exact hp)).2 ⟨hsum, hcnt, hleft, hresult, hfail, satDec_le hpace⟩

/-! ## Every event keeps the invariant -/

/-- What the invariant does not speak of may change: `CRC_ACC`, the host interface, the queues and the schedule. -/
theorem Inv.congr (h : Inv s) (hreq : t.req = s.req) (hdec : t.dec = s.dec) (hfrm : t.frm = s.frm)
    (htxn : t.txn = s.txn) (hcfg : t.cfg = s.cfg) (hparams : t.params = s.params) : Inv t := by
  rw [inv_iff, hreq, hdec, hfrm, hparams]
  exact ⟨h.req, h.dec, h.frm, h.sequencer.congr htxn hcfg hparams⟩

theorem Inv.setStatus (h : Inv s) (c : OpStatus) : Inv (Machine.setStatus c s) := h.congr rfl rfl rfl rfl rfl rfl

theorem Inv.popEvent (h : Inv s) : Inv s.popEvent := h.congr rfl rfl rfl rfl rfl rfl

theorem Inv.with_req (h : Inv s) {r : ReqRegs} (hr : r.Valid s.params.txCap) : Inv { s with req := r } :=
  (inv_iff _).2 ⟨hr, h.dec, h.frm, h.sequencer⟩

theorem Inv.with_cfg_of_free (h : Inv s) (hfree : s.busy = false) (c : CfgRegs) : Inv { s with cfg := c } :=
  (inv_iff _).2 ⟨h.req, h.dec, h.frm, h.sequencer.congr_of_free hfree rfl⟩

theorem Inv.with_receiver (h : Inv s) {d : DecRegs} {f : FrameLatch} (hd : d.Valid s.params.rxCap)
    (hf : f.Valid s.params.rxCap) : Inv { s with dec := d, frm := f } :=
  (inv_iff _).2 ⟨h.req, hd, hf, h.sequencer⟩

/-- An event that writes the sequencer's registers only. -/
theorem Inv.of_sequencer (h : Inv s) (hreq : t.req = s.req) (hdec : t.dec = s.dec) (hfrm : t.frm = s.frm)
    (hparams : t.params = s.params) (hseq : t.sequencerConsistent) : Inv t := by
  rw [inv_iff, hreq, hdec, hfrm, hparams]
  exact ⟨h.req, h.dec, h.frm, hseq⟩

/-- A send restarts the decoder; its sequencer's part is `sendAttempt_sequencer`'s. -/
theorem inv_of_sendAttempt (h : sendAttempt s = .ok t) (hreq : s.req.Valid s.params.txCap)
    (hdec : s.dec.Valid s.params.rxCap) (hfrm : s.frm.Valid s.params.rxCap) (hseq : t.sequencerConsistent) :
    Inv t := by
  obtain ⟨-, rfl⟩ := sendAttempt_eq_ok h
  exact (inv_iff _).2 ⟨hreq, hdec.reset, hfrm, hseq⟩

/-- TXN.START's first send, from no attempt counted and all of them left (43_sequencer.md R95). -/
theorem Inv.startTransaction_send (h : Inv s) (hmax : s.cfg.maxAttempts ≠ 0#8)
    (hsend : sendAttempt (openTransaction s) = .ok t) : Inv t := by
  refine inv_of_sendAttempt hsend h.req h.dec h.frm.invalidate (sendAttempt_sequencer hsend ?_ ?_ rfl)
  · simp
  · rw [openTransaction_txn_attemptsLeft]
    bv_omega

/-- RESEND, from PACE with an attempt left (43_sequencer.md R100). -/
theorem Inv.resend (h : Inv s) (hp : s.txn.phase = .pace) (hsend : sendAttempt s = .ok t) : Inv t := by
  obtain ⟨hsum, -, hleft, hresult, -, -⟩ := (State.sequencerConsistent_pace_iff hp).1 h.sequencer
  exact inv_of_sendAttempt hsend h.req h.dec h.frm (sendAttempt_sequencer hsend hsum hleft hresult)

theorem CommandEffect.inv {i : Instr} (heffect : CommandEffect i s t) (h : Inv s) : Inv t := by
  cases heffect with
  | nop => exact h
  | crcInit | crcByte | encSend | idxLo | idxHi | rd => exact h.congr rfl rfl rfl rfl rfl rfl
  | reqClear => exact h.with_req h.req.clear
  | reqCmd => exact h.with_req ⟨h.req.wf, h.req.within, h.req.len⟩
  | reqPush hfree hlt => exact h.with_req (h.req.push hlt _)
  | decReset => exact h.with_receiver h.dec.reset h.frm
  | decFeed hfree hstep =>
    obtain ⟨hd, hf⟩ := decStep_valid h.dec h.frm hstep
    exact h.with_receiver hd hf
  | cfgAtt hfree | cfgTmol hfree | cfgTmoh hfree | cfgPolll hfree | cfgPollh hfree =>
    exact h.with_cfg_of_free hfree _
  | txnStart_noAttempt =>
    exact (inv_iff _).2
      ⟨h.req, h.dec, h.frm.invalidate, (State.sequencerConsistent_done_iff rfl).2 ⟨by simp, fun _ _ => rfl⟩⟩
  | txnStart_send hfree hmax hsend => exact h.startTransaction_send hmax hsend

theorem commandEvent_inv {w : Half} (h : Inv s) (hc : commandEvent w s = .next t) : Inv t := by
  rcases commandEvent_cases hc with ⟨c, -, rfl⟩ | ⟨i, u, -, heffect, rfl⟩
  · exact h.setStatus c
  · exact (heffect.inv h).setStatus .ok

/-- FEED in WAIT: the byte keeps the decoder's and the latch's part, the decision the sequencer's. -/
theorem feedEvent_inv (h : Inv s) (hp : s.txn.phase = .wait) (hfeed : feedEvent s = .ok t) : Inv t := by
  rcases feedEvent_cases hfeed with ⟨-, rfl⟩ | ⟨b, rest, d, f, -, hstep, rfl⟩
  · exact h
  · obtain ⟨hd, hf⟩ := decStep_valid h.dec h.frm hstep
    have hreceived : Inv { s with rxq := rest, dec := d, frm := f } :=
      (h.with_receiver hd hf).congr rfl rfl rfl rfl rfl rfl
    exact hreceived.of_sequencer (afterFeed_req _) (afterFeed_dec _) (afterFeed_frm _) (afterFeed_params _)
      (afterFeed_sequencer hreceived.sequencer hp)

/-- RESET needs of the state before only that its buffers are in order (70_reset_and_hazards.md R127). -/
theorem resetEvent_inv (h : Inv s) : Inv (resetEvent s) :=
  (inv_iff _).2
    ⟨⟨h.req.wf, h.req.within, zero_le_half s.params.txCap⟩, h.dec.reset,
      ⟨h.frm.wf, h.frm.within, zero_le_half s.params.rxCap, fun hvalid => by cases hvalid⟩,
      (State.sequencerConsistent_idle_iff rfl).2 ⟨rfl, rfl⟩⟩

end

/-- Settles O52, by the kind of the event; FEED and CLOSE are taken in WAIT only, RESEND in PACE only. -/
theorem invariantKept : Obligations.InvariantKept := by
  intro s t hinv h
  have hpop : Inv s.popEvent := hinv.popEvent
  rcases step_cases h with ⟨w, -, hc⟩ | ⟨b, -, rfl⟩ | ⟨-, henabled, hfeed⟩ | ⟨-, henabled, rfl⟩ |
    ⟨-, henabled, hsend⟩ | ⟨-, -, rfl⟩ | ⟨-, rfl⟩
  · exact commandEvent_inv hpop hc
  · exact hpop.congr rfl rfl rfl rfl rfl rfl
  · obtain ⟨hp, -, -⟩ := (feedEnabled_iff s).1 henabled
    exact feedEvent_inv hpop hp hfeed
  · obtain ⟨hp, -, -⟩ := (closeEnabled_iff s).1 henabled
    exact hpop.of_sequencer (closeEvent_req _) (closeEvent_dec _) (closeEvent_frm _) (closeEvent_params _)
      (closeEvent_sequencer hpop.sequencer hp)
  · obtain ⟨hp, -⟩ := (resendEnabled_iff s).1 henabled
    exact hpop.resend hp hsend
  · exact hpop.of_sequencer (tickEvent_req _) (tickEvent_dec _) (tickEvent_frm _) (tickEvent_params _)
      (tickEvent_sequencer hpop.sequencer)
  · exact resetEvent_inv hpop

end Sys2Proof.Machine
end

section
/-! SUPPORT. The bytes of the three buffers at or beyond their lengths (20_memory.md R32): every operation on a state
whose buffers hold other bytes there answers the same state with other bytes there, and so the statement
UnwrittenBytesUnobservable. -/

namespace Sys2Proof.Machine

/-! ## The bytes below a length -/

/-- The bytes at the indices below `n` are the same. -/
def Memory.AgreesBelow (n : Nat) (m m' : Memory) : Prop := ∀ i, i < n → m.read i = m'.read i

theorem Memory.agreesBelow_zero (m m' : Memory) : Memory.AgreesBelow 0 m m' := fun _ hi => absurd hi (Nat.not_lt_zero _)

theorem Memory.read_upTo {m : Memory} {n i : Nat} (hi : i < n) : (m.upTo n).read i = m.read i := by
  induction m with
  | nil => rfl
  | cons cell rest ih =>
    obtain ⟨k, v⟩ := cell
    unfold Memory.upTo at ih ⊢
    by_cases hk : k < n
    · simp [hk, Memory.read, ih]
    · have hne : k ≠ i := by omega
      simp [hk, Memory.read, hne, ih]

theorem Memory.read_upTo_of_le {m : Memory} {n i : Nat} (hi : n ≤ i) : (m.upTo n).read i = unlistedByte := by
  induction m with
  | nil => rfl
  | cons cell rest ih =>
    obtain ⟨k, v⟩ := cell
    unfold Memory.upTo at ih ⊢
    by_cases hk : k < n
    · have hne : k ≠ i := by omega
      simp [hk, Memory.read, hne, ih]
    · simp [hk, ih]

theorem Memory.wfFrom_upTo {m : Memory} {a : Nat} (n : Nat) (h : Memory.wfFrom a m = true) :
    Memory.wfFrom a (m.upTo n) = true := by
  induction m generalizing a with
  | nil => rfl
  | cons cell rest ih =>
    obtain ⟨k, v⟩ := cell
    simp only [Memory.wfFrom, Bool.and_eq_true, decide_eq_true_eq] at h
    obtain ⟨⟨hk, hv⟩, hrest⟩ := h
    have htail := ih hrest
    unfold Memory.upTo at htail ⊢
    by_cases hkn : k < n
    · simp [hkn, Memory.wfFrom, hk, hv, htail]
    · simpa [hkn] using Memory.wfFrom_mono (by omega) htail

/-- What may be read of a canonical buffer is its bytes below the length. -/
theorem Memory.upTo_eq_iff {m m' : Memory} {n : Nat} (hm : m.wf = true) (hm' : m'.wf = true) :
    m.upTo n = m'.upTo n ↔ Memory.AgreesBelow n m m' := by
  constructor
  · intro h i hi
    rw [← Memory.read_upTo hi, h, Memory.read_upTo hi]
  · intro h
    refine Memory.ext (Memory.wfFrom_upTo n hm) (Memory.wfFrom_upTo n hm') fun i => ?_
    rcases Nat.lt_or_ge i n with hi | hi
    · rw [Memory.read_upTo hi, Memory.read_upTo hi, h i hi]
    · rw [Memory.read_upTo_of_le hi, Memory.read_upTo_of_le hi]

/-- The same byte appended at the length. -/
theorem Memory.AgreesBelow.write {n : Nat} {m m' : Memory} (h : Memory.AgreesBelow n m m') (hm : m.wf = true)
    (hm' : m'.wf = true) (b : Byte) : Memory.AgreesBelow (n + 1) (m.write n b) (m'.write n b) := by
  intro i hi
  rw [Memory.read_write _ _ _ hm, Memory.read_write _ _ _ hm']
  split
  · rfl
  · exact h i (by omega)

/-- What is copied hides what it is copied over. -/
theorem Memory.AgreesBelow.copy {n : Nat} {m m' dst dst' : Memory} (h : Memory.AgreesBelow n m m')
    (hdst : dst.wf = true) (hdst' : dst'.wf = true) :
    Memory.AgreesBelow n (Memory.copy m dst n) (Memory.copy m' dst' n) := by
  intro i hi
  rw [Memory.read_copy _ _ _ hdst, Memory.read_copy _ _ _ hdst', if_pos hi, if_pos hi, h i hi]

/-! ## A state with other bytes in its buffers -/

/-- Contents for the three buffers. -/
structure BufferBytes where
  req : Memory
  dec : Memory
  frm : Memory

/-- The state with these contents in its buffers and every register as it is. -/
def State.withBytes (s : State) (m : BufferBytes) : State :=
  { s with
    req := { s.req with buf := m.req }
    dec := { s.dec with buf := m.dec }
    frm := { s.frm with buf := m.frm } }

@[simp] theorem State.withBytes_txn (s : State) (m : BufferBytes) : (s.withBytes m).txn = s.txn := rfl
@[simp] theorem State.withBytes_cfg (s : State) (m : BufferBytes) : (s.withBytes m).cfg = s.cfg := rfl
@[simp] theorem State.withBytes_host (s : State) (m : BufferBytes) : (s.withBytes m).host = s.host := rfl
@[simp] theorem State.withBytes_rxq (s : State) (m : BufferBytes) : (s.withBytes m).rxq = s.rxq := rfl
@[simp] theorem State.withBytes_params (s : State) (m : BufferBytes) : (s.withBytes m).params = s.params := rfl
@[simp] theorem State.withBytes_req_cmd (s : State) (m : BufferBytes) : (s.withBytes m).req.cmd = s.req.cmd := rfl
@[simp] theorem State.withBytes_dec_result (s : State) (m : BufferBytes) :
    (s.withBytes m).dec.result = s.dec.result := rfl
@[simp] theorem State.withBytes_frm_cmd (s : State) (m : BufferBytes) : (s.withBytes m).frm.cmd = s.frm.cmd := rfl

/-- The state's buffers hold these contents below their lengths (20_memory.md R32). -/
structure State.Agrees (s : State) (m : BufferBytes) : Prop where
  req : Memory.AgreesBelow s.req.len.toNat s.req.buf m.req
  dec : Memory.AgreesBelow s.dec.pcount.toNat s.dec.buf m.dec
  frm : Memory.AgreesBelow s.frm.len.toNat s.frm.buf m.frm

/-- States of equal observable part differ in buffer bytes at or beyond the lengths only. -/
theorem exists_withBytes_of_observable_eq {s s' : State} (hinv : Inv s) (hinv' : Inv s')
    (h : s.observable = s'.observable) : ∃ m, s' = s.withBytes m ∧ s.Agrees m := by
  have hs' : s' = s.withBytes ⟨s'.req.buf, s'.dec.buf, s'.frm.buf⟩ := by
    obtain ⟨_, ⟨_, _, _⟩, ⟨_, _, _, _, _, _, _, _, _⟩, ⟨_, _, _, _, _⟩, _, _, _, _, _, _, _⟩ := s
    obtain ⟨_, ⟨_, _, _⟩, ⟨_, _, _, _, _, _, _, _, _⟩, ⟨_, _, _, _, _⟩, _, _, _, _, _, _, _⟩ := s'
    simp_all [State.observable, State.withBytes]
  rw [hs'] at h hinv'
  exact ⟨_, hs',
    (Memory.upTo_eq_iff hinv.reqWf hinv'.reqWf).1 (congrArg (·.req.buf) h),
    (Memory.upTo_eq_iff hinv.decWf hinv'.decWf).1 (congrArg (·.dec.buf) h),
    (Memory.upTo_eq_iff hinv.frmWf hinv'.frmWf).1 (congrArg (·.frm.buf) h)⟩

theorem State.Agrees.observable_eq {s : State} {m : BufferBytes} (h : s.Agrees m) (hinv : Inv s)
    (hinv' : Inv (s.withBytes m)) : s.observable = (s.withBytes m).observable := by
  have hreq := (Memory.upTo_eq_iff hinv.reqWf hinv'.reqWf).2 h.req
  have hdec := (Memory.upTo_eq_iff hinv.decWf hinv'.decWf).2 h.dec
  have hfrm := (Memory.upTo_eq_iff hinv.frmWf hinv'.frmWf).2 h.frm
  simp only [State.observable, State.withBytes] at hreq hdec hfrm ⊢
  rw [hreq, hdec, hfrm]

/-- An operation on a state with other bytes in its buffers follows it: where the one answers a state, so does the
other, and the same but for buffer bytes at or beyond the lengths. -/
def Follows (o o' : Host.Outcome State Fault Refusal) : Prop :=
  ∀ t, o = .next t → ∃ m, o' = .next (t.withBytes m) ∧ t.Agrees m

section
variable {s t : State} {m : BufferBytes}

theorem State.Agrees.follows (h : t.Agrees m) : Follows (.next t) (.next (t.withBytes m)) := by
  rintro _ ⟨⟩
  exact ⟨m, rfl, h⟩

theorem State.Agrees.finishOk (h : t.Agrees m) :
    Follows (Machine.finishOk (.ok t)) (Machine.finishOk (.ok (t.withBytes m))) :=
  State.Agrees.follows (t := setStatus .ok t) ⟨h.req, h.dec, h.frm⟩

theorem State.Agrees.setStatus (h : s.Agrees m) (c : OpStatus) :
    Follows (.next (Machine.setStatus c s)) (.next (Machine.setStatus c (s.withBytes m))) :=
  State.Agrees.follows (t := Machine.setStatus c s) ⟨h.req, h.dec, h.frm⟩

/-- An operation that faults has no state to follow. -/
theorem Follows.finishOk_error {f : Fault} {o : Host.Outcome State Fault Refusal} :
    Follows (Machine.finishOk (.error f)) o := fun _ h => by cases h

theorem Follows.of_ok {r r' : Except Fault State}
    (h : ∀ t, r = .ok t → ∃ m, r' = .ok (t.withBytes m) ∧ t.Agrees m) : Follows (outcome r) (outcome r') := by
  intro t ht
  obtain ⟨m, rfl, hagrees⟩ := h t (outcome_eq_next ht)
  exact ⟨m, rfl, hagrees⟩

theorem Follows.finishOk_of_ok {r r' : Except Fault State}
    (h : ∀ t, r = .ok t → ∃ m, r' = .ok (t.withBytes m) ∧ t.Agrees m) : Follows (finishOk r) (finishOk r') := by
  intro t ht
  obtain ⟨u, hu, rfl⟩ := finishOk_eq_next ht
  obtain ⟨m, rfl, hagrees⟩ := h u hu
  exact hagrees.finishOk _ rfl

/-- The busy check reads the phase only. -/
theorem State.Agrees.unlessBusy (h : s.Agrees m) {o o' : Host.Outcome State Fault Refusal} (hrun : Follows o o') :
    Follows (Machine.unlessBusy s o) (Machine.unlessBusy (s.withBytes m) o') := by
  cases hbusy : s.busy with
  | true =>
    rw [unlessBusy_of_busy hbusy, unlessBusy_of_busy (by exact hbusy)]
    exact h.setStatus .busy
  | false =>
    rwa [unlessBusy_of_not_busy hbusy, unlessBusy_of_not_busy (by exact hbusy)]

/-! ## The request and its frame -/

theorem pushRequest_of_lt {b : Byte} (h : s.req.len < s.params.txCap) :
    pushRequest b s = .ok { s with req :=
      { s.req with buf := s.req.buf.write s.req.len.toNat b, len := s.req.len + 1#16 } } := by
  have hlt : s.req.len.toNat < s.params.txCap.toNat := by simpa [BitVec.lt_def] using h
  simp [pushRequest, Memory.writeIn_of_lt b hlt, Except.map]

theorem State.Agrees.pushRequest (h : s.Agrees m) (hinv : Inv s) (hinv' : Inv (s.withBytes m)) {b : Byte}
    (ht : Machine.pushRequest b s = .ok t) :
    ∃ m', Machine.pushRequest b (s.withBytes m) = .ok (t.withBytes m') ∧ t.Agrees m' := by
  obtain ⟨hlt, rfl⟩ := pushRequest_eq_ok ht
  have hsucc : (s.req.len + 1#16).toNat = s.req.len.toNat + 1 := by bv_omega
  refine ⟨⟨m.req.write s.req.len.toNat b, m.dec, m.frm⟩, pushRequest_of_lt (by exact hlt), ?_, h.dec, h.frm⟩
  simpa only [hsucc] using h.req.write hinv.reqWf hinv'.reqWf b

/-- The frame sent covers bytes below `REQ_LEN` only. -/
theorem State.Agrees.requestFrame (h : s.Agrees m) : (s.withBytes m).requestFrame = s.requestFrame :=
  congrArg (encodeFrame s.req.cmd) (Memory.bytes_congr h.req).symm

theorem State.Agrees.emitRequest (h : s.Agrees m) (ht : Machine.emitRequest s = .ok t) :
    ∃ m', Machine.emitRequest (s.withBytes m) = .ok (t.withBytes m') ∧ t.Agrees m' := by
  obtain ⟨hle, rfl⟩ := emitRequest_eq_ok ht
  refine ⟨m, ?_, h.req, h.dec, h.frm⟩
  calc Machine.emitRequest (s.withBytes m)
      = .ok (emit (s.withBytes m).requestFrame (s.withBytes m)) := emitRequest_of_le (by exact hle)
    _ = .ok ((emit s.requestFrame s).withBytes m) := by rw [h.requestFrame]; rfl

theorem State.Agrees.sendAttempt (h : s.Agrees m) (ht : Machine.sendAttempt s = .ok t) :
    ∃ m', Machine.sendAttempt (s.withBytes m) = .ok (t.withBytes m') ∧ t.Agrees m' := by
  obtain ⟨hle, rfl⟩ := sendAttempt_eq_ok ht
  refine ⟨m, ?_, h.req, Memory.agreesBelow_zero _ _, h.frm⟩
  rw [sendAttempt_of_le (by exact hle), Memory.bytes_congr h.req]
  rfl

theorem State.Agrees.startTransaction (h : s.Agrees m) (ht : Machine.startTransaction s = .ok t) :
    ∃ m', Machine.startTransaction (s.withBytes m) = .ok (t.withBytes m') ∧ t.Agrees m' := by
  have hopen : (openTransaction s).Agrees m := ⟨h.req, h.dec, h.frm⟩
  rcases startTransaction_eq_ok ht with ⟨hmax, rfl⟩ | ⟨hmax, hsend⟩
  · exact ⟨m, if_pos hmax, h.req, h.dec, h.frm⟩
  · obtain ⟨m', hsend', hagrees⟩ := hopen.sendAttempt hsend
    exact ⟨m', (if_neg hmax).trans hsend', hagrees⟩

/-! ## RD (44_readback.md R111, R112) -/

theorem State.Agrees.bufferOf (h : s.Agrees m) (buf : Buffer) :
    Memory.AgreesBelow (bufferLen s buf).toNat (Machine.bufferOf s buf) (Machine.bufferOf (s.withBytes m) buf) := by
  cases buf with
  | req => exact h.req
  | dec => exact h.dec
  | frm => exact h.frm

@[simp] theorem bufferLen_withBytes (s : State) (m : BufferBytes) (buf : Buffer) :
    bufferLen (s.withBytes m) buf = bufferLen s buf := by cases buf <;> rfl

@[simp] theorem bufferCap_withBytes (s : State) (m : BufferBytes) (buf : Buffer) :
    bufferCap (s.withBytes m) buf = bufferCap s buf := by cases buf <;> rfl

theorem selectorValue_withBytes (s : State) (m : BufferBytes) (sel : Byte) :
    selectorValue (s.withBytes m) sel = selectorValue s sel := rfl

/-- RD returns a byte below the length, or turns back with RANGE (44_readback.md R112). -/
theorem State.Agrees.readBuffer (h : s.Agrees m) (buf : Buffer) :
    Follows (Machine.readBuffer buf s) (Machine.readBuffer buf (s.withBytes m)) := by
  unfold Machine.readBuffer Memory.readIn
  simp only [State.withBytes_host, bufferLen_withBytes, bufferCap_withBytes]
  split_ifs with hlen hcap
  · rw [← h.bufferOf buf _ (by simpa [BitVec.lt_def] using hlen)]
    exact State.Agrees.finishOk (t := setResp _ s) ⟨h.req, h.dec, h.frm⟩
  · exact Follows.finishOk_error
  · exact h.setStatus .range

theorem State.Agrees.execRd (h : s.Agrees m) (sel : Byte) :
    Follows (Machine.execRd sel s) (Machine.execRd sel (s.withBytes m)) := by
  unfold Machine.execRd
  rw [selectorValue_withBytes]
  split
  · exact h.readBuffer _
  · split
    · exact State.Agrees.finishOk (t := setResp _ s) ⟨h.req, h.dec, h.frm⟩
    · exact h.setStatus .illegal

end

/-! ## The decoder -/

section
variable {cap : Half} {b : Byte} {d d' : DecRegs} {f f' : FrameLatch} {md mf : Memory}

/-! ### The row of each state (42_decoder.md R75 to R82) -/

theorem decStep_awaitingStart (hs : d.state = .awaitingStart) : decStep cap b d f = .ok (atAwaitingStart b d, f) := by
  simp [decStep, hs]

theorem decStep_awaitingCommand (hs : d.state = .awaitingCommand) :
    decStep cap b d f = .ok (atAwaitingCommand b d, f) := by
  simp [decStep, hs]

theorem decStep_awaitingLength (hs : d.state = .awaitingLength) :
    decStep cap b d f = .ok (atAwaitingLength b d, f) := by
  simp [decStep, hs]

theorem decStep_awaitingData (hs : d.state = .awaitingData) :
    decStep cap b d f = (atAwaitingData cap b d).map fun d' => (d', f) := by
  simp [decStep, hs]

theorem decStep_awaitingCrcLow (hs : d.state = .awaitingCrcLow) :
    decStep cap b d f = .ok (atAwaitingCrcLow b d, f) := by
  simp [decStep, hs]

theorem decStep_awaitingCrcHigh (hs : d.state = .awaitingCrcHigh) :
    decStep cap b d f = .ok (atAwaitingCrcHigh b d, f) := by
  simp [decStep, hs]

theorem decStep_awaitingEnd (hs : d.state = .awaitingEnd) : decStep cap b d f = atAwaitingEnd cap b d f := by
  simp [decStep, hs]

theorem decStep_overflow (hs : d.state = .overflow) : decStep cap b d f = .ok (atOverflow d, f) := by
  simp [decStep, hs]

/-! ### Each row with other bytes in the buffer -/

theorem atAwaitingStart_withBuf :
    atAwaitingStart b { d with buf := md } = { atAwaitingStart b d with buf := md } := by
  unfold atAwaitingStart
  split <;> rfl

theorem atAwaitingLength_withBuf :
    atAwaitingLength b { d with buf := md } = { atAwaitingLength b d with buf := md } := by
  unfold atAwaitingLength
  dsimp only
  split <;> rfl

/-- A start byte restarts the frame with no byte of the buffer written; any other leaves it. -/
theorem atAwaitingStart_agrees (h : Memory.AgreesBelow d.pcount.toNat d.buf md) :
    Memory.AgreesBelow (atAwaitingStart b d).pcount.toNat (atAwaitingStart b d).buf md := by
  unfold atAwaitingStart
  split
  · exact Memory.agreesBelow_zero _ _
  · exact h

theorem atAwaitingLength_agrees (h : Memory.AgreesBelow d.pcount.toNat d.buf md) :
    Memory.AgreesBelow (atAwaitingLength b d).pcount.toNat (atAwaitingLength b d).buf md := by
  unfold atAwaitingLength
  split <;> exact h

/-- A payload byte is stored at `DEC_PCOUNT`, the first byte that may differ (42_decoder.md R78). -/
theorem atAwaitingData_agrees (hd : d.Valid cap) (hmd : md.wf = true)
    (h : Memory.AgreesBelow d.pcount.toNat d.buf md) (hdata : atAwaitingData cap b d = .ok d') :
    ∃ md', atAwaitingData cap b { d with buf := md } = .ok { d' with buf := md' } ∧
      Memory.AgreesBelow d'.pcount.toNat d'.buf md' := by
  rcases atAwaitingData_eq_ok hdata with ⟨hfull, rfl⟩ | ⟨-, hlt, rfl⟩
  · exact ⟨md, if_pos hfull, h⟩
  · have hsucc : (d.pcount + 1#16).toNat = d.pcount.toNat + 1 := by bv_omega
    refine ⟨md.write d.pcount.toNat b, atAwaitingData_of_lt (by exact hlt), ?_⟩
    simpa only [hsucc] using h.write hd.wf hmd b

/-- The latch copies the whole payload, which is stored below `DEC_PCOUNT` (42_decoder.md R81). -/
theorem atAwaitingEnd_agrees (hd : d.Valid cap) (hs : d.state = .awaitingEnd) (hf : f.buf.wf = true)
    (hmf : mf.wf = true) (hdec : Memory.AgreesBelow d.pcount.toNat d.buf md)
    (hfrm : Memory.AgreesBelow f.len.toNat f.buf mf) (hend : atAwaitingEnd cap b d f = .ok (d', f')) :
    ∃ mf', atAwaitingEnd cap b { d with buf := md } { f with buf := mf } =
        .ok ({ d' with buf := md }, { f' with buf := mf' }) ∧
      Memory.AgreesBelow d'.pcount.toNat d'.buf md ∧ Memory.AgreesBelow f'.len.toNat f'.buf mf' := by
  obtain ⟨-, hpcount, -⟩ := (DecRegs.consistent_awaitingEnd_iff hs).1 hd.consistent
  have hres : endResult b { d with buf := md } = endResult b d := rfl
  obtain ⟨rfl, ⟨hframe, hle, rfl⟩ | ⟨hframe, rfl⟩⟩ := atAwaitingEnd_eq_ok hend
  · refine ⟨Memory.copy md mf d.len.toNat, ?_, hdec, Memory.AgreesBelow.copy (hpcount ▸ hdec) hf hmf⟩
    simp [atAwaitingEnd, hres, hframe, latchFrame_of_le (d := { d with buf := md }) hle, Except.map]
  · refine ⟨mf, ?_, hdec, hfrm⟩
    simp only [atAwaitingEnd, hres]

theorem decStep_agrees (hd : d.Valid cap) (hf : f.buf.wf = true) (hmd : md.wf = true) (hmf : mf.wf = true)
    (hdec : Memory.AgreesBelow d.pcount.toNat d.buf md) (hfrm : Memory.AgreesBelow f.len.toNat f.buf mf)
    (h : decStep cap b d f = .ok (d', f')) :
    ∃ md' mf', decStep cap b { d with buf := md } { f with buf := mf } =
        .ok ({ d' with buf := md' }, { f' with buf := mf' }) ∧
      Memory.AgreesBelow d'.pcount.toNat d'.buf md' ∧ Memory.AgreesBelow f'.len.toNat f'.buf mf' := by
  rcases decStep_eq_ok h with ⟨hs, rfl, rfl⟩ | ⟨hs, rfl, rfl⟩ | ⟨hs, rfl, rfl⟩ | ⟨hs, hdata, rfl⟩ | ⟨hs, rfl, rfl⟩ |
    ⟨hs, rfl, rfl⟩ | ⟨hs, hend⟩ | ⟨hs, rfl, rfl⟩
  · exact ⟨md, mf, by rw [decStep_awaitingStart (by exact hs), atAwaitingStart_withBuf],
      atAwaitingStart_agrees hdec, hfrm⟩
  · exact ⟨md, mf, decStep_awaitingCommand (by exact hs), hdec, hfrm⟩
  · exact ⟨md, mf, by rw [decStep_awaitingLength (by exact hs), atAwaitingLength_withBuf],
      atAwaitingLength_agrees hdec, hfrm⟩
  · obtain ⟨md', hdata', hdec'⟩ := atAwaitingData_agrees hd hmd hdec hdata
    exact ⟨md', mf, by rw [decStep_awaitingData (by exact hs), hdata']; rfl, hdec', hfrm⟩
  · exact ⟨md, mf, decStep_awaitingCrcLow (by exact hs), hdec, hfrm⟩
  · exact ⟨md, mf, decStep_awaitingCrcHigh (by exact hs), hdec, hfrm⟩
  · obtain ⟨mf', hend', hdec', hfrm'⟩ := atAwaitingEnd_agrees hd hs hf hmf hdec hfrm hend
    exact ⟨md, mf', by rw [decStep_awaitingEnd (by exact hs), hend'], hdec', hfrm'⟩
  · exact ⟨md, mf, decStep_overflow (by exact hs), hdec, hfrm⟩

end

/-! ## Every event -/

section
variable {s t : State} {m : BufferBytes}

theorem State.Agrees.receiveByte (h : s.Agrees m) (hinv : Inv s) (hinv' : Inv (s.withBytes m)) {b : Byte}
    (ht : Machine.receiveByte b s = .ok t) :
    ∃ m', Machine.receiveByte b (s.withBytes m) = .ok (t.withBytes m') ∧ t.Agrees m' := by
  obtain ⟨d, f, hstep, rfl⟩ := receiveByte_eq_ok ht
  obtain ⟨md, mf, hstep', hdec, hfrm⟩ :=
    decStep_agrees hinv.dec hinv.frmWf hinv'.decWf hinv'.frmWf h.dec h.frm hstep
  exact ⟨⟨m.req, md, mf⟩, congrArg (Except.map _) hstep', h.req, hdec, hfrm⟩

/-- Every command on a state with other bytes at or beyond the lengths (30_encoding.md R53). -/
theorem State.Agrees.exec (h : s.Agrees m) (hinv : Inv s) (hinv' : Inv (s.withBytes m)) (i : Instr) :
    Follows (Machine.exec i s) (Machine.exec i (s.withBytes m)) := by
  cases i with
  | nop => exact h.finishOk
  | crcInit | crcByte | idxLo | idxHi => exact State.Agrees.finishOk ⟨h.req, h.dec, h.frm⟩
  | reqClear => exact h.unlessBusy (State.Agrees.finishOk ⟨Memory.agreesBelow_zero _ _, h.dec, h.frm⟩)
  | reqCmd | cfgAtt | cfgTmol | cfgTmoh | cfgPolll | cfgPollh =>
    exact h.unlessBusy (State.Agrees.finishOk ⟨h.req, h.dec, h.frm⟩)
  | reqPush b =>
    refine h.unlessBusy ?_
    by_cases hfull : s.req.len = s.params.txCap
    · rw [if_pos hfull, if_pos (by exact hfull)]
      exact h.setStatus .full
    · rw [if_neg hfull, if_neg (by exact hfull)]
      exact .finishOk_of_ok fun t => h.pushRequest hinv hinv'
  | encSend => exact h.unlessBusy (.finishOk_of_ok fun t => h.emitRequest)
  | decReset => exact h.unlessBusy (State.Agrees.finishOk ⟨h.req, Memory.agreesBelow_zero _ _, h.frm⟩)
  | decFeed b => exact h.unlessBusy (.finishOk_of_ok fun t => h.receiveByte hinv hinv')
  | rd sel => exact h.execRd sel
  | txnStart => exact h.unlessBusy (.finishOk_of_ok fun t => h.startTransaction)

theorem State.Agrees.commandEvent (h : s.Agrees m) (hinv : Inv s) (hinv' : Inv (s.withBytes m)) (w : Half) :
    Follows (Machine.commandEvent w s) (Machine.commandEvent w (s.withBytes m)) := by
  unfold Machine.commandEvent
  split
  · exact h.exec hinv hinv' _
  · exact h.setStatus .illegal

/-! ### The events that are not commands (10_state.md R28) -/

theorem failAttempt_withBytes (r : FailReason) (s : State) (m : BufferBytes) :
    failAttempt r (s.withBytes m) = (failAttempt r s).withBytes m := by
  rw [failAttempt, failAttempt, apply_ite (State.withBytes · m)]
  rfl

theorem afterFeed_withBytes (s : State) (m : BufferBytes) :
    afterFeed (s.withBytes m) = (afterFeed s).withBytes m := by
  unfold afterFeed
  rw [State.withBytes_dec_result]
  cases s.dec.result with
  | incomplete => rfl
  | frame =>
    dsimp only
    rw [apply_ite (State.withBytes · m), failAttempt_withBytes]
    rfl
  | badChecksum | missingTerminator | overflow => exact failAttempt_withBytes _ _ _

theorem closeEvent_withBytes (s : State) (m : BufferBytes) :
    closeEvent (s.withBytes m) = (closeEvent s).withBytes m := by
  rw [closeEvent, closeEvent, apply_ite (State.withBytes · m), failAttempt_withBytes]
  rfl

theorem tickEvent_withBytes (s : State) (m : BufferBytes) :
    tickEvent (s.withBytes m) = (tickEvent s).withBytes m := by
  unfold tickEvent
  rw [State.withBytes_txn]
  cases s.txn.phase <;> rfl

theorem State.Agrees.feedEvent (h : s.Agrees m) (hinv : Inv s) (hinv' : Inv (s.withBytes m))
    (ht : Machine.feedEvent s = .ok t) :
    ∃ m', Machine.feedEvent (s.withBytes m) = .ok (t.withBytes m') ∧ t.Agrees m' := by
  rcases feedEvent_eq_ok ht with ⟨hempty, rfl⟩ | ⟨b, rest, u, hq, hreceive, rfl⟩
  · exact ⟨m, by simp [Machine.feedEvent, hempty], h⟩
  · have hpopped : ({ s with rxq := rest } : State).Agrees m := ⟨h.req, h.dec, h.frm⟩
    obtain ⟨m', hreceive', hreq, hdec, hfrm⟩ := hpopped.receiveByte
      (hinv.congr rfl rfl rfl rfl rfl rfl) (hinv'.congr rfl rfl rfl rfl rfl rfl) hreceive
    refine ⟨m', ?_, by simpa using hreq, by simpa using hdec, by simpa using hfrm⟩
    calc Machine.feedEvent (s.withBytes m)
        = (Machine.receiveByte b (({ s with rxq := rest } : State).withBytes m)).map afterFeed := by
          simp only [Machine.feedEvent, State.withBytes_rxq, hq]
          rfl
      _ = .ok ((afterFeed u).withBytes m') := by
          rw [hreceive', ← afterFeed_withBytes]
          rfl

/-- Every event on a state with other bytes at or beyond the lengths (10_state.md R28). -/
theorem State.Agrees.performEvent (h : s.Agrees m) (hinv : Inv s) (hinv' : Inv (s.withBytes m)) (e : Event) :
    Follows (Machine.performEvent e s) (Machine.performEvent e (s.withBytes m)) := by
  cases e with
  | cmd w => exact h.commandEvent hinv hinv' w
  | rx b => exact State.Agrees.follows (t := rxEvent b s) ⟨h.req, h.dec, h.frm⟩
  | feed => exact .of_ok fun t => h.feedEvent hinv hinv'
  | close =>
    simp only [Machine.performEvent, closeEvent_withBytes]
    exact State.Agrees.follows ⟨by simpa using h.req, by simpa using h.dec, by simpa using h.frm⟩
  | resend => exact .of_ok fun t => h.sendAttempt
  | tick =>
    simp only [Machine.performEvent, tickEvent_withBytes]
    exact State.Agrees.follows ⟨by simpa using h.req, by simpa using h.dec, by simpa using h.frm⟩
  | reset =>
    exact State.Agrees.follows (t := resetEvent s)
      ⟨Memory.agreesBelow_zero _ _, Memory.agreesBelow_zero _ _, Memory.agreesBelow_zero _ _⟩

theorem nextEvent_withBytes (s : State) (m : BufferBytes) : (s.withBytes m).nextEvent = s.nextEvent := rfl

/-- No event's enabling condition reads a buffer. -/
theorem enabled_withBytes (e : Event) (s : State) (m : BufferBytes) : e.enabled (s.withBytes m) = e.enabled s := by
  cases e <;> rfl

theorem State.Agrees.step (h : s.Agrees m) (hinv : Inv s) (hinv' : Inv (s.withBytes m)) :
    Follows (Machine.step s) (Machine.step (s.withBytes m)) := by
  intro t ht
  obtain ⟨henabled, hperform⟩ := step_eq_next ht
  have henabled' : (s.withBytes m).nextEvent.enabled (s.withBytes m) = true := by
    rwa [nextEvent_withBytes, enabled_withBytes]
  have hpopped : s.popEvent.Agrees m := ⟨h.req, h.dec, h.frm⟩
  rw [step_of_enabled henabled', nextEvent_withBytes]
  exact hpopped.performEvent hinv.popEvent hinv'.popEvent _ t hperform

end

/-- Settles O57: the other state is the first with other bytes at or beyond the lengths; every step keeps them so, and
the invariant, which every step keeps, makes the bytes below the lengths the observable part. -/
theorem unwrittenBytesUnobservable : Obligations.UnwrittenBytesUnobservable := by
  intro s s' t hinv hinv' hobservable ht
  obtain ⟨m, rfl, hagrees⟩ := exists_withBytes_of_observable_eq hinv hinv' hobservable
  obtain ⟨m', ht', hagrees'⟩ := hagrees.step hinv hinv' t ht
  exact ⟨t.withBytes m', ht',
    hagrees'.observable_eq (invariantKept s t hinv ht) (invariantKept _ _ hinv' ht')⟩

end Sys2Proof.Machine
end

section
/-! SUPPORT. What a transaction owns, the order of `RXQ` and the commands that may be repeated: the statements
TransactionOwnsItsState, ReceiveQueueInOrder and IdempotentCommands. -/

namespace Sys2Proof.Machine

/-! ## What a transaction owns (20_memory.md R44, 43_sequencer.md R91) -/

/-- The two states differ in `CRC_ACC`, the host interface, the parameters and the schedule only. -/
structure State.SameOwned (s t : State) : Prop where
  req : t.req = s.req
  dec : t.dec = s.dec
  frm : t.frm = s.frm
  txn : t.txn = s.txn
  cfg : t.cfg = s.cfg
  rxq : t.rxq = s.rxq
  txw : t.txw = s.txw

/-- The commands that take effect while a transaction runs write `CRC_ACC` or the host interface. -/
theorem CommandEffect.sameOwned_of_busy {i : Instr} {s u : State} (h : CommandEffect i s u) (hbusy : s.busy = true) :
    s.SameOwned u := by
  cases h with
  | nop | crcInit | crcByte | idxLo | idxHi | rd => exact ⟨rfl, rfl, rfl, rfl, rfl, rfl, rfl⟩
  | _ => simp_all

theorem commandEvent_sameOwned {w : Half} {s t : State} (hbusy : s.busy = true) (h : commandEvent w s = .next t) :
    s.SameOwned t := by
  rcases commandEvent_cases h with ⟨c, -, rfl⟩ | ⟨i, u, -, heffect, rfl⟩
  · exact ⟨rfl, rfl, rfl, rfl, rfl, rfl, rfl⟩
  · obtain ⟨hreq, hdec, hfrm, htxn, hcfg, hrxq, htxw⟩ := heffect.sameOwned_of_busy hbusy
    exact ⟨hreq, hdec, hfrm, htxn, hcfg, hrxq, htxw⟩

theorem step_of_command {s t : State} {w : Half} (hn : s.nextEvent = .cmd w) (h : step s = .next t) :
    commandEvent w s.popEvent = .next t := by
  obtain ⟨-, hperform⟩ := step_eq_next h
  rwa [hn] at hperform

/-- Settles O38: what would write the owned state is a busy operation, which a transaction turns back. -/
theorem transactionOwnsItsState : Obligations.TransactionOwnsItsState := by
  intro s t w htransaction hn h
  have hbusy : s.popEvent.busy = true := (State.busy_iff _).2 htransaction
  obtain ⟨hreq, hdec, hfrm, htxn, hcfg, hrxq, htxw⟩ := commandEvent_sameOwned hbusy (step_of_command hn h)
  exact ⟨hreq, hdec, hfrm, htxn, hcfg, hrxq, htxw⟩

/-! ## The order of `RXQ` (20_memory.md R37) -/

theorem sendAttempt_rxq {s t : State} (h : sendAttempt s = .ok t) : t.rxq = s.rxq := by
  obtain ⟨-, rfl⟩ := sendAttempt_eq_ok h
  rfl

theorem CommandEffect.rxq_eq {i : Instr} {s u : State} (h : CommandEffect i s u) : u.rxq = s.rxq := by
  cases h with
  | txnStart_send hfree hmax hsend => simpa using sendAttempt_rxq hsend
  | _ => rfl

theorem commandEvent_rxq {w : Half} {s t : State} (h : commandEvent w s = .next t) : t.rxq = s.rxq := by
  rcases commandEvent_cases h with ⟨c, -, rfl⟩ | ⟨i, u, -, heffect, rfl⟩
  · rfl
  · exact heffect.rxq_eq

theorem feedEvent_rxq {s t : State} (hsome : s.rxq ≠ []) (h : feedEvent s = .ok t) : ∃ b, s.rxq = b :: t.rxq := by
  rcases feedEvent_cases h with ⟨hempty, -⟩ | ⟨b, rest, d, f, hq, -, rfl⟩
  · exact absurd hempty hsome
  · exact ⟨b, by rw [hq, afterFeed_rxq]⟩

/-- Settles O56, by the kind of the event; FEED is enabled on a queue that holds a byte. -/
theorem receiveQueueInOrder : Obligations.ReceiveQueueInOrder := by
  intro s t h
  rcases step_cases h with ⟨w, hn, hc⟩ | ⟨b, hn, rfl⟩ | ⟨hn, henabled, hfeed⟩ | ⟨hn, -, rfl⟩ | ⟨hn, -, hsend⟩ |
    ⟨hn, -, rfl⟩ | ⟨hn, rfl⟩ <;> rw [hn]
  · exact commandEvent_rxq (s := s.popEvent) hc
  · rfl
  · obtain ⟨-, -, hsome⟩ := (feedEnabled_iff s).1 henabled
    exact feedEvent_rxq (s := s.popEvent) hsome hfeed
  · exact closeEvent_rxq _
  · exact sendAttempt_rxq (s := s.popEvent) hsend
  · exact tickEvent_rxq _
  · rfl

/-! ## Repeated commands (20_memory.md R35) -/

@[simp] theorem setLo_setLo (h : Half) (b : Byte) : setLo (setLo h b) b = setLo h b := by simp [setLo]

@[simp] theorem setHi_setHi (h : Half) (b : Byte) : setHi (setHi h b) b = setHi h b := by simp [setHi]

/-- A busy operation whose effect is `f` is turned back again, or `f` comes to the same when it is repeated. -/
theorem exec_repeat_of_effect {i : Instr} {f : State → State} {s t : State}
    (hexec : ∀ s, exec i s = unlessBusy s (finishOk (.ok (f s)))) (htxn : (f s).txn = s.txn)
    (hrepeat : setStatus .ok (f (setStatus .ok (f s))) = setStatus .ok (f s)) (h : exec i s = .next t) :
    exec i t = .next t := by
  rw [hexec] at h ⊢
  rcases unlessBusy_eq_next h with ⟨hbusy, rfl⟩ | ⟨hfree, hrun⟩
  · exact unlessBusy_of_busy (by exact hbusy) _
  · obtain rfl : setStatus .ok (f s) = t := by simpa using hrun
    have hfree' : (setStatus .ok (f s)).busy = false := by simpa [State.busy, htxn] using hfree
    rw [unlessBusy_of_not_busy hfree', finishOk_ok, hrepeat]

/-- The values RD reads are no part of what RD writes, but for `OPST` in STATUS (44_readback.md R113). -/
theorem selectorValue_setStatus_setResp {sel : Byte} (hsel : sel ≠ 0x00#8) (c : OpStatus) (v : Half) (s : State) :
    selectorValue (setStatus c (setResp v s)) sel = selectorValue s sel := by
  unfold selectorValue
  split
  · exact absurd rfl hsel
  all_goals rfl

theorem readBuffer_of_lt {buf : Buffer} {s : State} (hlen : s.host.idx < bufferLen s buf)
    (hcap : s.host.idx.toNat < bufferCap s buf) :
    readBuffer buf s = .next (setStatus .ok (setResp (zext16 ((bufferOf s buf).read s.host.idx.toNat)) s)) := by
  simp [readBuffer, hlen, Memory.readIn_of_lt hcap, Except.map]

theorem readBuffer_of_not_lt {buf : Buffer} {s : State} (hlen : ¬ s.host.idx < bufferLen s buf) :
    readBuffer buf s = .next (setStatus .range s) := by
  simp [readBuffer, hlen]

/-- A buffer byte is no part of what RD writes, nor are `IDX` and the length (44_readback.md R112). -/
theorem readBuffer_repeat {buf : Buffer} {s t : State} (h : readBuffer buf s = .next t) :
    readBuffer buf t = .next t := by
  rcases readBuffer_eq_next h with ⟨hlen, hcap, rfl⟩ | ⟨hlen, rfl⟩
  · cases buf <;> exact readBuffer_of_lt hlen hcap
  · cases buf <;> exact readBuffer_of_not_lt hlen

theorem execRd_repeat {sel : Byte} {s t : State} (hsel : sel ≠ 0x00#8) (h : execRd sel s = .next t) :
    execRd sel t = .next t := by
  unfold execRd at h ⊢
  cases hbuf : bufferOfSelector sel with
  | some buf =>
    simp only [hbuf] at h ⊢
    exact readBuffer_repeat h
  | none =>
    simp only [hbuf] at h ⊢
    cases hv : selectorValue s sel with
    | some v =>
      simp only [hv, finishOk_ok, Host.Outcome.next.injEq] at h
      subst h
      simp only [selectorValue_setStatus_setResp hsel, hv]
      rfl
    | none =>
      simp only [hv, Host.Outcome.next.injEq] at h
      subst h
      have hv' : selectorValue (setStatus .illegal s) sel = none :=
        (selectorValue_setStatus_setResp hsel .illegal s.host.resp s).trans hv
      simp only [hv']
      rfl

/-- Settles O58, by the command: a busy operation's effect comes to the same when repeated, and RD reads nothing it
writes but `OPST`, in STATUS. -/
theorem idempotentCommands : Obligations.IdempotentCommands := by
  intro i s t hi h
  cases i with
  | crcByte | reqPush | encSend | decFeed | txnStart => cases hi
  | nop | crcInit =>
    cases h
    rfl
  | idxLo n | idxHi n =>
    cases h
    simp [exec, execIdxLo, execIdxHi, setStatus]
  | rd sel => exact execRd_repeat (by simpa [notIdempotent] using hi) h
  | reqClear | reqCmd | decReset | cfgAtt => exact exec_repeat_of_effect (fun _ => rfl) rfl rfl h
  | cfgTmol | cfgTmoh | cfgPolll | cfgPollh =>
    exact exec_repeat_of_effect (fun _ => rfl) rfl (by simp [setStatus]) h

end Sys2Proof.Machine
end

section
/-! SUPPORT. The command word (30_encoding.md R51 to R56): what every word decodes to, which words are illegal and what
an illegal word does: the statements DecodeOfEncode, EncodeOfDecode, IllegalWords and WrittenOutWordsDecode. -/

namespace Sys2Proof.Machine

/-! ## A command and its word -/

/-- Settles O1, by the command: its OP selects its own row of the command map, and in format Z its IMM is 0. -/
theorem decodeOfEncode : Obligations.DecodeOfEncode := by
  intro i
  rw [encode_eq_bytes]
  cases i with
  | nop | crcInit | reqClear | encSend | decReset | txnStart => rfl
  | _ => simp [decode, Instr.opcode, Instr.operand]

/-- Settles O2: a word that decodes to `i` is `i`'s OP byte above its IMM byte, which is `i`'s encoding. -/
theorem encodeOfDecode : Obligations.EncodeOfDecode := by
  intro w i h
  rw [word_of_decode h, encode_eq_bytes]

/-- Settles O4, by evaluating the decoder on each word. -/
theorem writtenOutWordsDecode : Obligations.WrittenOutWordsDecode :=
  ⟨rfl, rfl, rfl, rfl, rfl, rfl, rfl, rfl⟩

/-! ## The illegal words (30_encoding.md R54) -/

theorem toNat_opField (w : Half) : (opField w).toNat = w.toNat / 256 := toNat_hi w

theorem toNat_immField (w : Half) : (immField w).toNat = w.toNat % 256 := toNat_lo w

/-- The three illegal classes of 30_encoding.md R54 as numbers: a reserved OP, a nonzero IMM in format Z, an `RD` of an
unassigned selector. -/
def IllegalFields (op imm : Nat) : Prop :=
  ((0x03 ≤ op ∧ op ≤ 0x0F) ∨ (0x14 ≤ op ∧ op ≤ 0x1F) ∨ (0x22 ≤ op ∧ op ≤ 0x2F) ∨ (0x33 ≤ op ∧ op ≤ 0x3F) ∨
    (0x45 ≤ op ∧ op ≤ 0x47) ∨ (0x49 ≤ op ∧ op ≤ 0xFF)) ∨
  ((op = 0x00 ∨ op = 0x01 ∨ op = 0x10 ∨ op = 0x13 ∨ op = 0x20 ∨ op = 0x48) ∧ imm ≠ 0) ∨
  (op = 0x32 ∧ ¬ (imm ≤ 0x04 ∨ (0x08 ≤ imm ∧ imm ≤ 0x14) ∨ (0x18 ≤ imm ∧ imm ≤ 0x25) ∨ (0x28 ≤ imm ∧ imm ≤ 0x2A)))

/-- A command's own fields are illegal exactly when the command is not well formed. -/
theorem illegalFields_iff (i : Instr) : IllegalFields i.opcode.toNat i.operand.toNat ↔ i.wellFormed = false := by
  cases i with
  | rd sel => simp [IllegalFields, Instr.opcode, Instr.operand, Instr.wellFormed, assignedSelector, and_assoc]
  | _ => simp [IllegalFields, Instr.opcode, Instr.operand, Instr.wellFormed]

theorem formatZ_eq_error {op imm : Byte} {i : Instr} {e : DecodeReject} (h : formatZ op imm i = .error e) :
    imm ≠ 0x00#8 := by
  rintro rfl
  cases h

/-- A word that is no command has a reserved OP, or a nonzero IMM in format Z (checks 1 and 2 of R55). -/
theorem illegalFields_of_decode_error {w : Half} {e : DecodeReject} (h : decode w = .error e) :
    IllegalFields (opField w).toNat (immField w).toNat := by
  unfold decode at h
  dsimp only at h
  split at h
  case h_19 =>
    left
    have hlt := (opField w).isLt
    simp only [imp_false, ← BitVec.toNat_inj] at *
    bv_omega
  case h_1 hop | h_2 hop | h_4 hop | h_7 hop | h_8 hop | h_18 hop =>
    have himm : (immField w).toNat ≠ 0 := fun hz => formatZ_eq_error h (BitVec.eq_of_toNat_eq hz)
    simp [IllegalFields, hop, himm]
  all_goals cases h


/-- Checks 1, 2 and 4 of 30_encoding.md R55 find exactly the illegal words. -/
theorem illegalFields_iff_decode (w : Half) :
    IllegalFields (opField w).toNat (immField w).toNat ↔
      (∃ e, decode w = .error e) ∨ ∃ i, decode w = .ok i ∧ i.wellFormed = false := by
  cases h : decode w with
  | error e => simpa using illegalFields_of_decode_error h
  | ok i =>
    obtain ⟨hop, himm⟩ := fields_of_decode h
    simp [hop, himm, illegalFields_iff]

/-! ### What an illegal word does -/

theorem exec_of_not_wellFormed {i : Instr} (s : State) (h : i.wellFormed = false) :
    exec i s = .next (s.withOpst .illegal) := by
  cases i with
  | rd sel => exact exec_rd_of_no_value (bufferOfSelector_of_unassigned h) (selectorValue_of_unassigned s h)
  | _ => cases h

theorem commandEvent_of_illegalFields {w : Half} (s : State)
    (h : IllegalFields (opField w).toNat (immField w).toNat) : commandEvent w s = .next (s.withOpst .illegal) := by
  rcases (illegalFields_iff_decode w).1 h with ⟨e, hdecode⟩ | ⟨i, hdecode, hwf⟩
  · simp only [commandEvent, hdecode]
    rfl
  · rw [commandEvent_of_decode hdecode, exec_of_not_wellFormed s hwf]

/-! ### No other word ends ILLEGAL -/

/-- If the outcome is a next state, its `OPST` is not ILLEGAL. -/
def NotIllegal (o : Host.Outcome State Fault Refusal) : Prop := ∀ t, o = .next t → t.host.opst ≠ .illegal

theorem NotIllegal.status {c : OpStatus} {s : State} (hc : c ≠ .illegal) : NotIllegal (.next (setStatus c s)) := by
  rintro t ⟨⟩
  exact hc

theorem NotIllegal.finishOk {r : Except Fault State} : NotIllegal (finishOk r) := by
  intro t h
  obtain ⟨u, -, rfl⟩ := finishOk_eq_next h
  simp

theorem NotIllegal.unlessBusy {s : State} {r : Host.Outcome State Fault Refusal} (hr : NotIllegal r) :
    NotIllegal (unlessBusy s r) := by
  intro t h
  rcases unlessBusy_eq_next h with ⟨-, rfl⟩ | ⟨-, hrun⟩
  · simp
  · exact hr t hrun

theorem NotIllegal.readBuffer {buf : Buffer} {s : State} : NotIllegal (readBuffer buf s) := by
  intro t h
  rcases readBuffer_eq_next h with ⟨-, -, rfl⟩ | ⟨-, rfl⟩ <;> simp

/-- An assigned selector is a buffer's or selects a value (30_encoding.md R54). -/
theorem selectorValue_ne_none {sel : Byte} (s : State) (h : assignedSelector sel = true)
    (hbuf : bufferOfSelector sel = none) : selectorValue s sel ≠ none := by
  intro hnone
  have hreq : sel ≠ 0x04#8 := by rintro rfl; cases hbuf
  have hdec : sel ≠ 0x0F#8 := by rintro rfl; cases hbuf
  have hfrm : sel ≠ 0x13#8 := by rintro rfl; cases hbuf
  unfold selectorValue at hnone
  split at hnone
  case h_33 =>
    simp only [assignedSelector, Bool.or_eq_true, Bool.and_eq_true, decide_eq_true_eq] at h
    simp only [imp_false, ne_eq, ← BitVec.toNat_inj] at *
    bv_omega
  all_goals cases hnone

theorem NotIllegal.execRd {sel : Byte} {s : State} (h : assignedSelector sel = true) : NotIllegal (execRd sel s) := by
  unfold Machine.execRd
  split
  · exact .readBuffer
  next hbuf =>
    split
    · exact .finishOk
    next hnone => exact absurd hnone (selectorValue_ne_none s h hbuf)

theorem NotIllegal.exec {i : Instr} (s : State) (h : i.wellFormed = true) : NotIllegal (exec i s) := by
  cases i with
  | nop | crcInit | crcByte | idxLo | idxHi => exact .finishOk (r := .ok _)
  | rd sel => exact .execRd h
  | reqPush b =>
    refine .unlessBusy ?_
    split
    · exact .status (by decide)
    · exact .finishOk
  | _ => exact .unlessBusy .finishOk

theorem NotIllegal.commandEvent {w : Half} (s : State) (h : ¬ IllegalFields (opField w).toNat (immField w).toNat) :
    NotIllegal (commandEvent w s) := by
  rw [illegalFields_iff_decode] at h
  cases hdecode : decode w with
  | error e => exact absurd (.inl ⟨e, hdecode⟩) h
  | ok i =>
    rw [commandEvent_of_decode hdecode]
    refine .exec s ?_
    by_contra hwf
    exact h (.inr ⟨i, hdecode, by simpa using hwf⟩)

/-- Settles O3: the illegal words are those the decoder rejects and the `RD`s that are not well formed; every other
word is a well-formed command's, and none of those ends ILLEGAL. -/
theorem illegalWords : Obligations.IllegalWords := by
  intro s w
  rw [← toNat_opField, ← toNat_immField]
  exact ⟨commandEvent_of_illegalFields s, NotIllegal.commandEvent s⟩

end Sys2Proof.Machine
end

section
/-! SUPPORT. The wire frame byte by byte (30_encoding.md R47): the statement FrameLayout. -/

namespace Sys2Proof.Machine

theorem lo_eq_ofNat (h : Half) : lo h = BitVec.ofNat 8 (h.toNat % 256) := by
  apply BitVec.eq_of_toNat_eq
  rw [toNat_lo, BitVec.toNat_ofNat]
  omega

theorem hi_eq_ofNat (h : Half) : hi h = BitVec.ofNat 8 (h.toNat / 256) := by
  have hlt := h.isLt
  apply BitVec.eq_of_toNat_eq
  rw [toNat_hi, BitVec.toNat_ofNat]
  omega

/-- The bytes the CRC covers, with the length as two bytes, low byte first (30_encoding.md R47, R48). -/
theorem frameBody_of_length_le {c : Byte} {p : List Byte} (h : p.length ≤ 65535) :
    frameBody c p = [c, BitVec.ofNat 8 (p.length % 256), BitVec.ofNat 8 (p.length / 256)] ++ p := by
  rw [frameBody, lo_ofNat, hi_ofNat h]

/-- The frame is its four leading bytes, the payload and its three trailing bytes (30_encoding.md R47). -/
theorem encodeFrame_of_length_le {c : Byte} {p : List Byte} (h : p.length ≤ 65535) :
    let body := [c, BitVec.ofNat 8 (p.length % 256), BitVec.ofNat 8 (p.length / 256)] ++ p
    let k := (crc16 body).toNat
    encodeFrame c p = 0x55#8 :: (body ++ [BitVec.ofNat 8 (k % 256), BitVec.ofNat 8 (k / 256), 0xAA#8]) := by
  simp [encodeFrame, ← frameBody_of_length_le h, lo_eq_ofNat, hi_eq_ofNat]

/-- Settles O14: each offset of the table falls in the leading bytes, the payload or the trailing bytes. -/
theorem frameLayout : Obligations.FrameLayout := by
  intro c p h
  refine ⟨length_encodeFrame c p, ?_⟩
  rw [encodeFrame_of_length_le h]
  refine ⟨rfl, rfl, rfl, rfl, fun i hi => ?_, ?_, ?_, ?_⟩
  · simp [Nat.add_comm 4, List.getElem?_append_left hi]
  · simp [Nat.add_comm 4]
  · simp [Nat.add_comm 5]
  · simp [Nat.add_comm 6]

end Sys2Proof.Machine
end

section
/-! SUPPORT. The pseudo-instructions (30_encoding.md R57): a list of commands run in order, each command as an
equation, and the statement PseudoInstructionsLoad. -/

namespace Sys2Proof.Machine

/-! ## No command reads or writes the schedule -/

/-- If `o` is a next state, `o'` is that state with the words `ws` ahead of its schedule. -/
def Ahead (ws : List Half) (o o' : Host.Outcome State Fault Refusal) : Prop :=
  ∀ t, o = .next t → o' = .next (t.withCommands ws)

section
variable {ws : List Half} {s : State}

theorem Ahead.next (t : State) : Ahead ws (.next t) (.next (t.withCommands ws)) := by
  rintro _ ⟨⟩
  rfl

theorem Ahead.finishOk {r r' : Except Fault State} (h : ∀ u, r = .ok u → r' = .ok (u.withCommands ws)) :
    Ahead ws (finishOk r) (finishOk r') := by
  intro t ht
  obtain ⟨u, hu, rfl⟩ := finishOk_eq_next ht
  rw [h u hu]
  rfl

theorem Ahead.unlessBusy {o o' : Host.Outcome State Fault Refusal} (h : Ahead ws o o') :
    Ahead ws (unlessBusy s o) (unlessBusy (s.withCommands ws) o') := by
  intro t ht
  rcases unlessBusy_eq_next ht with ⟨hbusy, rfl⟩ | ⟨hfree, hrun⟩
  · exact unlessBusy_of_busy (by exact hbusy) _
  · exact (unlessBusy_of_not_busy (by exact hfree) _).trans (h t hrun)

theorem pushRequest_withCommands {b : Byte} {u : State} (h : pushRequest b s = .ok u) :
    pushRequest b (s.withCommands ws) = .ok (u.withCommands ws) := by
  obtain ⟨hlt, rfl⟩ := pushRequest_eq_ok h
  exact pushRequest_of_lt hlt

theorem emitRequest_withCommands {u : State} (h : emitRequest s = .ok u) :
    emitRequest (s.withCommands ws) = .ok (u.withCommands ws) := by
  obtain ⟨hle, rfl⟩ := emitRequest_eq_ok h
  exact emitRequest_of_le hle

theorem sendAttempt_withCommands {u : State} (h : sendAttempt s = .ok u) :
    sendAttempt (s.withCommands ws) = .ok (u.withCommands ws) := by
  obtain ⟨hle, rfl⟩ := sendAttempt_eq_ok h
  exact sendAttempt_of_le hle

theorem startTransaction_withCommands {u : State} (h : startTransaction s = .ok u) :
    startTransaction (s.withCommands ws) = .ok (u.withCommands ws) := by
  rcases startTransaction_eq_ok h with ⟨hmax, rfl⟩ | ⟨hmax, hsend⟩
  · exact if_pos hmax
  · exact (if_neg hmax).trans (sendAttempt_withCommands hsend)

theorem receiveByte_of_decStep {b : Byte} {d : DecRegs} {f : FrameLatch}
    (h : decStep s.params.rxCap b s.dec s.frm = .ok (d, f)) : receiveByte b s = .ok { s with dec := d, frm := f } := by
  simp [receiveByte, h, Except.map]

theorem receiveByte_withCommands {b : Byte} {u : State} (h : receiveByte b s = .ok u) :
    receiveByte b (s.withCommands ws) = .ok (u.withCommands ws) := by
  obtain ⟨d, f, hstep, rfl⟩ := receiveByte_eq_ok h
  exact receiveByte_of_decStep hstep

theorem Ahead.readBuffer {buf : Buffer} : Ahead ws (readBuffer buf s) (readBuffer buf (s.withCommands ws)) := by
  intro t h
  rcases readBuffer_eq_next h with ⟨hlen, hcap, rfl⟩ | ⟨hlen, rfl⟩
  · cases buf <;> exact readBuffer_of_lt hlen hcap
  · cases buf <;> exact readBuffer_of_not_lt hlen

theorem selectorValue_withCommands (sel : Byte) : selectorValue (s.withCommands ws) sel = selectorValue s sel := rfl

theorem Ahead.execRd {sel : Byte} : Ahead ws (execRd sel s) (execRd sel (s.withCommands ws)) := by
  unfold Machine.execRd
  cases bufferOfSelector sel with
  | some buf => exact .readBuffer
  | none =>
    simp only [selectorValue_withCommands]
    cases selectorValue s sel <;> exact .next _

/-- A command does the same whatever words are to come, and leaves them to come (10_state.md R28; log 1). -/
theorem Ahead.exec (i : Instr) : Ahead ws (exec i s) (exec i (s.withCommands ws)) := by
  cases i with
  | nop | crcInit | crcByte | idxLo | idxHi => exact .next _
  | rd sel => exact .execRd
  | reqPush b =>
    refine .unlessBusy ?_
    by_cases hfull : s.req.len = s.params.txCap
    · rw [if_pos hfull, if_pos (by exact hfull)]
      exact .next _
    · rw [if_neg hfull, if_neg (by exact hfull)]
      exact .finishOk fun _ => pushRequest_withCommands
  | encSend => exact .unlessBusy (.finishOk fun _ => emitRequest_withCommands)
  | decFeed b => exact .unlessBusy (.finishOk fun _ => receiveByte_withCommands)
  | txnStart => exact .unlessBusy (.finishOk fun _ => startTransaction_withCommands)
  | _ => exact .unlessBusy (.next _)

end

/-! ## Commands run in order -/

theorem core_run_succ {s t : State} (n : Nat) (h : step s = .next t) : core.run (n + 1) s = core.run n t := by
  have h' : core.step s = .next t := h
  simp only [Host.Core.run, h']

/-- From `s` the words of the commands `is`, issued in order, end in `t`. -/
def RunsCommands (is : List Instr) (s t : State) : Prop :=
  core.run is.length (s.withCommands (is.map encode)) = .next t

theorem RunsCommands.nil (s : State) : RunsCommands [] s s := rfl

/-- The first command, then the others. -/
theorem RunsCommands.cons {i : Instr} {is : List Instr} {s t u : State} (hi : exec i s = .next t)
    (his : RunsCommands is t u) : RunsCommands (i :: is) s u := by
  have hstep : step (s.withCommands ((i :: is).map encode)) = .next (t.withCommands (is.map encode)) :=
    (stepRunsDecodedCommand _ (encode i) ((is.map encode).map .cmd ++ s.schedule) i rfl (decodeOfEncode i)).trans
      (Ahead.exec i t hi)
  exact (core_run_succ is.length hstep).trans his

theorem RunsCommands.single {i : Instr} {s t : State} (hi : exec i s = .next t) : RunsCommands [i] s t :=
  .cons hi (.nil t)

theorem RunsCommands.run_eq {is : List Instr} {s t : State} {n : Nat} (h : RunsCommands is s t)
    (hn : is.length = n) : core.run n (s.withCommands (is.map encode)) = .next t := hn ▸ h

/-! ## The request with bytes appended (41_encoder.md R71) -/

/-- The request with one byte appended. -/
def ReqRegs.push (r : ReqRegs) (b : Byte) : ReqRegs :=
  { r with buf := r.buf.write r.len.toNat b, len := r.len + 1#16 }

theorem ReqRegs.foldl_push_cmd (bs : List Byte) (r : ReqRegs) : (bs.foldl ReqRegs.push r).cmd = r.cmd := by
  induction bs generalizing r with
  | nil => rfl
  | cons b bs ih => exact ih (r.push b)

theorem ReqRegs.foldl_push_len (bs : List Byte) (r : ReqRegs) :
    (bs.foldl ReqRegs.push r).len = r.len + BitVec.ofNat 16 bs.length := by
  induction bs generalizing r with
  | nil => simp
  | cons b bs ih =>
    rw [List.foldl_cons, ih, List.length_cons, ReqRegs.push]
    bv_omega

/-- Appending bytes keeps `REQ_CMD` and counts `REQ_LEN` up. -/
theorem ReqRegs.foldl_push_eq (bs : List Byte) (r : ReqRegs) :
    bs.foldl ReqRegs.push r =
      { cmd := r.cmd, len := r.len + BitVec.ofNat 16 bs.length, buf := (bs.foldl ReqRegs.push r).buf } := by
  rw [← ReqRegs.foldl_push_len]
  have hcmd := ReqRegs.foldl_push_cmd bs r
  generalize bs.foldl ReqRegs.push r = r' at hcmd
  rw [← hcmd]

theorem ReqRegs.foldl_push_bytes {bs : List Byte} {r : ReqRegs} (hwf : r.buf.wf = true)
    (hlen : r.len.toNat + bs.length ≤ 65535) :
    (bs.foldl ReqRegs.push r).buf.bytes (r.len.toNat + bs.length) = r.buf.bytes r.len.toNat ++ bs := by
  induction bs generalizing r with
  | nil => simp
  | cons b bs ih =>
    rw [List.length_cons] at hlen
    have hsucc : (r.push b).len.toNat = r.len.toNat + 1 := by
      simp only [ReqRegs.push]
      bv_omega
    have hbytes := ih (r := r.push b) (Memory.wf_write _ b hwf) (by omega)
    rw [hsucc] at hbytes
    calc ((b :: bs).foldl ReqRegs.push r).buf.bytes (r.len.toNat + (b :: bs).length)
        = (bs.foldl ReqRegs.push (r.push b)).buf.bytes (r.len.toNat + 1 + bs.length) := by
          rw [List.length_cons, Nat.add_right_comm, ← Nat.add_assoc]
          rfl
      _ = (r.buf.bytes r.len.toNat ++ [b]) ++ bs := by
          rw [hbytes, ReqRegs.push, Memory.bytes_write_end _ b hwf]
      _ = r.buf.bytes r.len.toNat ++ b :: bs := List.append_cons .. |>.symm

/-! ## The commands of the pseudo-instructions, each as an equation -/

theorem State.free.not_busy {s : State} (h : s.free) : s.busy = false := (State.not_busy_iff s).2 h

section
variable {s : State} (h : s.busy = false)
include h

theorem exec_cfgTmol (t : Byte) : exec (.cfgTmol t) s =
    .next (setStatus .ok { s with cfg := { s.cfg with timeout := setLo s.cfg.timeout t } }) :=
  unlessBusy_of_not_busy h _

theorem exec_cfgTmoh (t : Byte) : exec (.cfgTmoh t) s =
    .next (setStatus .ok { s with cfg := { s.cfg with timeout := setHi s.cfg.timeout t } }) :=
  unlessBusy_of_not_busy h _

theorem exec_cfgPolll (p : Byte) : exec (.cfgPolll p) s =
    .next (setStatus .ok { s with cfg := { s.cfg with pollInterval := setLo s.cfg.pollInterval p } }) :=
  unlessBusy_of_not_busy h _

theorem exec_cfgPollh (p : Byte) : exec (.cfgPollh p) s =
    .next (setStatus .ok { s with cfg := { s.cfg with pollInterval := setHi s.cfg.pollInterval p } }) :=
  unlessBusy_of_not_busy h _

theorem exec_reqClear : exec .reqClear s = .next (setStatus .ok { s with req := { s.req with len := 0#16 } }) :=
  unlessBusy_of_not_busy h _

theorem exec_reqCmd (c : Byte) : exec (.reqCmd c) s =
    .next (setStatus .ok { s with req := { s.req with cmd := c } }) :=
  unlessBusy_of_not_busy h _

theorem exec_reqPush_of_lt (b : Byte) (hlt : s.req.len < s.params.txCap) :
    exec (.reqPush b) s = .next (setStatus .ok { s with req := s.req.push b }) := by
  have hne : s.req.len ≠ s.params.txCap := by bv_omega
  refine (unlessBusy_of_not_busy h _).trans ?_
  rw [if_neg hne, pushRequest_of_lt hlt, finishOk_ok]
  rfl

theorem exec_decFeed_of_decStep {b : Byte} {d : DecRegs} {f : FrameLatch}
    (hstep : decStep s.params.rxCap b s.dec s.frm = .ok (d, f)) :
    exec (.decFeed b) s = .next (setStatus .ok { s with dec := d, frm := f }) := by
  refine (unlessBusy_of_not_busy h _).trans ?_
  rw [receiveByte_of_decStep hstep, finishOk_ok]

end

/-! ## The pseudo-instructions -/

/-- A 16-bit register loaded by its low half and then its high half: `put r` is `s` with `r` in the register, which
holds `r₀` before. -/
theorem runsCommands_halves {low high : Byte → Instr} {put : Half → State} {s : State} {r₀ : Half}
    (hlow : ∀ b, exec (low b) s = .next (put (setLo r₀ b)))
    (hhigh : ∀ r b, exec (high b) (put r) = .next (put (setHi r b)))
    (n : Half) : RunsCommands [low (lo n), high (hi n)] s (put n) := by
  have hn : setHi (setLo r₀ (lo n)) (hi n) = n := by simp
  refine .cons (hlow (lo n)) (.single ?_)
  rw [hhigh, hn]

theorem runsCommands_cfgTimeout {s : State} (h : s.busy = false) (n : Half) :
    RunsCommands (Pseudo.cfgTimeout n).expand s (setStatus .ok { s with cfg := { s.cfg with timeout := n } }) :=
  runsCommands_halves (put := fun r => setStatus .ok { s with cfg := { s.cfg with timeout := r } })
    (fun _ => exec_cfgTmol (by exact h) _) (fun _ _ => exec_cfgTmoh (by exact h) _) n

theorem runsCommands_cfgPoll {s : State} (h : s.busy = false) (n : Half) :
    RunsCommands (Pseudo.cfgPoll n).expand s (setStatus .ok { s with cfg := { s.cfg with pollInterval := n } }) :=
  runsCommands_halves (put := fun r => setStatus .ok { s with cfg := { s.cfg with pollInterval := r } })
    (fun _ => exec_cfgPolll (by exact h) _) (fun _ _ => exec_cfgPollh (by exact h) _) n

theorem runsCommands_idx (s : State) (n : Half) :
    RunsCommands (Pseudo.idx n).expand s (setStatus .ok { s with host := { s.host with idx := n } }) :=
  runsCommands_halves (put := fun r => setStatus .ok { s with host := { s.host with idx := r } })
    (r₀ := s.host.idx) (fun _ => rfl) (fun _ _ => rfl) n

/-- `CRC.BYTE` by `CRC.BYTE` is the fold of `crc_step` (40_crc.md R59, R66). -/
theorem runsCommands_crcBytes (s : State) (bs : List Byte) :
    RunsCommands (bs.map .crcByte) (setStatus .ok s)
      (setStatus .ok { s with crcAcc := bs.foldl crcStep s.crcAcc }) := by
  induction bs generalizing s with
  | nil => exact .nil _
  | cons b bs ih => exact .cons rfl (ih { s with crcAcc := crcStep s.crcAcc b })

theorem runsCommands_crcBlock (s : State) (bs : List Byte) :
    RunsCommands (Pseudo.crcBlock bs).expand s (setStatus .ok { s with crcAcc := crc16 bs }) :=
  .cons rfl (runsCommands_crcBytes { s with crcAcc := 0xFFFF#16 } bs)

/-- `REQ.PUSH` by `REQ.PUSH` while there is room (41_encoder.md R71). -/
theorem runsCommands_reqPushes {s : State} {bs : List Byte} (h : s.busy = false)
    (hroom : s.req.len.toNat + bs.length ≤ s.params.txCap.toNat) :
    RunsCommands (bs.map .reqPush) (setStatus .ok s) (setStatus .ok { s with req := bs.foldl ReqRegs.push s.req }) := by
  induction bs generalizing s with
  | nil => exact .nil _
  | cons b bs ih =>
    rw [List.length_cons] at hroom
    have hlt : s.req.len < s.params.txCap := by bv_omega
    have hroom' : (s.req.push b).len.toNat + bs.length ≤ s.params.txCap.toNat := by
      simp only [ReqRegs.push]
      bv_omega
    exact .cons (exec_reqPush_of_lt (by exact h) b hlt) (ih (s := { s with req := s.req.push b }) h hroom')

theorem runsCommands_reqLoad {s : State} {bs : List Byte} (c : Byte) (h : s.busy = false)
    (hroom : bs.length ≤ s.params.txCap.toNat) :
    RunsCommands (Pseudo.reqLoad c bs).expand s
      (setStatus .ok { s with req := bs.foldl ReqRegs.push { s.req with cmd := c, len := 0#16 } }) :=
  .cons (exec_reqClear h) (.cons (exec_reqCmd (by exact h) c)
    (runsCommands_reqPushes (s := { s with req := { s.req with cmd := c, len := 0#16 } }) h (by simpa using hroom)))

theorem feedAll_cons_eq_ok {cap : Half} {b : Byte} {bs : List Byte} {rs : List DecResult} {d d'' : DecRegs}
    {f f'' : FrameLatch} (h : feedAll cap (b :: bs) d f = .ok (rs, d'', f'')) :
    ∃ d' f' rs', decStep cap b d f = .ok (d', f') ∧ feedAll cap bs d' f' = .ok (rs', d'', f'') := by
  unfold feedAll at h
  split at h
  · cases h
  next d' f' hstep =>
    split at h
    · cases h
    next rs' e'' g'' hrest =>
      cases h
      exact ⟨d', f', rs', hstep, hrest⟩

/-- `DEC.FEED` by `DEC.FEED` is `feedAll` (42_decoder.md R85). -/
theorem runsCommands_decFeeds {s : State} {bs : List Byte} {rs : List DecResult} {d : DecRegs} {f : FrameLatch}
    (h : s.busy = false) (hfeed : feedAll s.params.rxCap bs s.dec s.frm = .ok (rs, d, f)) :
    RunsCommands (bs.map .decFeed) (setStatus .ok s) (setStatus .ok { s with dec := d, frm := f }) := by
  induction bs generalizing s rs with
  | nil =>
    cases hfeed
    exact .nil _
  | cons b bs ih =>
    obtain ⟨d', f', rs', hstep, hrest⟩ := feedAll_cons_eq_ok hfeed
    exact .cons (exec_decFeed_of_decStep (by exact h) hstep) (ih (s := { s with dec := d', frm := f' }) h hrest)

/-- A row of at least one byte fed to the decoder ends with status OK whatever the status was before. -/
theorem runsCommands_decFeeds_of_ne_nil {s : State} {bs : List Byte} {rs : List DecResult} {d : DecRegs}
    {f : FrameLatch} (h : s.busy = false) (hne : bs ≠ [])
    (hfeed : feedAll s.params.rxCap bs s.dec s.frm = .ok (rs, d, f)) :
    RunsCommands (Pseudo.decFeeds bs).expand s (setStatus .ok { s with dec := d, frm := f }) := by
  cases bs with
  | nil => exact absurd rfl hne
  | cons b bs =>
    obtain ⟨d', f', rs', hstep, hrest⟩ := feedAll_cons_eq_ok hfeed
    exact .cons (exec_decFeed_of_decStep h hstep)
      (runsCommands_decFeeds (s := { s with dec := d', frm := f' }) h hrest)

/-- Settles O60, one pseudo-instruction after the other. -/
theorem pseudoInstructionsLoad : Obligations.PseudoInstructionsLoad := by
  refine ⟨fun s n hfree => ⟨?_, ?_⟩, fun s n => ?_, fun s c bs hfree hwf hroom => ?_, fun s bs => ?_,
    fun s bs rs d f hfree hne hfeed => ?_⟩
  · exact runsCommands_cfgTimeout hfree.not_busy n
  · exact runsCommands_cfgPoll hfree.not_busy n
  · exact runsCommands_idx s n
  · have hcap := s.params.txCap.isLt
    have hrun := runsCommands_reqLoad c hfree.not_busy hroom
    rw [ReqRegs.foldl_push_eq, BitVec.zero_add] at hrun
    have hbytes := ReqRegs.foldl_push_bytes (bs := bs) (r := { s.req with cmd := c, len := 0#16 }) hwf
      (by simp; omega)
    exact ⟨_, hrun.run_eq (by simp [Pseudo.expand]; omega), by simpa using hbytes⟩
  · exact (runsCommands_crcBlock s bs).run_eq (by simp [Pseudo.expand, Nat.add_comm])
  · exact (runsCommands_decFeeds_of_ne_nil hfree.not_busy hne hfeed).run_eq (by simp [Pseudo.expand])

end Sys2Proof.Machine
end

section
/-! SUPPORT. The CRC function (40_crc.md R58 to R60): it is injective in the accumulator and in the byte, and it shifts
zeros out: the statements SingleBitErrorChangesCrc, CrcResidueIsZero and ComputeCrcOverRange. -/

namespace Sys2Proof.Machine

/-! ## One shift (40_crc.md R58) -/

/-- Each bit moves down by one place, and a bit shifted out as 1 flips the bits of the polynomial. -/
theorem getLsbD_crcShift (acc : Half) (i : Nat) :
    (crcShift acc).getLsbD i = (acc.getLsbD (i + 1) ^^ (acc.getLsbD 0 && (0xA001#16).getLsbD i)) := by
  unfold crcShift
  split
  next hodd => simp [hodd, Nat.add_comm 1]
  next heven =>
    rw [Bool.eq_false_of_not_eq_true heven, BitVec.getLsbD_ushiftRight, Nat.add_comm 1, Bool.false_and, Bool.xor_false]

/-- The polynomial has its top bit, so the top bit of the result is the bit that was shifted out. -/
theorem getLsbD_crcShift_top (acc : Half) : (crcShift acc).getLsbD 15 = acc.getLsbD 0 := by
  rw [getLsbD_crcShift, BitVec.getLsbD_of_ge acc 16 le_rfl]
  simp

theorem crcShift_injective : Function.Injective crcShift := by
  intro a b h
  have hlow : a.getLsbD 0 = b.getLsbD 0 := by
    rw [← getLsbD_crcShift_top, ← getLsbD_crcShift_top, h]
  refine BitVec.eq_of_getLsbD_eq fun i _ => ?_
  cases i with
  | zero => exact hlow
  | succ i =>
    have hbit : (crcShift a).getLsbD i = (crcShift b).getLsbD i := by rw [h]
    rw [getLsbD_crcShift, getLsbD_crcShift, hlow] at hbit
    exact Bool.xor_left_inj.1 hbit

theorem crcShift_of_even {acc : Half} (h : acc.getLsbD 0 = false) : crcShift acc = acc >>> 1 := by
  rw [crcShift, h]
  rfl

/-- While the bits shifted out are 0 the shifts are plain shifts. -/
theorem crcShift_iterate_of_low_zero {acc : Half} {n : Nat} (h : ∀ i < n, acc.getLsbD i = false) :
    crcShift^[n] acc = acc >>> n := by
  induction n with
  | zero => simp
  | succ n ih =>
    have heven : (acc >>> n).getLsbD 0 = false := by simpa using h n (Nat.lt_succ_self n)
    calc crcShift^[n + 1] acc
        = crcShift (acc >>> n) := by
          rw [Function.iterate_succ_apply', ih fun i hi => h i (Nat.lt_succ_of_lt hi)]
      _ = acc >>> (n + 1) := by rw [crcShift_of_even heven, BitVec.shiftRight_add]

/-! ## `crc_step` (40_crc.md R58) -/

theorem crcStep_eq (acc : Half) (b : Byte) : crcStep acc b = crcShift^[8] (acc ^^^ zext16 b) := rfl

theorem zext16_injective : Function.Injective zext16 := by
  intro b b' h
  simpa [zext16_eq_bytes] using congrArg lo h

theorem crcStep_injective_acc (b : Byte) : Function.Injective fun acc => crcStep acc b :=
  (crcShift_injective.iterate 8).comp fun _ _ h => (BitVec.xor_left_inj (zext16 b)).1 h

theorem crcStep_injective_byte (acc : Half) : Function.Injective (crcStep acc) :=
  (crcShift_injective.iterate 8).comp fun _ _ h => zext16_injective ((BitVec.xor_right_inj acc).1 h)

theorem getLsbD_highByte_of_lt (b : Byte) {i : Nat} (hlt : i < 8) : (highByte b).getLsbD i = false := by
  simp [highByte, hlt]

theorem highByte_shiftRight (b : Byte) : highByte b >>> 8 = zext16 b := by
  have hb := b.isLt
  apply BitVec.eq_of_toNat_eq
  simp [highByte, zext16, Nat.shiftLeft_eq, Nat.shiftRight_eq_div_pow]
  omega

theorem xor_zext16_lo (acc : Half) : acc ^^^ zext16 (lo acc) = highByte (hi acc) := by
  rw [zext16_eq_bytes, highByte_eq_bytes]
  conv_lhs => rw [← hi_append_lo acc, lo_bytes, BitVec.xor_append]
  simp

/-- The accumulator's own low byte cancels, and the eight shifts bring its high byte down (40_crc.md R58). -/
theorem crcStep_lo (acc : Half) : crcStep acc (lo acc) = zext16 (hi acc) := by
  rw [crcStep_eq, xor_zext16_lo, crcShift_iterate_of_low_zero fun _ => getLsbD_highByte_of_lt _, highByte_shiftRight]

/-- A byte equal to the whole accumulator leaves zero (40_crc.md R58). -/
theorem crcStep_zext16 (b : Byte) : crcStep (zext16 b) b = 0x0000#16 := by
  rw [crcStep_eq, BitVec.xor_self, crcShift_iterate_of_low_zero fun i _ => BitVec.getLsbD_zero]
  rfl

/-! ## `crc16` (40_crc.md R59, R62) -/

theorem crc16_nil : crc16 [] = 0xFFFF#16 := rfl

theorem crc16_append (s t : List Byte) : crc16 (s ++ t) = t.foldl crcStep (crc16 s) := List.foldl_append

theorem foldl_crcStep_injective (s : List Byte) : Function.Injective fun acc => s.foldl crcStep acc := by
  induction s with
  | nil => exact Function.injective_id
  | cons b s ih => exact ih.comp (crcStep_injective_acc b)

/-- A byte changed changes the CRC: the accumulators differ after it, and the bytes that follow keep them apart. -/
theorem crc16_ne_of_byte_ne {b b' : Byte} (hne : b' ≠ b) (before after : List Byte) :
    crc16 (before ++ b' :: after) ≠ crc16 (before ++ b :: after) := by
  simp only [crc16_append, List.foldl_cons]
  exact (foldl_crcStep_injective after).ne ((crcStep_injective_byte (crc16 before)).ne hne)

theorem flipBit_ne (b : Byte) {bit : Nat} (hbit : bit < 8) : b ^^^ (1#8 <<< bit) ≠ b := by
  intro h
  have hflip : (b ^^^ (1#8 <<< bit)).getLsbD bit = !b.getLsbD bit := by simp [hbit]
  rw [h] at hflip
  simp at hflip

/-- Settles O10: a flipped bit makes another byte, and another byte another CRC. -/
theorem singleBitErrorChangesCrc : Obligations.SingleBitErrorChangesCrc :=
  fun before after b _ hbit => crc16_ne_of_byte_ne (flipBit_ne b hbit) before after

/-- Settles O11: the low byte of the CRC leaves its high byte in the accumulator, and that byte then leaves zero. -/
theorem crcResidueIsZero : Obligations.CrcResidueIsZero := by
  intro body
  calc crc16 (body ++ [lo (crc16 body), hi (crc16 body)])
      = crcStep (crcStep (crc16 body) (lo (crc16 body))) (hi (crc16 body)) := crc16_append ..
    _ = crcStep (zext16 (hi (crc16 body))) (hi (crc16 body)) := by rw [crcStep_lo]
    _ = 0x0000#16 := crcStep_zext16 _

/-! ## `compute_crc` over a range (40_crc.md R60) -/

theorem computeCrc_empty (bytes : List Byte) (first : Int) : computeCrc bytes first (first - 1) = some (crc16 []) :=
  if_pos rfl

theorem computeCrc_of_inside {bytes : List Byte} {first last : Int} (hfirst : 0 ≤ first) (hle : first ≤ last)
    (hlast : last < bytes.length) :
    computeCrc bytes first last = some (crc16 ((bytes.drop first.toNat).take ((last - first).toNat + 1))) := by
  rw [computeCrc, if_neg (by omega), if_pos ⟨hfirst, hle, hlast⟩]

theorem computeCrc_of_outside {bytes : List Byte} {first last : Int} (hne : last ≠ first - 1)
    (hout : ¬ (0 ≤ first ∧ first ≤ last ∧ last < bytes.length)) : computeCrc bytes first last = none := by
  rw [computeCrc, if_neg hne, if_neg hout]

/-- The bytes at the inclusive bounds of `middle` are `middle`. -/
theorem computeCrc_middle {middle : List Byte} (hne : middle ≠ []) (before after : List Byte) :
    computeCrc (before ++ middle ++ after) before.length (before.length + middle.length - 1) =
      some (crc16 middle) := by
  have hpos : 0 < middle.length := List.length_pos_iff.2 hne
  have hlen : ((before.length + middle.length - 1 : Int) - before.length).toNat + 1 = middle.length := by omega
  have hlast : (before.length + middle.length - 1 : Int) < (before ++ middle ++ after).length := by
    rw [List.length_append, List.length_append]
    omega
  rw [computeCrc_of_inside (by omega) (by omega) hlast, hlen]
  simp

/-- Settles O12, one clause for each branch of `compute_crc`. -/
theorem computeCrcOverRange : Obligations.ComputeCrcOverRange :=
  ⟨fun before _ after hne => computeCrc_middle hne before after, computeCrc_empty,
    fun _ _ _ hne hout => computeCrc_of_outside hne (by omega)⟩

end Sys2Proof.Machine
end

section
/-! SUPPORT. The commands `CRC.INIT` and `CRC.BYTE` (40_crc.md R65, R66): the statements CrcInitCommand and
CrcByteCommand. -/

namespace Sys2Proof.Machine

/-! ## The two command formats (30_encoding.md R51, R54) -/

theorem commandEvent_of_decode_error {w : Half} {e : DecodeReject} (h : decode w = .error e) (s : State) :
    commandEvent w s = .next (s.withOpst .illegal) := by
  simp only [commandEvent, h]
  rfl

/-- An OP that selects a format Z row of the command map (30_encoding.md R53) is the format Z command of that row. -/
theorem commandZ_of_decode {op : Byte} {i : Instr} (h : ∀ imm, decode (op ++ imm) = formatZ op imm i) :
    CommandZ op i := by
  refine fun s => ⟨commandEvent_of_decode ((h 0x00#8).trans (if_pos rfl)) s, fun imm himm => ?_⟩
  exact commandEvent_of_decode_error ((h imm).trans (if_neg himm)) s

/-- An OP that selects a format I row of the command map (30_encoding.md R53) is the format I command of that row. -/
theorem commandI_of_decode {op : Byte} {f : Byte → Instr} (h : ∀ imm, decode (op ++ imm) = .ok (f imm)) :
    CommandI op f :=
  fun s imm => commandEvent_of_decode (h imm) s

/-! ## The commands -/

theorem decode_crcInit (imm : Byte) : decode (0x01#8 ++ imm) = formatZ 0x01#8 imm .crcInit := by
  simp [decode]

theorem decode_crcByte (b : Byte) : decode (0x02#8 ++ b) = .ok (.crcByte b) := by
  simp [decode]

theorem exec_crcInit (s : State) : exec .crcInit s = .next (setStatus .ok { s with crcAcc := 0xFFFF#16 }) := rfl

theorem exec_crcByte (b : Byte) (s : State) :
    exec (.crcByte b) s = .next (setStatus .ok { s with crcAcc := crcStep s.crcAcc b }) := rfl

/-- The words of `CRC.INIT` and of one `CRC.BYTE` for each byte. -/
theorem crcBlock_words (bs : List Byte) :
    (Pseudo.crcBlock bs).expand.map encode = 0x0100#16 :: bs.map fun b => 0x02#8 ++ b := by
  simp [Pseudo.expand, encode_eq_bytes, Instr.opcode, Instr.operand]

/-- Settles O8: OP `0x01` is a format Z row, and no phase is tested. -/
theorem crcInitCommand : Obligations.CrcInitCommand :=
  ⟨commandZ_of_decode decode_crcInit, crc16_nil, exec_crcInit⟩

/-- Settles O9: OP `0x02` is a format I row, the corner values are evaluated, and the sequence is the one that
`CRC.BLOCK` expands to. -/
theorem crcByteCommand : Obligations.CrcByteCommand := by
  refine ⟨commandI_of_decode decode_crcByte, fun s b => exec_crcByte b s, crcStep_zext16 0x00#8, ?_, ?_, ?_,
    fun s bs => ?_⟩
  · decide
  · decide
  · decide
  · rw [← crcBlock_words]
    exact (runsCommands_crcBlock s bs).run_eq (by simp [Pseudo.expand])

end Sys2Proof.Machine
end

section
/-! SUPPORT. The commands of the request and the encoder (41_encoder.md R69 to R72): the statements
RequestRegisterCommands, ReqPushCommand and EncSendCommand. -/

namespace Sys2Proof.Machine

/-! ## The busy check (43_sequencer.md R91) -/

/-- A busy operation is turned back before its own rule is read (check 3 of 30_encoding.md R55). -/
theorem exec_of_busy {i : Instr} {s : State} (hi : busyOperation i = true) (hbusy : s.busy = true) :
    exec i s = .next (s.withOpst .busy) := by
  cases i with
  | nop | crcInit | crcByte | idxLo | idxHi | rd => cases hi
  | _ => exact unlessBusy_of_busy hbusy _

theorem refusedWhenBusy {i : Instr} (hi : busyOperation i = true) : RefusedWhenBusy i :=
  fun s htransaction => exec_of_busy hi ((State.busy_iff s).2 htransaction)

/-! ## The rows of the command map (30_encoding.md R53) -/

theorem decode_reqClear (imm : Byte) : decode (0x10#8 ++ imm) = formatZ 0x10#8 imm .reqClear := by
  simp [decode]

theorem decode_reqCmd (c : Byte) : decode (0x11#8 ++ c) = .ok (.reqCmd c) := by
  simp [decode]

theorem decode_reqPush (b : Byte) : decode (0x12#8 ++ b) = .ok (.reqPush b) := by
  simp [decode]

theorem decode_encSend (imm : Byte) : decode (0x13#8 ++ imm) = formatZ 0x13#8 imm .encSend := by
  simp [decode]

/-! ## The commands while no transaction runs -/

section
variable {s : State} (h : s.busy = false)
include h

/-- `REQ.PUSH` on a full buffer (41_encoder.md R71). -/
theorem exec_reqPush_full (b : Byte) (hfull : s.req.len = s.params.txCap) :
    exec (.reqPush b) s = .next (s.withOpst .full) :=
  (unlessBusy_of_not_busy h _).trans (if_pos hfull)

/-- `ENC.SEND` (41_encoder.md R72). -/
theorem exec_encSend (hlen : s.req.len ≤ s.params.txCap) :
    exec .encSend s = .next (setStatus .ok (emit s.requestFrame s)) := by
  refine (unlessBusy_of_not_busy h _).trans ?_
  rw [emitRequest_of_le hlen, finishOk_ok]
  rfl

end

/-! ## The statements -/

/-- Settles O15: OP `0x10` is a format Z row, OP `0x11` a format I row, and both commands are busy operations. -/
theorem requestRegisterCommands : Obligations.RequestRegisterCommands :=
  ⟨commandZ_of_decode decode_reqClear, refusedWhenBusy rfl, fun _ hfree => exec_reqClear hfree.not_busy,
    commandI_of_decode decode_reqCmd, fun _ => refusedWhenBusy rfl, fun _ c hfree => exec_reqCmd hfree.not_busy c⟩

/-- Settles O16: below the capacity the new buffer is the old one written at `REQ_LEN`, which
has room to count one byte more. -/
theorem reqPushCommand : Obligations.ReqPushCommand := by
  refine ⟨commandI_of_decode decode_reqPush, fun b => refusedWhenBusy rfl,
    fun s b hfree hfull => exec_reqPush_full hfree.not_busy b hfull, fun s b hfree hlt hwf => ?_⟩
  have hread (i : Nat) := Memory.read_write (m := s.req.buf) s.req.len.toNat i b hwf
  refine ⟨s.req.buf.write s.req.len.toNat b, exec_reqPush_of_lt hfree.not_busy b hlt, ?_, fun i hi => ?_, ?_, ?_⟩
  · rw [hread, if_pos rfl]
  · rw [hread, if_neg hi]
  · bv_omega
  · bv_omega

/-- Settles O17: OP `0x13` is a format Z row, and what is emitted is the request's frame. -/
theorem encSendCommand : Obligations.EncSendCommand :=
  ⟨commandZ_of_decode decode_encSend, refusedWhenBusy rfl, fun _ hfree hlen => exec_encSend hfree.not_busy hlen⟩

end Sys2Proof.Machine
end

section
/-! SUPPORT. The frames one transaction sends (41_encoder.md R68, 43_sequencer.md R96): the statement
AttemptsSendTheSameFrame. -/

namespace Sys2Proof.Machine

/-! ## Runs -/

theorem RunThrough.last {P : State → Prop} {s t : State} {n : Nat} (h : RunThrough P s n t) : P t := by
  cases h with
  | here hs => exact hs
  | snoc run hstep hu => exact hu

theorem RunThrough.inv {P : State → Prop} {s t : State} {n : Nat} (h : RunThrough P s n t) (hinv : Inv s) : Inv t := by
  induction h with
  | here hs => exact hinv
  | snoc run hstep hu ih => exact invariantKept _ _ ih hstep

/-! ## `ATTEMPT_CNT` and the request under the block's events (43_sequencer.md R97 to R101) -/

@[simp] theorem afterFeed_txn_attemptCnt (s : State) : (afterFeed s).txn.attemptCnt = s.txn.attemptCnt := by
  rcases afterFeed_cases s with ⟨-, h⟩ | ⟨-, -, h⟩ | ⟨-, -, h⟩ | ⟨-, h⟩ | ⟨-, h⟩ | ⟨-, h⟩ <;> simp [h]

@[simp] theorem closeEvent_txn_attemptCnt (s : State) : (closeEvent s).txn.attemptCnt = s.txn.attemptCnt := by
  rcases closeEvent_cases s with ⟨-, h⟩ | ⟨-, h⟩ <;> simp [h]

theorem requestFrame_congr {s t : State} (h : t.req = s.req) : t.requestFrame = s.requestFrame := by
  simp only [State.requestFrame, h]

/-! ## Attempts counted and frames sent -/

/-- From `s` to `t` the request stays, `ATTEMPT_CNT` goes up by `k`, and `TXW` gains `k` copies of the request's
frame. -/
structure State.SendsAttempts (s : State) (k : Nat) (t : State) : Prop where
  req : t.req = s.req
  count : t.txn.attemptCnt.toNat = s.txn.attemptCnt.toNat + k
  wire : t.txw = s.txw ++ (List.replicate k s.requestFrame).flatten

/-- No attempt is sent where the request, the count and the wire stay. -/
theorem State.SendsAttempts.zero {s t : State} (hreq : t.req = s.req)
    (hcount : t.txn.attemptCnt = s.txn.attemptCnt) (hwire : t.txw = s.txw) : s.SendsAttempts 0 t :=
  ⟨hreq, by rw [hcount, Nat.add_zero], by simpa using hwire⟩

theorem State.SendsAttempts.trans {s t u : State} {j k : Nat} (h : s.SendsAttempts j t) (h' : t.SendsAttempts k u) :
    s.SendsAttempts (j + k) u := by
  refine ⟨h'.req.trans h.req, by rw [h'.count, h.count, Nat.add_assoc], ?_⟩
  rw [h'.wire, h.wire, requestFrame_congr h.req, List.replicate_add, List.flatten_append, List.append_assoc]

/-- A command word sends no attempt while a transaction runs: ENC.SEND and TXN.START are turned back
(43_sequencer.md R91). -/
theorem commandEvent_sendsAttempts {w : Half} {s t : State} (hbusy : s.busy = true) (h : commandEvent w s = .next t) :
    s.SendsAttempts 0 t := by
  have howned := commandEvent_sameOwned hbusy h
  exact .zero howned.req (by rw [howned.txn]) howned.txw

theorem feedEvent_sendsAttempts {s t : State} (h : feedEvent s = .ok t) : s.SendsAttempts 0 t := by
  rcases feedEvent_cases h with ⟨-, rfl⟩ | ⟨b, rest, d, f, -, -, rfl⟩
  · exact .zero rfl rfl rfl
  · exact .zero (afterFeed_req _) (afterFeed_txn_attemptCnt _) (afterFeed_txw _)

/-- RESEND sends one attempt. In PACE one is left, so that `ATTEMPT_CNT`, at most `MAX_ATTEMPTS` after it, does not
wrap (43_sequencer.md R104). -/
theorem resend_sendsAttempts {s t : State} (hinv : Inv s) (hp : s.txn.phase = .pace) (h : sendAttempt s = .ok t) :
    s.SendsAttempts 1 t := by
  obtain ⟨hsum, -, hleft, -⟩ := (State.sequencerConsistent_pace_iff hp).1 hinv.sequencer
  obtain ⟨-, rfl⟩ := sendAttempt_eq_ok h
  refine ⟨rfl, ?_, by simp [State.requestFrame]⟩
  dsimp only
  bv_omega

/-- One step inside a transaction: RESEND sends an attempt, RESET would end the transaction, and every other event
sends nothing. -/
theorem step_sendsAttempts {s t : State} (hinv : Inv s) (hs : s.inTransaction) (ht : t.inTransaction)
    (h : step s = .next t) : ∃ k, s.SendsAttempts k t := by
  have hbusy : s.popEvent.busy = true := (State.busy_iff _).2 hs
  have hpop : s.SendsAttempts 0 s.popEvent := .zero rfl rfl rfl
  suffices ∃ k, s.popEvent.SendsAttempts k t from this.imp' (0 + ·) fun _ hk => hpop.trans hk
  rcases step_cases h with ⟨w, -, hc⟩ | ⟨b, -, rfl⟩ | ⟨-, -, hfeed⟩ | ⟨-, -, rfl⟩ | ⟨-, henabled, hsend⟩ |
    ⟨-, -, rfl⟩ | ⟨-, rfl⟩
  · exact ⟨0, commandEvent_sendsAttempts hbusy hc⟩
  · exact ⟨0, .zero rfl rfl rfl⟩
  · exact ⟨0, feedEvent_sendsAttempts hfeed⟩
  · exact ⟨0, .zero (closeEvent_req _) (closeEvent_txn_attemptCnt _) (closeEvent_txw _)⟩
  · obtain ⟨hp, -⟩ := (resendEnabled_iff s).1 henabled
    exact ⟨1, resend_sendsAttempts hinv.popEvent hp hsend⟩
  · exact ⟨0, .zero (tickEvent_req _) (tickEvent_txn_attemptCnt _) (tickEvent_txw _)⟩
  · rcases ht with hwait | hpace
    · cases hwait
    · cases hpace

theorem RunThrough.sendsAttempts {s t : State} {n : Nat} (hinv : Inv s) (h : RunThrough State.inTransaction s n t) :
    ∃ k, s.SendsAttempts k t := by
  induction h with
  | here hs => exact ⟨0, .zero rfl rfl rfl⟩
  | snoc run hstep hu ih =>
    obtain ⟨j, hj⟩ := ih
    obtain ⟨k, hk⟩ := step_sendsAttempts (run.inv hinv) run.last hu hstep
    exact ⟨j + k, hj.trans hk⟩

/-- Settles O50: the copies on the wire are as many as the attempts counted, over any run inside the transaction. -/
theorem attemptsSendTheSameFrame : Obligations.AttemptsSendTheSameFrame := by
  intro s t n hinv hrun
  obtain ⟨k, hk⟩ := hrun.sendsAttempts hinv
  refine ⟨requestFrame_congr hk.req, ?_⟩
  rw [hk.count, Nat.add_sub_cancel_left, hk.wire]

end Sys2Proof.Machine
end

section
/-! SUPPORT. The rows of the transition table of `dec_step` (42_decoder.md R73 to R82), each as an equation: the
statements DecoderStartAndCommandRows, DecoderLengthRow, DecoderDataRow, DecoderCrcRows, DecoderEndRow and
DecoderOverflowRow. -/

namespace Sys2Proof.Machine

/-! ## Two bytes of a field (20_memory.md R38) -/

/-- A field's two bytes as the number they stand for, low byte first. -/
theorem ofNat_low_add_high (low high : Byte) : BitVec.ofNat 16 (low.toNat + 256 * high.toNat) = high ++ low := by
  apply BitVec.eq_of_toNat_eq
  have hbound := (high ++ low : BitVec 16).isLt
  rw [toNat_bytes] at hbound ⊢
  rw [BitVec.toNat_ofNat]
  omega

section
variable {cap : Half} {b : Byte} {d : DecRegs} {f : FrameLatch}

/-! ## The rows -/

/-- A byte other than the start marker is noise (42_decoder.md R75). -/
theorem decStep_noise (hs : d.state = .awaitingStart) (hb : b ≠ 0x55#8) :
    decStep cap b d f = .ok ({ d with result := .incomplete }, f) := by
  rw [decStep_awaitingStart hs, atAwaitingStart, if_neg hb]

/-- The start marker begins a frame (42_decoder.md R74, R75). -/
theorem decStep_startMarker (hs : d.state = .awaitingStart) :
    decStep cap 0x55#8 d f = .ok ({ beginFrame d with state := .awaitingCommand, result := .incomplete }, f) := by
  rw [decStep_awaitingStart hs, atAwaitingStart, if_pos rfl]

/-- The low length byte (42_decoder.md R77). -/
theorem decStep_lengthLow (hs : d.state = .awaitingLength) (hlidx : d.lidx = 0) :
    decStep cap b d f = .ok
      ({ d with crcRun := crcStep d.crcRun b, len := zext16 b, lidx := 1, result := .incomplete }, f) := by
  rw [decStep_awaitingLength hs, atAwaitingLength, if_pos hlidx]

/-- The high length byte completes the length (42_decoder.md R77). -/
theorem decStep_lengthHigh (hs : d.state = .awaitingLength) (hlidx : d.lidx = 1) {low : Byte}
    (hlow : d.len = zext16 low) :
    decStep cap b d f = .ok
      ({ d with
          crcRun := crcStep d.crcRun b, len := b ++ low, lidx := 2, result := .incomplete,
          state := if 0#16 < b ++ low then .awaitingData else .awaitingCrcLow }, f) := by
  have hne : d.lidx ≠ 0 := by simp [hlidx]
  rw [decStep_awaitingLength hs, atAwaitingLength, if_neg hne, hlow, zext16_or_highByte]

/-- A payload byte that finds the buffer full is discarded (42_decoder.md R78). -/
theorem decStep_dataFull (hs : d.state = .awaitingData) (hfull : d.pcount = cap) :
    decStep cap b d f = .ok ({ d with state := .overflow, result := .incomplete }, f) := by
  subst hfull
  rw [decStep_awaitingData hs, atAwaitingData_full]
  rfl

/-- A payload byte below the capacity is stored at `DEC_PCOUNT` (42_decoder.md R78). -/
theorem decStep_dataStore (hs : d.state = .awaitingData) (hlt : d.pcount < cap) :
    decStep cap b d f = .ok
      ({ d with
          buf := d.buf.write d.pcount.toNat b, pcount := d.pcount + 1#16, crcRun := crcStep d.crcRun b,
          result := .incomplete,
          state := if d.pcount + 1#16 = d.len then .awaitingCrcLow else .awaitingData }, f) := by
  rw [decStep_awaitingData hs, atAwaitingData_of_lt hlt]
  rfl

/-- The high CRC byte completes the received CRC (42_decoder.md R80). -/
theorem decStep_crcHigh (hs : d.state = .awaitingCrcHigh) {low : Byte} (hlow : d.crcRx = zext16 low) :
    decStep cap b d f = .ok ({ d with crcRx := b ++ low, state := .awaitingEnd, result := .incomplete }, f) := by
  rw [decStep_awaitingCrcHigh hs, atAwaitingCrcHigh, hlow, zext16_or_highByte]

/-- The terminator is tested first (42_decoder.md R81). -/
theorem decStep_missingTerminator (hs : d.state = .awaitingEnd) (hb : b ≠ 0xAA#8) :
    decStep cap b d f = .ok ({ d with state := .awaitingStart, result := .missingTerminator }, f) := by
  have hresult : endResult b d = .missingTerminator := by simp [endResult, hb]
  rw [decStep_awaitingEnd hs, atAwaitingEnd, hresult]

/-- Behind the terminator the CRCs are compared (42_decoder.md R81). -/
theorem decStep_badChecksum (hs : d.state = .awaitingEnd) (hcrc : d.crcRx ≠ d.crcRun) :
    decStep cap 0xAA#8 d f = .ok ({ d with state := .awaitingStart, result := .badChecksum }, f) := by
  have hresult : endResult 0xAA#8 d = .badChecksum := by simp [endResult, hcrc]
  rw [decStep_awaitingEnd hs, atAwaitingEnd, hresult]

/-- A completed frame is copied to the latch (42_decoder.md R81). -/
theorem decStep_frame (hs : d.state = .awaitingEnd) (hcrc : d.crcRx = d.crcRun) (hlen : d.len ≤ cap) :
    decStep cap 0xAA#8 d f = .ok
      ({ d with state := .awaitingStart, result := .frame },
       { valid := true, cmd := d.cmd, len := d.len, crc := d.crcRx,
         buf := Memory.copy d.buf f.buf d.len.toNat }) := by
  have hresult : endResult 0xAA#8 d = .frame := endResult_eq_frame.2 ⟨rfl, hcrc⟩
  rw [decStep_awaitingEnd hs, atAwaitingEnd, hresult, latchFrame_of_le hlen]
  rfl

end

/-! ## The statements -/

/-- Settles O20: the two rows of AwaitingStart by the byte, and R76's row, whose CRC starts from `0xFFFF`. -/
theorem decoderStartAndCommandRows : Obligations.DecoderStartAndCommandRows := by
  refine fun cap b d f => ⟨fun hs hb => ?_, decStep_noise, decStep_awaitingCommand, fun hrun => ?_⟩
  · subst hb
    exact decStep_startMarker hs
  · rw [hrun]
    rfl

/-- Settles O21: the length is the two bytes `b ++ low`, which are 0 exactly when the number they stand for is. -/
theorem decoderLengthRow : Obligations.DecoderLengthRow := by
  refine fun cap b d f hs => ⟨fun hlidx => ?_, fun hlidx low hlow => ?_⟩
  · rw [← zext16_eq_ofNat]
    exact decStep_lengthLow hs hlidx
  · have hpos : 0#16 < b ++ low ↔ 0 < low.toNat + 256 * b.toNat := by
      rw [BitVec.lt_def, toNat_bytes, Nat.add_comm]
      rfl
    rw [← zext16_eq_ofNat] at hlow
    simpa only [ofNat_low_add_high, hpos] using decStep_lengthHigh (cap := cap) (b := b) (f := f) hs hlidx hlow

/-- Settles O22: the new buffer is the old one written at `DEC_PCOUNT`. -/
theorem decoderDataRow : Obligations.DecoderDataRow := by
  refine fun cap b d f hs => ⟨decStep_dataFull hs, fun hlt hwf => ?_⟩
  have hread (i : Nat) := Memory.read_write d.pcount.toNat i b hwf
  exact ⟨_, decStep_dataStore hs hlt, by rw [hread, if_pos rfl], fun i hi => by rw [hread, if_neg hi]⟩

/-- Settles O23: in AwaitingCrcHigh a consistent decoder's payload is complete. -/
theorem decoderCrcRows : Obligations.DecoderCrcRows := by
  refine fun cap b d f => ⟨fun hs => ?_, fun hs low hlow => ?_, fun hs hconsistent => ?_⟩
  · rw [← zext16_eq_ofNat]
    exact decStep_awaitingCrcLow hs
  · rw [← zext16_eq_ofNat] at hlow
    rw [ofNat_low_add_high]
    exact decStep_crcHigh hs hlow
  · obtain ⟨⟨-, hpcount, hrun⟩, -⟩ := (DecRegs.consistent_awaitingCrcHigh_iff hs).1 hconsistent
    rw [hrun, DecRegs.covered, hpcount]

/-- Settles O24: the three results of R81; FRAME's latch holds a copy of the payload. -/
theorem decoderEndRow : Obligations.DecoderEndRow := by
  refine fun cap b d f hs => ⟨decStep_missingTerminator hs, fun hb hcrc => ?_, fun hb hcrc hlen hwf => ?_⟩
  · subst hb
    exact decStep_badChecksum hs hcrc
  · subst hb
    exact ⟨_, decStep_frame hs hcrc hlen, fun i => Memory.read_copy d.buf d.len.toNat i hwf⟩

/-- Settles O25: R82's row, the same for every byte. -/
theorem decoderOverflowRow : Obligations.DecoderOverflowRow :=
  fun _ _ _ _ hs => decStep_overflow hs

end Sys2Proof.Machine
end

section
/-! SUPPORT. The commands `DEC.RESET` and `DEC.FEED` (42_decoder.md R84, R85): the statements DecResetCommand and
DecFeedCommand. -/

namespace Sys2Proof.Machine

theorem decode_decReset (imm : Byte) : decode (0x20#8 ++ imm) = formatZ 0x20#8 imm .decReset := by
  simp [decode]

theorem decode_decFeed (b : Byte) : decode (0x21#8 ++ b) = .ok (.decFeed b) := by
  simp [decode]

theorem exec_decReset {s : State} (h : s.busy = false) :
    exec .decReset s = .next (setStatus .ok { s with dec := decReset s.dec }) :=
  unlessBusy_of_not_busy h _

/-- A byte at AwaitingEnd ends the frame, with one result or another (42_decoder.md R81). -/
theorem decStep_awaitingEnd_terminal {cap : Half} {d : DecRegs} (hs : d.state = .awaitingEnd) (hlen : d.len ≤ cap)
    (b : Byte) (f : FrameLatch) :
    ∃ d' f', decStep cap b d f = .ok (d', f') ∧ d'.result ≠ .incomplete ∧ d'.state = .awaitingStart := by
  by_cases hb : b = 0xAA#8
  · subst hb
    by_cases hcrc : d.crcRx = d.crcRun
    · exact ⟨_, _, decStep_frame hs hcrc hlen, by simp, rfl⟩
    · exact ⟨_, _, decStep_badChecksum hs hcrc, by simp, rfl⟩
  · exact ⟨_, _, decStep_missingTerminator hs hb, by simp, rfl⟩

/-- `dec_step` answers in every state: a payload byte is stored within the capacity, and a frame copied within it
(42_decoder.md R73). -/
theorem decStep_answers {cap : Half} {d : DecRegs} (hpcount : d.state = .awaitingData → d.pcount ≤ cap)
    (hlen : d.state = .awaitingEnd → d.len ≤ cap) (b : Byte) (f : FrameLatch) :
    ∃ d' f', decStep cap b d f = .ok (d', f') := by
  cases hs : d.state with
  | awaitingStart => exact ⟨_, _, decStep_awaitingStart hs⟩
  | awaitingCommand => exact ⟨_, _, decStep_awaitingCommand hs⟩
  | awaitingLength => exact ⟨_, _, decStep_awaitingLength hs⟩
  | awaitingData =>
    by_cases hfull : d.pcount = cap
    · exact ⟨_, _, decStep_dataFull hs hfull⟩
    · have hlt : d.pcount < cap := by
        have := hpcount hs
        bv_omega
      exact ⟨_, _, decStep_dataStore hs hlt⟩
  | awaitingCrcLow => exact ⟨_, _, decStep_awaitingCrcLow hs⟩
  | awaitingCrcHigh => exact ⟨_, _, decStep_awaitingCrcHigh hs⟩
  | awaitingEnd =>
    obtain ⟨d', f', hstep, -, -⟩ := decStep_awaitingEnd_terminal hs (hlen hs) b f
    exact ⟨d', f', hstep⟩
  | overflow => exact ⟨_, _, decStep_overflow hs⟩

/-- Settles O18: OP `0x20` is a format Z row, and the command is a busy operation. -/
theorem decResetCommand : Obligations.DecResetCommand :=
  ⟨commandZ_of_decode decode_decReset, refusedWhenBusy rfl, fun _ hfree => exec_decReset hfree.not_busy⟩

/-- Settles O19: OP `0x21` is a format I row, the command is a busy operation, and `dec_step` answers within the
capacity. -/
theorem decFeedCommand : Obligations.DecFeedCommand := by
  refine ⟨commandI_of_decode decode_decFeed, fun _ => refusedWhenBusy rfl, fun s b hfree hpcount hlen => ?_⟩
  obtain ⟨d, f, hstep⟩ := decStep_answers hpcount hlen b s.frm
  exact ⟨d, f, hstep, exec_decFeed_of_decStep hfree.not_busy hstep⟩

end Sys2Proof.Machine
end

section
/-! SUPPORT. The decoder fed a row of bytes: what it holds after noise, after a frame's header and payload, and before
a frame's last byte (42_decoder.md R74 to R81). -/

namespace Sys2Proof.Machine

/-! ## Rows of bytes put together -/

section
variable {cap : Half} {b : Byte} {bs bs' : List Byte} {rs rs' : List DecResult} {d d' d'' : DecRegs}
  {f f' f'' : FrameLatch}

theorem feedAll_cons (hstep : decStep cap b d f = .ok (d', f')) (hrest : feedAll cap bs d' f' = .ok (rs, d'', f'')) :
    feedAll cap (b :: bs) d f = .ok (d'.result :: rs, d'', f'') := by
  simp [feedAll, hstep, hrest]

theorem feedAll_single (hstep : decStep cap b d f = .ok (d', f')) : feedAll cap [b] d f = .ok ([d'.result], d', f') :=
  feedAll_cons hstep rfl

theorem feedAll_append (h : feedAll cap bs d f = .ok (rs, d', f')) (h' : feedAll cap bs' d' f' = .ok (rs', d'', f'')) :
    feedAll cap (bs ++ bs') d f = .ok (rs ++ rs', d'', f'') := by
  induction bs generalizing d f rs with
  | nil =>
    cases h
    exact h'
  | cons b bs ih =>
    obtain ⟨e, g, rs₁, hstep, hrest⟩ := feedAll_cons_eq_ok h
    cases (feedAll_cons hstep hrest).symm.trans h
    exact feedAll_cons hstep (ih hrest)

end

/-- The bytes take the decoder from `d` to `d'`, each with the result INCOMPLETE and none touching the latch. -/
def QuietFeed (cap : Half) (bs : List Byte) (d d' : DecRegs) : Prop :=
  ∀ f, feedAll cap bs d f = .ok (List.replicate bs.length .incomplete, d', f)

section
variable {cap : Half} {b : Byte} {bs bs' : List Byte} {d d' d'' : DecRegs}

theorem QuietFeed.nil (d : DecRegs) : QuietFeed cap [] d d := fun _ => rfl

theorem QuietFeed.single (hstep : ∀ f, decStep cap b d f = .ok (d', f)) (hresult : d'.result = .incomplete) :
    QuietFeed cap [b] d d' := fun f => by
  rw [feedAll_single (hstep f), hresult]
  rfl

theorem QuietFeed.append (h : QuietFeed cap bs d d') (h' : QuietFeed cap bs' d' d'') :
    QuietFeed cap (bs ++ bs') d d'' := fun f => by
  rw [feedAll_append (h f) (h' f), List.replicate_append_replicate, List.length_append]

theorem QuietFeed.cons (hstep : ∀ f, decStep cap b d f = .ok (d', f)) (hresult : d'.result = .incomplete)
    (h : QuietFeed cap bs d' d'') : QuietFeed cap (b :: bs) d d'' :=
  (QuietFeed.single hstep hresult).append h

/-- The byte after a quiet row gives the row's one result that may differ. -/
theorem QuietFeed.last {f f'' : FrameLatch} (h : QuietFeed cap bs d d') (hstep : decStep cap b d' f = .ok (d'', f'')) :
    feedAll cap (bs ++ [b]) d f = .ok (List.replicate bs.length .incomplete ++ [d''.result], d'', f'') :=
  feedAll_append (h f) (feedAll_single hstep)

end

/-- Noise without the start marker is quiet and leaves the decoder in AwaitingStart (42_decoder.md R87). -/
theorem quietFeed_noise {cap : Half} {noise : List Byte} {d : DecRegs} (hnoise : ∀ b ∈ noise, b ≠ 0x55#8)
    (hs : d.state = .awaitingStart) :
    ∃ d', QuietFeed cap noise d d' ∧ d'.state = .awaitingStart ∧ d'.buf = d.buf := by
  induction noise generalizing d with
  | nil => exact ⟨d, .nil d, hs, rfl⟩
  | cons b noise ih =>
    obtain ⟨hb, hrest⟩ := List.forall_mem_cons.1 hnoise
    obtain ⟨d', hquiet, hs', hbuf⟩ := ih (d := { d with result := .incomplete }) hrest hs
    exact ⟨d', .cons (fun _ => decStep_noise hs hb) rfl hquiet, hs', hbuf⟩

/-! ## A payload in the buffer -/

/-- The buffer with the bytes of a payload written from index 0 up. -/
def Memory.load (m : Memory) (p : List Byte) : Memory := p.zipIdx.foldl (fun m byte => m.write byte.2 byte.1) m

theorem Memory.load_concat (m : Memory) (p : List Byte) (b : Byte) :
    m.load (p ++ [b]) = (m.load p).write p.length b := by
  simp [Memory.load, List.zipIdx_append]

theorem Memory.wf_load {m : Memory} (p : List Byte) (h : m.wf = true) : (m.load p).wf = true := by
  induction p using List.reverseRecOn with
  | nil => exact h
  | append_singleton p b ih =>
    rw [Memory.load_concat]
    exact Memory.wf_write _ b ih

theorem Memory.bytes_load {m : Memory} (p : List Byte) (h : m.wf = true) : (m.load p).bytes p.length = p := by
  induction p using List.reverseRecOn with
  | nil => rfl
  | append_singleton p b ih =>
    rw [Memory.load_concat, List.length_append, List.length_singleton, Memory.bytes_write_end _ b (Memory.wf_load p h),
      ih]

/-! ## The decoder after a header and payload bytes -/

/-- The decoder `d` of AwaitingCommand after the command `c`, the length `n` and the payload bytes `p`
(42_decoder.md R76 to R78). -/
def DecRegs.receive (d : DecRegs) (c : Byte) (n : Half) (p : List Byte) : DecRegs :=
  { d with
    state := if p.length = n.toNat then .awaitingCrcLow else .awaitingData
    lidx := 2
    cmd := c
    len := n
    pcount := BitVec.ofNat 16 p.length
    buf := d.buf.load p
    crcRun := (c :: lo n :: hi n :: p).foldl crcStep d.crcRun
    result := .incomplete }

section
variable {cap : Half} {d : DecRegs}

/-- Command and length (42_decoder.md R76, R77). -/
theorem quietFeed_header (hs : d.state = .awaitingCommand) (hlidx : d.lidx = 0) (hpcount : d.pcount = 0#16)
    (c : Byte) (n : Half) : QuietFeed cap [c, lo n, hi n] d (d.receive c n []) := by
  refine .cons (fun _ => decStep_awaitingCommand hs) rfl
    (.cons (fun _ => decStep_lengthLow rfl (by exact hlidx)) rfl (.single (fun f => ?_) rfl))
  have hstate : (if 0#16 < n then DecState.awaitingData else .awaitingCrcLow) =
      if 0 = n.toNat then .awaitingCrcLow else .awaitingData := by
    rcases Nat.eq_zero_or_pos n.toNat with hzero | hpos
    · rw [if_neg (by bv_omega), if_pos hzero.symm]
    · rw [if_pos (by bv_omega), if_neg (by omega)]
  rw [decStep_lengthHigh rfl rfl rfl, hi_append_lo, hstate]
  simp [DecRegs.receive, atAwaitingCommand, Memory.load, hpcount]

/-- One payload byte more (42_decoder.md R78). -/
theorem decStep_receive {c b : Byte} {n : Half} {p : List Byte} (f : FrameLatch) (hlen : p.length < n.toNat)
    (hcap : p.length < cap.toNat) :
    decStep cap b (d.receive c n p) f = .ok (d.receive c n (p ++ [b]), f) := by
  have hn := n.isLt
  have hs : (d.receive c n p).state = .awaitingData := if_neg (by omega)
  have hpcount : (d.receive c n p).pcount.toNat = p.length := Nat.mod_eq_of_lt (by omega)
  have hlast : BitVec.ofNat 16 p.length + 1#16 = n ↔ p.length + 1 = n.toNat := by bv_omega
  rw [decStep_dataStore hs (by bv_omega), hpcount]
  simp [DecRegs.receive, hlast, Memory.load_concat, BitVec.ofNat_add]

/-- A header and payload bytes within the length and the capacity (42_decoder.md R76 to R78). -/
theorem quietFeed_receive (hs : d.state = .awaitingCommand) (hlidx : d.lidx = 0) (hpcount : d.pcount = 0#16)
    (c : Byte) {n : Half} {p : List Byte} (hlen : p.length ≤ n.toNat) (hcap : p.length ≤ cap.toNat) :
    QuietFeed cap ([c, lo n, hi n] ++ p) d (d.receive c n p) := by
  induction p using List.reverseRecOn with
  | nil => exact quietFeed_header hs hlidx hpcount c n
  | append_singleton p b ih =>
    rw [List.length_append, List.length_singleton] at hlen hcap
    rw [← List.append_assoc]
    exact (ih (by omega) (by omega)).append (.single (fun f => decStep_receive f hlen hcap) rfl)

/-! ## A frame up to its last byte -/

/-- The decoder with the CRC `k` received, before the last byte of a frame (42_decoder.md R79, R80). -/
def DecRegs.withCrc (d : DecRegs) (k : Half) : DecRegs :=
  { d with state := .awaitingEnd, crcRx := k, result := .incomplete }

theorem quietFeed_crc (hs : d.state = .awaitingCrcLow) (k : Half) :
    QuietFeed cap [lo k, hi k] d (d.withCrc k) := by
  refine .cons (fun _ => decStep_awaitingCrcLow hs) rfl (.single (fun f => ?_) rfl)
  rw [decStep_crcHigh rfl rfl, hi_append_lo]
  rfl

/-- From AwaitingCommand, all bytes of a frame that fits but the last (42_decoder.md R76 to R80). -/
theorem quietFeed_withCrc (hs : d.state = .awaitingCommand) (hlidx : d.lidx = 0) (hpcount : d.pcount = 0#16)
    (c : Byte) {n : Half} {p : List Byte} (k : Half) (hlen : p.length = n.toNat) (hcap : p.length ≤ cap.toNat) :
    QuietFeed cap ([c, lo n, hi n] ++ p ++ [lo k, hi k]) d ((d.receive c n p).withCrc k) :=
  (quietFeed_receive hs hlidx hpcount c hlen.le hcap).append (quietFeed_crc (if_pos hlen) k)

/-- The decoder of AwaitingCommand that a start marker leaves (42_decoder.md R74, R75). -/
def DecRegs.begin (d : DecRegs) : DecRegs :=
  { beginFrame d with state := .awaitingCommand, result := .incomplete }

theorem quietFeed_begin (hs : d.state = .awaitingStart) : QuietFeed cap [0x55#8] d d.begin :=
  .single (fun _ => decStep_startMarker hs) rfl

/-- A frame but for its last byte, with any length and any CRC in its fields (30_encoding.md R47). -/
def openFrame (c : Byte) (n : Half) (p : List Byte) (k : Half) : List Byte :=
  0x55#8 :: ([c, lo n, hi n] ++ p ++ [lo k, hi k])

/-- The decoder before the last byte of a frame. -/
def DecRegs.readOpenFrame (d : DecRegs) (c : Byte) (n : Half) (p : List Byte) (k : Half) : DecRegs :=
  (d.begin.receive c n p).withCrc k

theorem DecRegs.readOpenFrame_crcRun (d : DecRegs) (c : Byte) (n : Half) (p : List Byte) (k : Half) :
    (d.readOpenFrame c n p k).crcRun = crc16 ([c, lo n, hi n] ++ p) := rfl

theorem encodeFrame_eq_openFrame (c : Byte) (p : List Byte) :
    encodeFrame c p = openFrame c (BitVec.ofNat 16 p.length) p (crc16 (frameBody c p)) ++ [0xAA#8] := by
  simp [encodeFrame, openFrame, frameBody]

@[simp] theorem length_openFrame (c : Byte) (n : Half) (p : List Byte) (k : Half) :
    (openFrame c n p k).length = 6 + p.length := by
  simp [openFrame]
  omega

theorem quietFeed_openFrame (hs : d.state = .awaitingStart) (c : Byte) {n : Half} {p : List Byte} (k : Half)
    (hlen : p.length = n.toNat) (hcap : p.length ≤ cap.toNat) :
    QuietFeed cap (openFrame c n p k) d (d.readOpenFrame c n p k) :=
  (quietFeed_begin hs).append (quietFeed_withCrc rfl rfl rfl c k hlen hcap)

end

/-! ## What the last byte of a frame does (42_decoder.md R81) -/

section
variable {cap : Half} {d : DecRegs} {c : Byte} {n k : Half} {p : List Byte} (hs : d.state = .awaitingStart)
  (hlen : p.length = n.toNat) (hcap : p.length ≤ cap.toNat)
include hs hlen hcap

theorem feedAll_openFrame_last {e : Byte} {d' : DecRegs} {f f' : FrameLatch}
    (hstep : decStep cap e (d.readOpenFrame c n p k) f = .ok (d', f')) :
    feedAll cap (openFrame c n p k ++ [e]) d f =
      .ok (List.replicate (6 + p.length) .incomplete ++ [d'.result], d', f') := by
  rw [← length_openFrame c n p k]
  exact (quietFeed_openFrame hs c k hlen hcap).last hstep

theorem feedAll_frame_of_missingTerminator {e : Byte} (he : e ≠ 0xAA#8) (f : FrameLatch) :
    ∃ d', feedAll cap (openFrame c n p k ++ [e]) d f =
      .ok (List.replicate (6 + p.length) .incomplete ++ [.missingTerminator], d', f) :=
  ⟨_, feedAll_openFrame_last hs hlen hcap (decStep_missingTerminator rfl he)⟩

theorem feedAll_frame_of_badChecksum (hcrc : k ≠ crc16 ([c, lo n, hi n] ++ p)) (f : FrameLatch) :
    ∃ d', feedAll cap (openFrame c n p k ++ [0xAA#8]) d f =
      .ok (List.replicate (6 + p.length) .incomplete ++ [.badChecksum], d', f) := by
  rw [← d.readOpenFrame_crcRun c n p k] at hcrc
  exact ⟨_, feedAll_openFrame_last hs hlen hcap (decStep_badChecksum rfl hcrc)⟩

end

end Sys2Proof.Machine
end

section
/-! SUPPORT. A frame that fits, alone and after noise (42_decoder.md R86, R87): the statements FrameRoundTrip and
ResyncAfterNoise. -/

namespace Sys2Proof.Machine

/-! ## The round trip (42_decoder.md R86) -/

/-- A payload that fits has its length in 16 bits. -/
theorem toNat_ofNat_length {cap : Half} {p : List Byte} (hcap : p.length ≤ cap.toNat) :
    (BitVec.ofNat 16 p.length).toNat = p.length :=
  Nat.mod_eq_of_lt (hcap.trans_lt cap.isLt)

/-- A frame as the encoder makes it is accepted, and its latch holds it (42_decoder.md R86). -/
theorem feedAll_encodeFrame {cap : Half} {d : DecRegs} {f : FrameLatch} (c : Byte) {p : List Byte}
    (hs : d.state = .awaitingStart) (hcap : p.length ≤ cap.toNat) (hwf : d.buf.wf = true) (hfwf : f.buf.wf = true) :
    ∃ d' f', feedAll cap (encodeFrame c p) d f =
        .ok (List.replicate (6 + p.length) .incomplete ++ [.frame], d', f') ∧
      d'.state = .awaitingStart ∧ f'.valid = true ∧ f'.cmd = c ∧ f'.len.toNat = p.length ∧
      f'.buf.bytes p.length = p ∧ f'.crc = crc16 (frameBody c p) := by
  have hn := toNat_ofNat_length hcap
  have hle : BitVec.ofNat 16 p.length ≤ cap := by bv_omega
  rw [encodeFrame_eq_openFrame]
  refine ⟨_, _, feedAll_openFrame_last hs hn.symm hcap (decStep_frame rfl (d.readOpenFrame_crcRun ..).symm hle),
    rfl, rfl, rfl, hn, ?_, rfl⟩
  calc (Memory.copy (d.buf.load p) f.buf (BitVec.ofNat 16 p.length).toNat).bytes p.length
      = (d.buf.load p).bytes p.length := by rw [hn, Memory.bytes_copy _ _ hfwf]
    _ = p := Memory.bytes_load p hwf

/-- Settles O26: the decoder has the frame's CRC when the CRC bytes arrive, and the latch takes the stored payload. -/
theorem frameRoundTrip : Obligations.FrameRoundTrip := by
  intro cap c p d f hcap hs hwf hfwf
  have hbound := cap.isLt
  rw [← frameBody_of_length_le (by omega)]
  exact feedAll_encodeFrame c hs hcap hwf hfwf

/-! ## After noise (42_decoder.md R87) -/

theorem atAwaitingStart_result (b : Byte) (d : DecRegs) : (atAwaitingStart b d).result = .incomplete := by
  unfold atAwaitingStart
  split <;> rfl

theorem atAwaitingLength_result (b : Byte) (d : DecRegs) : (atAwaitingLength b d).result = .incomplete := by
  unfold atAwaitingLength
  split <;> rfl

/-- Only AwaitingEnd and Overflow have another result than INCOMPLETE, and both lead to AwaitingStart. -/
theorem decStep_terminal {cap : Half} {b : Byte} {d d' : DecRegs} {f f' : FrameLatch}
    (h : decStep cap b d f = .ok (d', f')) (hterminal : d'.result ≠ .incomplete) : d'.state = .awaitingStart := by
  rcases decStep_eq_ok h with ⟨-, rfl, -⟩ | ⟨-, rfl, -⟩ | ⟨-, rfl, -⟩ | ⟨-, hdata, -⟩ | ⟨-, rfl, -⟩ | ⟨-, rfl, -⟩ |
    ⟨-, hend⟩ | ⟨-, rfl, -⟩
  · exact absurd (atAwaitingStart_result b d) hterminal
  · exact absurd rfl hterminal
  · exact absurd (atAwaitingLength_result b d) hterminal
  · rcases atAwaitingData_eq_ok hdata with ⟨-, rfl⟩ | ⟨-, -, rfl⟩ <;> exact absurd rfl hterminal
  · exact absurd rfl hterminal
  · exact absurd rfl hterminal
  · obtain ⟨rfl, -⟩ := atAwaitingEnd_eq_ok hend
    rfl
  · rfl

/-- A start marker before a frame swallows it: the decoder reads the frame's own start marker as a command and its
command as a length of 2, and waits for a last byte (42_decoder.md R87). -/
theorem quietFeed_swallowed {d : DecRegs} (hs : d.state = .awaitingStart) :
    ∃ d', QuietFeed 16#16 (0x55#8 :: encodeFrame 0x02#8 []) d d' ∧ d'.state = .awaitingEnd := by
  have hbytes : 0x55#8 :: encodeFrame 0x02#8 [] =
      openFrame 0x55#8 2#16 [0x00#8, lo (crc16 (frameBody 0x02#8 []))]
        (0xAA#8 ++ hi (crc16 (frameBody 0x02#8 []))) := by
    have hzero : lo 0#16 = 0x00#8 ∧ hi 0#16 = 0x00#8 := by decide
    have htwo : lo 2#16 = 0x02#8 ∧ hi 2#16 = 0x00#8 := by decide
    simp [encodeFrame, openFrame, frameBody, hzero, htwo]
  rw [hbytes]
  exact ⟨_, quietFeed_openFrame hs 0x55#8 _ rfl (by decide), rfl⟩

/-- Settles O27: noise leaves the decoder as R86 needs it. -/
theorem resyncAfterNoise : Obligations.ResyncAfterNoise := by
  refine ⟨fun _ _ _ _ _ _ => decStep_terminal, fun d f hs => ?_, fun cap noise c p d f hnoise hcap hs hwf hfwf => ?_⟩
  · obtain ⟨d', hquiet, hs'⟩ := quietFeed_swallowed hs
    exact ⟨d', hquiet f, hs'⟩
  · obtain ⟨d₁, hquiet, hs₁, hbuf⟩ := quietFeed_noise hnoise hs
    obtain ⟨d', f', hfeed, hs', -, hcmd, hlen, hbytes, -⟩ := feedAll_encodeFrame c hs₁ hcap (hbuf ▸ hwf) hfwf
    refine ⟨⟨d₁, hquiet f, hs₁⟩, d', f', ?_, hs', hcmd, hlen, hbytes⟩
    rw [feedAll_append (hquiet f) hfeed, ← List.append_assoc, List.replicate_append_replicate, Nat.add_assoc]

end Sys2Proof.Machine
end

section
/-! SUPPORT. A frame longer than the capacity, and the number of bytes to a terminal outcome (42_decoder.md R88, R90):
the statements OversizedFrameOverflows and FrameEndsInBoundedBytes. -/

namespace Sys2Proof.Machine

/-! ## A payload longer than the capacity (42_decoder.md R88) -/

/-- The decoder that waits for the byte on which it reports the overflow. -/
def DecRegs.inOverflow (d : DecRegs) : DecRegs := { d with state := .overflow, result := .incomplete }

section
variable {cap : Half} {d : DecRegs} {c extra : Byte} {n : Half} {p : List Byte}

/-- The payload byte that finds the buffer full (42_decoder.md R78). -/
theorem decStep_receive_full (hfull : p.length = cap.toNat) (hlong : cap < n) (f : FrameLatch) :
    decStep cap extra (d.receive c n p) f = .ok ((d.receive c n p).inOverflow, f) := by
  have hs : (d.receive c n p).state = .awaitingData := if_neg (by bv_omega)
  exact decStep_dataFull hs (by simp [DecRegs.receive, hfull])

theorem quietFeed_overflow (hs : d.state = .awaitingCommand) (hlidx : d.lidx = 0) (hpcount : d.pcount = 0#16)
    (hfull : p.length = cap.toNat) (hlong : cap < n) :
    QuietFeed cap ([c, lo n, hi n] ++ p ++ [extra]) d (d.receive c n p).inOverflow :=
  (quietFeed_receive hs hlidx hpcount c (by bv_omega) hfull.le).append
    (.single (decStep_receive_full hfull hlong) rfl)

end

/-- An oversized frame, cut behind the payload bytes that fit, the byte that overflows and the byte that reports it. -/
theorem exists_encodeFrame_eq_of_oversized {cap : Nat} (c : Byte) {p : List Byte} (hlong : cap < p.length) :
    ∃ (stored : List Byte) (extra report : Byte) (tail : List Byte), stored.length = cap ∧
      tail.length = p.length + 1 - cap ∧
      encodeFrame c p =
        [0x55#8] ++ ([c, lo (BitVec.ofNat 16 p.length), hi (BitVec.ofNat 16 p.length)] ++ stored) ++ [extra] ++ [report]
          ++ tail := by
  set k := crc16 (frameBody c p)
  have hsplit (bs : List Byte) : p.take cap ++ (p.drop cap ++ bs) = p ++ bs := by
    rw [← List.append_assoc, List.take_append_drop]
  match hrest : p.drop cap ++ [lo k, hi k, 0xAA#8] with
  | [] | [_] =>
    have hlength := congrArg List.length hrest
    simp at hlength
  | extra :: report :: tail =>
    have hlength := congrArg List.length hrest
    simp only [List.length_append, List.length_drop, List.length_cons, List.length_nil] at hlength
    refine ⟨p.take cap, extra, report, tail, List.length_take_of_le hlong.le, by omega, ?_⟩
    calc encodeFrame c p
        = [0x55#8] ++ ([c, lo (BitVec.ofNat 16 p.length), hi (BitVec.ofNat 16 p.length)] ++ p.take cap) ++
            (p.drop cap ++ [lo k, hi k, 0xAA#8]) := by simp [encodeFrame, frameBody, k, hsplit]
      _ = _ := by simp [hrest]

/-- Settles O28: the frame cut at the byte that overflows and the byte that reports it, and the rest as noise. -/
theorem oversizedFrameOverflows : Obligations.OversizedFrameOverflows := by
  intro cap c p d f hlong hbound hs
  obtain ⟨stored, extra, report, tail, hstored, htail, hframe⟩ := exists_encodeFrame_eq_of_oversized c hlong
  have hlong' : cap < BitVec.ofNat 16 p.length := by bv_omega
  set n := BitVec.ofNat 16 p.length
  set start := [0x55#8] ++ ([c, lo n, hi n] ++ stored) with hstart
  have hdata : QuietFeed cap start d (d.begin.receive c n stored) :=
    (quietFeed_begin hs).append (quietFeed_receive rfl rfl rfl c (by bv_omega) hstored.le)
  have hextra : QuietFeed cap (start ++ [extra]) d (d.begin.receive c n stored).inOverflow :=
    hdata.append (.single (decStep_receive_full hstored hlong') rfl)
  have hreport := hextra.last (decStep_overflow (b := report) (f := f) rfl)
  have hlength₄ : start.length = 4 + cap.toNat := by
    simp only [hstart, List.length_append, List.length_cons, List.length_nil, hstored]
    omega
  have hlength₅ : (start ++ [extra]).length = 5 + cap.toNat := by
    rw [List.length_append, hlength₄, List.length_singleton]
    omega
  have hlength₆ : (start ++ [extra] ++ [report]).length = 6 + cap.toNat := by
    rw [List.length_append, hlength₅, List.length_singleton]
    omega
  have htake₄ : (encodeFrame c p).take (4 + cap.toNat) = start := by
    rw [hframe, List.append_assoc, List.append_assoc]
    exact List.take_left' hlength₄
  have htake₅ : (encodeFrame c p).take (5 + cap.toNat) = start ++ [extra] := by
    rw [hframe, List.append_assoc]
    exact List.take_left' hlength₅
  rw [htake₄, htake₅, hframe, List.take_left' hlength₆, List.drop_left' hlength₆, ← htail, ← hlength₄, ← hlength₅]
  refine ⟨⟨_, hextra f, rfl⟩, ⟨_, hdata f, if_neg (by bv_omega)⟩, _, hreport, rfl, fun hnoise => ?_⟩
  obtain ⟨d', hquiet, hs', -⟩ := quietFeed_noise (cap := cap) (d := atOverflow _) hnoise rfl
  exact ⟨d', feedAll_append hreport (hquiet f), hs'⟩

/-! ## Bounded frames (42_decoder.md R90) -/

/-- The first terminal outcome of the row comes on its last byte. -/
def EndsOnLastByte (cap : Half) (bs : List Byte) (d : DecRegs) : Prop :=
  ∀ f, ∃ r d' f', feedAll cap bs d f = .ok (List.replicate (bs.length - 1) .incomplete ++ [r], d', f') ∧
    r ≠ .incomplete ∧ d'.state = .awaitingStart

theorem QuietFeed.endsOnLastByte {cap : Half} {b : Byte} {bs : List Byte} {d d' : DecRegs}
    (h : QuietFeed cap bs d d') (hlast : ∀ f, ∃ d'' f'', decStep cap b d' f = .ok (d'', f'') ∧
      d''.result ≠ .incomplete ∧ d''.state = .awaitingStart) : EndsOnLastByte cap (bs ++ [b]) d := by
  intro f
  obtain ⟨d'', f'', hstep, hresult, hs⟩ := hlast f
  refine ⟨_, d'', f'', ?_, hresult, hs⟩
  rw [h.last hstep, List.length_append, List.length_singleton, Nat.add_sub_cancel]

section
variable {cap : Half} {d : DecRegs} {n : Half} {rest : List Byte} (hs : d.state = .awaitingCommand)
  (hlidx : d.lidx = 0) (hpcount : d.pcount = 0#16)
include hs hlidx hpcount

/-- A frame that fits ends with its last byte. -/
theorem endsOnLastByte_of_fits (c : Byte) (hfits : n ≤ cap) (hlength : rest.length = n.toNat + 3) :
    EndsOnLastByte cap ([c, lo n, hi n] ++ rest) d := by
  obtain ⟨x, y, e, hlast⟩ := List.length_eq_three.1 (show (rest.drop n.toNat).length = 3 by simp [hlength])
  have hp : (rest.take n.toNat).length = n.toNat := by simp [hlength]
  have hrest : [c, lo n, hi n] ++ rest =
      [c, lo n, hi n] ++ rest.take n.toNat ++ [lo (y ++ x), hi (y ++ x)] ++ [e] := by
    conv_lhs => rw [← List.take_append_drop n.toNat rest, hlast]
    simp
  rw [hrest]
  exact (quietFeed_withCrc hs hlidx hpcount c (y ++ x) hp (by rw [hp]; exact hfits)).endsOnLastByte
    (decStep_awaitingEnd_terminal rfl hfits e)

/-- A frame that does not fit ends on the byte after the one that overflows. -/
theorem endsOnLastByte_of_overflows (c : Byte) (hlong : cap < n) (hlength : rest.length = cap.toNat + 2) :
    EndsOnLastByte cap ([c, lo n, hi n] ++ rest) d := by
  obtain ⟨extra, report, hlast⟩ := List.length_eq_two.1 (show (rest.drop cap.toNat).length = 2 by simp [hlength])
  have hrest : [c, lo n, hi n] ++ rest = [c, lo n, hi n] ++ rest.take cap.toNat ++ [extra] ++ [report] := by
    conv_lhs => rw [← List.take_append_drop cap.toNat rest, hlast]
    simp
  rw [hrest]
  exact (quietFeed_overflow hs hlidx hpcount (by simp [hlength]) hlong).endsOnLastByte
    fun f => ⟨_, f, decStep_overflow rfl, by simp [atOverflow], rfl⟩

end

/-- Settles O30: the length decides whether the frame fits, and either way its last byte is known. -/
theorem frameEndsInBoundedBytes : Obligations.FrameEndsInBoundedBytes := by
  intro cap d f command lenLow lenHigh rest hs hlidx hpcount len hlength
  have hcap := cap.isLt
  have hlen : (lenHigh ++ lenLow : Half).toNat = len := by rw [toNat_bytes, Nat.add_comm]
  have hlt := (lenHigh ++ lenLow : Half).isLt
  suffices hends : EndsOnLastByte cap (command :: lenLow :: lenHigh :: rest) d by
    refine ⟨by split at hlength <;> omega, ?_⟩
    simpa [Nat.add_comm 2] using hends f
  have hbytes : command :: lenLow :: lenHigh :: rest =
      [command, lo (lenHigh ++ lenLow), hi (lenHigh ++ lenLow)] ++ rest := by simp
  rw [hbytes]
  split at hlength
  next hfits => exact endsOnLastByte_of_fits hs hlidx hpcount command (by bv_omega) (by omega)
  next hlong => exact endsOnLastByte_of_overflows hs hlidx hpcount command (by bv_omega) (by omega)

end Sys2Proof.Machine
end

section
/-! SUPPORT. One flipped bit of a frame (42_decoder.md R89): the statement SingleBitFlipOutcomes. -/

namespace Sys2Proof.Machine

/-! ## Another byte, another CRC -/

theorem crc16_set_ne {s : List Byte} {i : Nat} {b b' : Byte} (hget : s[i]? = some b) (hne : b' ≠ b) :
    crc16 (s.set i b') ≠ crc16 s := by
  obtain ⟨hi, rfl⟩ := List.getElem?_eq_some_iff.1 hget
  conv_rhs => rw [← List.set_getElem_self hi]
  rw [List.set_eq_take_append_cons_drop, List.set_eq_take_append_cons_drop, if_pos hi, if_pos hi]
  exact crc16_ne_of_byte_ne hne _ _

theorem setLo_ne {h : Half} {b : Byte} (hne : b ≠ lo h) : setLo h b ≠ h :=
  fun heq => hne (by simpa [setLo] using congrArg lo heq)

theorem setHi_ne {h : Half} {b : Byte} (hne : b ≠ hi h) : setHi h b ≠ h :=
  fun heq => hne (by simpa [setHi] using congrArg hi heq)

/-! ## A frame with one byte changed -/

section
variable (c : Byte) (n : Half) (p : List Byte) (k : Half) (e b : Byte)

theorem openFrame_set_payload {i : Nat} (hi : i < p.length) :
    (openFrame c n p k ++ [e]).set (4 + i) b = openFrame c n (p.set i b) k ++ [e] := by
  simp [openFrame, Nat.add_comm 4, List.set_append_left _ _ hi]

theorem openFrame_set_crcLow :
    (openFrame c n p k ++ [e]).set (4 + p.length) b = openFrame c n p (setLo k b) ++ [e] := by
  simp [openFrame, Nat.add_comm 4, setLo]

theorem openFrame_set_crcHigh :
    (openFrame c n p k ++ [e]).set (5 + p.length) b = openFrame c n p (setHi k b) ++ [e] := by
  simp [openFrame, Nat.add_comm 5, setHi]

theorem openFrame_set_end : (openFrame c n p k ++ [e]).set (6 + p.length) b = openFrame c n p k ++ [b] := by
  simp [openFrame, Nat.add_comm 6]

end

/-- Another byte in the command, the payload or the CRC: the received CRC is no longer the CRC of what is received. -/
theorem feedAll_encodeFrame_set_covered {cap : Half} {c b b' : Byte} {p : List Byte} {d : DecRegs} {offset : Nat}
    (hs : d.state = .awaitingStart) (hcap : p.length ≤ cap.toNat) (hget : (encodeFrame c p)[offset]? = some b)
    (hne : b' ≠ b) (hoffset : offset = 1 ∨ (4 ≤ offset ∧ offset ≤ 5 + p.length)) (f : FrameLatch) :
    ∃ d', feedAll cap ((encodeFrame c p).set offset b') d f =
      .ok (List.replicate (6 + p.length) .incomplete ++ [.badChecksum], d', f) := by
  have hn := toNat_ofNat_length hcap
  rw [encodeFrame_eq_openFrame] at hget ⊢
  rcases hoffset with rfl | ⟨hlow, hhigh⟩
  · obtain rfl : c = b := by simpa [openFrame] using hget
    exact feedAll_frame_of_badChecksum hs hn.symm hcap (crc16_ne_of_byte_ne hne [] _).symm f
  obtain ⟨i, rfl⟩ := Nat.exists_eq_add_of_le hlow
  rcases (by omega : i < p.length ∨ i = p.length ∨ i = p.length + 1) with hi | rfl | rfl
  · have hget' : p[i]? = some b := by simpa [openFrame, Nat.add_comm 4, List.getElem?_append_left hi] using hget
    have hcrc := crc16_set_ne (s := frameBody c p) (i := i + 3) (by simpa [frameBody] using hget') hne
    have hlength : (p.set i b').length = p.length := List.length_set
    have hfeed := feedAll_frame_of_badChecksum hs (hlength.trans hn.symm) (hlength.trans_le hcap) hcrc.symm f
    rwa [hlength, ← openFrame_set_payload _ _ _ _ _ _ hi] at hfeed
  · obtain rfl : lo (crc16 (frameBody c p)) = b := by simpa [openFrame, Nat.add_comm 4] using hget
    rw [openFrame_set_crcLow]
    exact feedAll_frame_of_badChecksum hs hn.symm hcap (setLo_ne hne) f
  · rw [show 4 + (p.length + 1) = 5 + p.length by omega] at hget ⊢
    obtain rfl : hi (crc16 (frameBody c p)) = b := by simpa [openFrame, Nat.add_comm 5] using hget
    rw [openFrame_set_crcHigh]
    exact feedAll_frame_of_badChecksum hs hn.symm hcap (setHi_ne hne) f

/-- Settles O29: a flipped bit makes another byte, in each of the frame's fields. -/
theorem singleBitFlipOutcomes : Obligations.SingleBitFlipOutcomes := by
  intro cap c p d f offset bit b hcap hs _ hbit hget flipped
  have hne := flipBit_ne b hbit
  refine ⟨fun hoffset => feedAll_encodeFrame_set_covered hs hcap hget hne hoffset f, ?_, ?_⟩
  · rintro rfl
    rw [encodeFrame_eq_openFrame] at hget
    obtain rfl : 0xAA#8 = b := by simpa [openFrame, Nat.add_comm 6] using hget
    simp only [flipped, encodeFrame_eq_openFrame, openFrame_set_end]
    exact feedAll_frame_of_missingTerminator hs (toNat_ofNat_length hcap).symm hcap hne f
  · rintro rfl
    obtain rfl : 0x55#8 = b := by simpa [encodeFrame] using hget
    exact ⟨_, feedAll_single (decStep_noise hs hne), hs⟩

end Sys2Proof.Machine
end

section
/-! SUPPORT. The sequencer's commands (43_sequencer.md R91 to R95): the statements ConfigurationCommands,
TxnStartCommand and BusyOperationsRefused. -/

namespace Sys2Proof.Machine

/-! ## The rows of the command map (30_encoding.md R53) -/

theorem decode_cfgAtt (n : Byte) : decode (0x40#8 ++ n) = .ok (.cfgAtt n) := by
  simp [decode]

theorem decode_cfgTmol (t : Byte) : decode (0x41#8 ++ t) = .ok (.cfgTmol t) := by
  simp [decode]

theorem decode_cfgTmoh (t : Byte) : decode (0x42#8 ++ t) = .ok (.cfgTmoh t) := by
  simp [decode]

theorem decode_cfgPolll (p : Byte) : decode (0x43#8 ++ p) = .ok (.cfgPolll p) := by
  simp [decode]

theorem decode_cfgPollh (p : Byte) : decode (0x44#8 ++ p) = .ok (.cfgPollh p) := by
  simp [decode]

theorem decode_txnStart (imm : Byte) : decode (0x48#8 ++ imm) = formatZ 0x48#8 imm .txnStart := by
  simp [decode]

/-! ## The commands while no transaction runs -/

section
variable {s : State} (h : s.busy = false)
include h

/-- `CFG.ATT` (43_sequencer.md R92). -/
theorem exec_cfgAtt (n : Byte) : exec (.cfgAtt n) s =
    .next (setStatus .ok { s with cfg := { s.cfg with maxAttempts := n } }) :=
  unlessBusy_of_not_busy h _

/-- `TXN.START` with no attempt to make (43_sequencer.md R95). -/
theorem exec_txnStart_noAttempt (hmax : s.cfg.maxAttempts = 0#8) : exec .txnStart s =
    .next (setStatus .ok
      { openTransaction s with txn := { (openTransaction s).txn with phase := .done, result := .noReply } }) := by
  refine (unlessBusy_of_not_busy h _).trans ?_
  rw [startTransaction, if_pos hmax, finishOk_ok]

/-- `TXN.START` sends the first attempt (43_sequencer.md R95, R96). -/
theorem exec_txnStart_of_send {u : State} (hmax : s.cfg.maxAttempts ≠ 0#8)
    (hsend : sendAttempt (openTransaction s) = .ok u) : exec .txnStart s = .next (setStatus .ok u) := by
  refine (unlessBusy_of_not_busy h _).trans ?_
  rw [startTransaction, if_neg hmax, hsend, finishOk_ok]

end

/-! ## The statements -/

/-- Settles O35: the five are format I rows and busy operations, and a half of a register is put there by a mask. -/
theorem configurationCommands : Obligations.ConfigurationCommands := by
  refine ⟨commandI_of_decode decode_cfgAtt, commandI_of_decode decode_cfgTmol, commandI_of_decode decode_cfgTmoh,
    commandI_of_decode decode_cfgPolll, commandI_of_decode decode_cfgPollh, fun _ => ?_, fun s n hfree => ?_⟩
  · exact ⟨refusedWhenBusy rfl, refusedWhenBusy rfl, refusedWhenBusy rfl, refusedWhenBusy rfl, refusedWhenBusy rfl⟩
  · have hbusy := hfree.not_busy
    simp only [← setLo_eq_mask, ← setHi_eq_mask]
    exact ⟨exec_cfgAtt hbusy n, exec_cfgTmol hbusy n, exec_cfgTmoh hbusy n, exec_cfgPolll hbusy n,
      exec_cfgPollh hbusy n⟩

/-- Settles O36: OP `0x48` is a format Z row, and `MAX_ATTEMPTS` decides between the end at once and the first send. -/
theorem txnStartCommand : Obligations.TxnStartCommand := by
  refine ⟨commandZ_of_decode decode_txnStart, refusedWhenBusy rfl, fun s hfree hmax => ?_,
    fun s hfree hmax hlen => ?_⟩
  · rw [exec_txnStart_noAttempt hfree.not_busy hmax]
    simp [setStatus, openTransaction, hmax]
  · exact exec_txnStart_of_send hfree.not_busy hmax (sendAttempt_of_le hlen)

/-- A command that is no busy operation ends with another status than BUSY (43_sequencer.md R91). -/
theorem opst_ne_busy_of_exec {i : Instr} {s t : State} (hi : busyOperation i = false) (h : exec i s = .next t) :
    t.host.opst ≠ .busy := by
  have hok {u : State} (hu : finishOk (.ok u) = .next t) : t.host.opst ≠ .busy := by
    obtain ⟨u, -, rfl⟩ := finishOk_eq_next hu
    simp [setStatus]
  cases i with
  | nop | crcInit | crcByte | idxLo | idxHi => exact hok h
  | rd sel => rcases execRd_eq_next h with ⟨v, rfl⟩ | rfl | rfl <;> simp [setStatus]
  | _ => cases hi

/-- Settles O37: the busy check comes first, and no rule of the other commands writes BUSY. -/
theorem busyOperationsRefused : Obligations.BusyOperationsRefused :=
  fun _ _ => ⟨fun htransaction hi => refusedWhenBusy hi _ htransaction, fun hi _ => opst_ne_busy_of_exec hi⟩

end Sys2Proof.Machine
end

section
/-! SUPPORT. The events of the block, the clock and the transport, each as an equation (43_sequencer.md R98 to R102):
the statements FeedConsumesOneByte, CloseEndsPollPoint, ResendStartsNextAttempt and TickAndReceive. -/

namespace Sys2Proof.Machine

/-- FEED on a queue that holds a byte: `dec_step`, then its decision (43_sequencer.md R98). -/
theorem feedEvent_of_decStep {s : State} {b : Byte} {rest : List Byte} {d : DecRegs} {f : FrameLatch}
    (hq : s.rxq = b :: rest) (hstep : decStep s.params.rxCap b s.dec s.frm = .ok (d, f)) :
    feedEvent s = .ok (afterFeed { s with rxq := rest, dec := d, frm := f }) := by
  simp only [feedEvent, hq, receiveByte_of_decStep (s := { s with rxq := rest }) hstep, Except.map]

theorem satDec_eq_ofNat (n : Half) : satDec n = BitVec.ofNat 16 (n.toNat - 1) := by
  rw [← satDec_toNat, BitVec.ofNat_toNat, BitVec.setWidth_eq]

theorem tickEvent_of_wait {s : State} (hp : s.txn.phase = .wait) : tickEvent s =
    { s with txn := { s.txn with deadlineCnt := satDec s.txn.deadlineCnt, pollCnt := satDec s.txn.pollCnt } } := by
  simp [tickEvent, hp]

theorem tickEvent_of_pace {s : State} (hp : s.txn.phase = .pace) :
    tickEvent s = { s with txn := { s.txn with paceCnt := satDec s.txn.paceCnt } } := by
  simp [tickEvent, hp]

theorem tickEvent_of_free {s : State} (h : s.free) : tickEvent s = s := by
  rcases h with hp | hp <;> simp [tickEvent, hp]

/-- Settles O39: FEED is the decision on the `dec_step` of the oldest byte. -/
theorem feedConsumesOneByte : Obligations.FeedConsumesOneByte := by
  refine ⟨feedEnabled_iff, fun s b rest events d f hs hp hpoll hq hstep => ?_⟩
  have henabled : feedEnabled s = true := (feedEnabled_iff s).2 ⟨hp, hpoll, by simp [hq]⟩
  have hfeed := feedEvent_of_decStep (s := { s with schedule := events }) hq hstep
  rw [step_scheduled hs henabled, performEvent, hfeed, outcome_ok]
  rfl

/-- Settles O40: the deadline decides between the failed attempt and the next poll interval. -/
theorem closeEndsPollPoint : Obligations.CloseEndsPollPoint :=
  ⟨closeEnabled_iff, fun _ _ hs henabled => step_scheduled hs henabled⟩

/-- Settles O41: RESEND is an attempt's send. -/
theorem resendStartsNextAttempt : Obligations.ResendStartsNextAttempt := by
  refine ⟨resendEnabled_iff, fun s events hs henabled hlen => ?_⟩
  have hsend := sendAttempt_of_le (s := { s with schedule := events }) hlen
  rw [step_scheduled hs henabled, performEvent, resendEvent, hsend]
  rfl

/-- Settles O42: TICK by the phase, RX in every state. -/
theorem tickAndReceive : Obligations.TickAndReceive := by
  refine ⟨tick_enabled_iff, fun s events hs henabled => ?_, fun s b events hs => step_scheduled hs rfl⟩
  rw [step_scheduled hs henabled, performEvent]
  simp only [← satDec_eq_ofNat]
  exact ⟨fun hp => congrArg _ (tickEvent_of_wait hp), fun hp => congrArg _ (tickEvent_of_pace hp),
    fun hfree => congrArg _ (tickEvent_of_free hfree)⟩

end Sys2Proof.Machine
end

section
/-! SUPPORT. What a step can do to a running transaction, said once, and how a transaction ends: the statement
EndOfTransaction. -/

namespace Sys2Proof.Machine

/-! ## A completed frame is in the latch (42_decoder.md R81) -/

/-- Only AwaitingEnd has the result FRAME, and it then writes the latch. -/
theorem decStep_latch_of_frame {cap : Half} {b : Byte} {d d' : DecRegs} {f f' : FrameLatch}
    (h : decStep cap b d f = .ok (d', f')) (hframe : d'.result = .frame) : f'.valid = true := by
  have hne {r : DecResult} (hr : r = .incomplete) : r ≠ .frame := by simp [hr]
  rcases decStep_eq_ok h with ⟨-, rfl, -⟩ | ⟨-, rfl, -⟩ | ⟨-, rfl, -⟩ | ⟨-, hdata, -⟩ | ⟨-, rfl, -⟩ | ⟨-, rfl, -⟩ |
    ⟨-, hend⟩ | ⟨-, rfl, -⟩
  · exact absurd hframe (hne (atAwaitingStart_result b d))
  · exact absurd hframe (hne rfl)
  · exact absurd hframe (hne (atAwaitingLength_result b d))
  · rcases atAwaitingData_eq_ok hdata with ⟨-, rfl⟩ | ⟨-, -, rfl⟩ <;> exact absurd hframe (hne rfl)
  · exact absurd hframe (hne rfl)
  · exact absurd hframe (hne rfl)
  · obtain ⟨rfl, ⟨-, -, rfl⟩ | ⟨hresult, -⟩⟩ := atAwaitingEnd_eq_ok hend
    · rfl
    · exact absurd hframe hresult
  · cases hframe

/-! ## A step inside a transaction -/

/-- The attempt fails with reason `r`: FEED on a terminal outcome, or CLOSE with the deadline passed
(43_sequencer.md R97 to R99). -/
structure State.AttemptFails (s : State) (r : FailReason) : Prop where
  reason : r ≠ .none
  waits : s.txn.phase = .wait
  cause : s.nextEvent = .feed ∨
    (s.nextEvent = .close ∧ r = .timeout ∧ s.txn.pollCnt = 0#16 ∧ s.txn.deadlineCnt = 0#16)

/-- What a step other than RESET does to the sequencer's registers while a transaction runs (43_sequencer.md R91,
R97 to R102). -/
inductive TransactionStep (s t : State) : Prop
  /-- A command, RX, or FEED with INCOMPLETE. -/
  | stay (hn : s.nextEvent = .feed ∨ s.nextEvent.agent = .host ∨ s.nextEvent.agent = .transport)
      (htxn : t.txn = s.txn)
  | accept (hn : s.nextEvent = .feed) (hvalid : t.frm.valid = true) (hcmd : t.frm.cmd = replyCmd t.params t.req.cmd)
      (htxn : t.txn = { s.txn with phase := .done, result := .ok })
  | retry {r : FailReason} (hfails : s.AttemptFails r) (hleft : 0#8 < s.txn.attemptsLeft)
      (htxn : t.txn = { s.txn with lastFail := r, phase := .pace, paceCnt := s.params.paceDelay })
  | giveUp {r : FailReason} (hfails : s.AttemptFails r) (hleft : s.txn.attemptsLeft = 0#8)
      (htxn : t.txn = { s.txn with lastFail := r, phase := .done, result := .noReply })
  | reopen (hn : s.nextEvent = .close) (henabled : closeEnabled s = true) (hdeadline : s.txn.deadlineCnt ≠ 0#16)
      (htxn : t.txn = { s.txn with pollCnt := s.cfg.pollInterval })
  | resend (hn : s.nextEvent = .resend) (henabled : resendEnabled s = true) (hwire : t.txw = s.txw ++ s.requestFrame)
      (htxn : t.txn = { s.txn with
        phase := .wait, attemptsLeft := s.txn.attemptsLeft - 1#8, attemptCnt := s.txn.attemptCnt + 1#8,
        deadlineCnt := s.cfg.timeout, pollCnt := 0#16 })
  | tickWait (hn : s.nextEvent = .tick) (hquiet : blockEnabled s = false) (hp : s.txn.phase = .wait)
      (htxn : t.txn = { s.txn with deadlineCnt := satDec s.txn.deadlineCnt, pollCnt := satDec s.txn.pollCnt })
  | tickPace (hn : s.nextEvent = .tick) (hquiet : blockEnabled s = false) (hp : s.txn.phase = .pace)
      (htxn : t.txn = { s.txn with paceCnt := satDec s.txn.paceCnt })

section
variable {s t : State}

/-- A failed attempt by what is left (43_sequencer.md R97). -/
theorem TransactionStep.of_failAttempt {u : State} {r : FailReason} (hfails : s.AttemptFails r)
    (htxn : u.txn = s.txn) (hparams : u.params = s.params) : TransactionStep s (failAttempt r u) := by
  rcases failAttempt_cases r u with ⟨hleft, heq⟩ | ⟨hleft, heq⟩ <;> rw [heq, htxn] <;> rw [htxn] at hleft
  · exact .retry hfails hleft (by rw [hparams])
  · exact .giveUp hfails hleft rfl

theorem TransactionStep.of_feedEvent (hn : s.nextEvent = .feed) (hp : s.txn.phase = .wait)
    (h : feedEvent s.popEvent = .ok t) : TransactionStep s t := by
  have hfails {r : FailReason} (hr : r ≠ .none) : s.AttemptFails r := ⟨hr, hp, .inl hn⟩
  rcases feedEvent_cases h with ⟨-, rfl⟩ | ⟨b, rest, d, f, -, hstep, rfl⟩
  · exact .stay (.inl hn) rfl
  · rcases afterFeed_cases { s.popEvent with rxq := rest, dec := d, frm := f } with ⟨-, heq⟩ | ⟨hframe, hcmd, heq⟩ |
      ⟨-, -, heq⟩ | ⟨-, heq⟩ | ⟨-, heq⟩ | ⟨-, heq⟩ <;> rw [heq]
    · exact .stay (.inl hn) rfl
    · exact .accept hn (decStep_latch_of_frame hstep hframe) hcmd rfl
    all_goals exact .of_failAttempt (hfails (by decide)) rfl rfl

theorem TransactionStep.of_closeEvent (hn : s.nextEvent = .close) (henabled : closeEnabled s = true) :
    TransactionStep s (closeEvent s.popEvent) := by
  obtain ⟨hp, hpoll, -, -⟩ := (closeEnabled_iff s).1 henabled
  rcases closeEvent_cases s.popEvent with ⟨hdeadline, heq⟩ | ⟨hdeadline, heq⟩ <;> rw [heq]
  · exact .of_failAttempt ⟨by decide, hp, .inr ⟨hn, rfl, hpoll, hdeadline⟩⟩ rfl rfl
  · exact .reopen hn henabled hdeadline rfl

theorem TransactionStep.of_tickEvent (hs : s.inTransaction) (hn : s.nextEvent = .tick)
    (hquiet : blockEnabled s = false) : TransactionStep s (tickEvent s.popEvent) := by
  rcases hs with hp | hp
  · exact .tickWait hn hquiet hp (congrArg State.txn (tickEvent_of_wait (s := s.popEvent) hp))
  · exact .tickPace hn hquiet hp (congrArg State.txn (tickEvent_of_pace (s := s.popEvent) hp))

/-- Inside a transaction a step leaves the configuration and the request alone (43_sequencer.md R91), and moves the
sequencer in one of the ways above. -/
theorem step_in_transaction (hs : s.inTransaction) (hn : s.nextEvent ≠ .reset) (h : step s = .next t) :
    t.cfg = s.cfg ∧ t.req = s.req ∧ TransactionStep s t := by
  rcases step_cases h with ⟨w, hn, hc⟩ | ⟨b, hn, rfl⟩ | ⟨hn, henabled, hfeed⟩ | ⟨hn, henabled, rfl⟩ |
    ⟨hn, henabled, hsend⟩ | ⟨hn, hquiet, rfl⟩ | ⟨hreset, -⟩
  · have howned := commandEvent_sameOwned (s := s.popEvent) ((State.busy_iff _).2 hs) hc
    exact ⟨howned.cfg, howned.req, .stay (.inr (.inl (by rw [hn]; rfl))) howned.txn⟩
  · exact ⟨rfl, rfl, .stay (.inr (.inr (by rw [hn]; rfl))) rfl⟩
  · obtain ⟨hp, -, -⟩ := (feedEnabled_iff s).1 henabled
    have hmove := TransactionStep.of_feedEvent hn hp hfeed
    rcases feedEvent_cases hfeed with ⟨-, rfl⟩ | ⟨b, rest, d, f, -, -, rfl⟩
    · exact ⟨rfl, rfl, hmove⟩
    · exact ⟨afterFeed_cfg _, afterFeed_req _, hmove⟩
  · exact ⟨closeEvent_cfg _, closeEvent_req _, .of_closeEvent hn henabled⟩
  · have hwire := sendAttempt_txw hsend
    obtain ⟨-, rfl⟩ := sendAttempt_eq_ok hsend
    exact ⟨rfl, rfl, .resend hn henabled hwire rfl⟩
  · exact ⟨tickEvent_cfg _, tickEvent_req _, .of_tickEvent hs hn hquiet⟩
  · exact absurd hreset hn

/-- RESET alone leads to IDLE (70_reset_and_hazards.md R127). -/
theorem nextEvent_ne_reset (h : step s = .next t) (ht : t.txn.phase ≠ .idle) : s.nextEvent ≠ .reset := by
  intro hn
  obtain ⟨-, hperform⟩ := step_eq_next h
  rw [hn] at hperform
  injection hperform with hreset
  exact ht (hreset ▸ resetEvent_txn_phase s.popEvent)

theorem State.inTransaction.phase_ne_idle (h : s.inTransaction) : s.txn.phase ≠ .idle := by
  rcases h with hp | hp <;> simp [hp]

theorem State.inTransaction.phase_ne_done (h : s.inTransaction) : s.txn.phase ≠ .done := by
  rcases h with hp | hp <;> simp [hp]

end

/-- Settles O44: of the moves of the sequencer two end the transaction, and the invariant gives the latch's CRC and the
count of the attempts. -/
theorem endOfTransaction : Obligations.EndOfTransaction := by
  intro s t hinv hs h hdone
  obtain ⟨hcfg, -, hmove⟩ := step_in_transaction hs (nextEvent_ne_reset h (by simp [hdone])) h
  cases hmove with
  | accept hn hvalid hcmd htxn =>
    exact .inl ⟨by rw [htxn], hvalid, hcmd, (invariantKept s t hinv h).frmCrc hvalid, by rw [htxn]⟩
  | giveUp hfails hleft htxn =>
    obtain ⟨hsum, -⟩ := (State.sequencerConsistent_wait_iff hfails.waits).1 hinv.sequencer
    have hcount : s.txn.attemptCnt = s.cfg.maxAttempts := by
      rw [hleft] at hsum
      exact BitVec.eq_of_toNat_eq hsum
    rw [htxn, hcfg]
    exact .inr ⟨rfl, hleft, hcount, hfails.reason⟩
  | stay hn htxn => exact absurd (htxn ▸ hdone) hs.phase_ne_done
  | reopen hn henabled hdeadline htxn | tickWait hn hquiet hp htxn | tickPace hn hquiet hp htxn =>
    rw [htxn] at hdone
    exact absurd hdone hs.phase_ne_done
  | retry hfails hleft htxn | resend hn henabled hwire htxn =>
    rw [htxn] at hdone
    cases hdone

end Sys2Proof.Machine
end

section
/-! SUPPORT. The ticks of one attempt (43_sequencer.md R99, R101, R107): the statement AttemptTimeoutTicks. -/

namespace Sys2Proof.Machine

/-! ## `A(T, P)` (43_sequencer.md R107) -/

theorem attemptTicks_of_no_interval {timeout interval : Half} (h : interval = 0#16) :
    attemptTicks timeout interval = timeout.toNat :=
  if_pos (.inl h)

/-- With a poll interval `A(T, P)` is `T` rounded up to the next multiple of `P`. -/
theorem attemptTicks_of_interval {timeout interval : Half} (h : interval ≠ 0#16) :
    interval.toNat ∣ attemptTicks timeout interval ∧ timeout.toNat ≤ attemptTicks timeout interval ∧
      attemptTicks timeout interval < timeout.toNat + interval.toNat := by
  have hpos : 0 < interval.toNat := by bv_omega
  by_cases hzero : timeout = 0#16
  · simp [attemptTicks, hzero, hpos]
  · rw [attemptTicks, if_neg (by simp [h, hzero])]
    have hdiv := Nat.div_add_mod (timeout.toNat + interval.toNat - 1) interval.toNat
    have hmod := Nat.mod_lt (timeout.toNat + interval.toNat - 1) hpos
    exact ⟨Nat.dvd_mul_right _ _, by omega, by omega⟩

theorem timeout_le_attemptTicks (timeout interval : Half) : timeout.toNat ≤ attemptTicks timeout interval := by
  by_cases h : interval = 0#16
  · exact (attemptTicks_of_no_interval h).ge
  · exact (attemptTicks_of_interval h).2.1

/-- Two multiples of `p` with one below the other are at least `p` apart. -/
theorem add_le_of_dvd_of_lt {p m a : Nat} (hm : p ∣ m) (ha : p ∣ a) (hlt : m < a) : m + p ≤ a := by
  have := Nat.le_of_dvd (by omega) (Nat.dvd_sub ha hm)
  omega

/-! ## The counters of an attempt -/

/-- The sequencer waits, `m` ticks after the attempt's send: the deadline has counted them, and the poll point opens
next at a multiple of the poll interval that is no later than `A(T, P)`. -/
structure TxnRegs.AttemptClock (c : CfgRegs) (m : Nat) (x : TxnRegs) : Prop where
  waits : x.phase = .wait
  deadline : x.deadlineCnt.toNat = c.timeout.toNat - m
  bound : m + x.pollCnt.toNat ≤ attemptTicks c.timeout c.pollInterval
  open_of_no_interval : c.pollInterval = 0#16 → x.pollCnt = 0#16
  dvd_of_interval : c.pollInterval ≠ 0#16 → c.pollInterval.toNat ∣ m + x.pollCnt.toNat

section
variable {c : CfgRegs} {m : Nat} {x : TxnRegs}

/-- What a send leaves (43_sequencer.md R96). -/
theorem TxnRegs.AttemptClock.start (hp : x.phase = .wait) (hdeadline : x.deadlineCnt = c.timeout)
    (hpoll : x.pollCnt = 0#16) : x.AttemptClock c 0 :=
  ⟨hp, by rw [hdeadline, Nat.sub_zero], by simp [hpoll], fun _ => hpoll, fun _ => by simp [hpoll]⟩

theorem TxnRegs.AttemptClock.le (h : x.AttemptClock c m) : m ≤ attemptTicks c.timeout c.pollInterval :=
  (Nat.le_add_right _ _).trans h.bound

/-- While the deadline has not passed, fewer than `TIMEOUT` ticks have. -/
theorem TxnRegs.AttemptClock.lt_timeout (h : x.AttemptClock c m) (hdeadline : x.deadlineCnt ≠ 0#16) :
    m < c.timeout.toNat := by
  have := h.deadline
  bv_omega

/-- A tick between two poll points, or at a poll point that stays open (43_sequencer.md R99, R101). -/
theorem TxnRegs.AttemptClock.tick (h : x.AttemptClock c m)
    (hquiet : x.pollCnt ≠ 0#16 ∨ (x.deadlineCnt ≠ 0#16 ∧ c.pollInterval = 0#16)) :
    TxnRegs.AttemptClock c (m + 1) { x with deadlineCnt := satDec x.deadlineCnt, pollCnt := satDec x.pollCnt } := by
  have hdeadline : (satDec x.deadlineCnt).toNat = c.timeout.toNat - (m + 1) := by
    rw [satDec_toNat, h.deadline]
    omega
  by_cases hP : c.pollInterval = 0#16
  · have hopen := h.open_of_no_interval hP
    have hopen' : satDec x.pollCnt = 0#16 := by rw [hopen]; rfl
    refine ⟨h.waits, hdeadline, ?_, fun _ => hopen', fun hne => absurd hP hne⟩
    simp only [hopen', attemptTicks_of_no_interval hP]
    exact h.lt_timeout (hquiet.resolve_left (not_not.2 hopen)).1
  · have hpoll : x.pollCnt.toNat ≠ 0 := fun hzero =>
      hP (hquiet.resolve_left (not_not.2 (BitVec.eq_of_toNat_eq hzero))).2
    have hsum : m + 1 + (satDec x.pollCnt).toNat = m + x.pollCnt.toNat := by
      rw [satDec_toNat]
      omega
    exact ⟨h.waits, hdeadline, hsum ▸ h.bound, fun hzero => absurd hzero hP, fun _ => hsum ▸ h.dvd_of_interval hP⟩

/-- CLOSE before the deadline: one poll interval more still ends by `A(T, P)` (43_sequencer.md R99). -/
theorem TxnRegs.AttemptClock.reopen (h : x.AttemptClock c m) (hpoll : x.pollCnt = 0#16)
    (hdeadline : x.deadlineCnt ≠ 0#16) (hP : c.pollInterval ≠ 0#16) :
    TxnRegs.AttemptClock c m { x with pollCnt := c.pollInterval } := by
  have hdvd : c.pollInterval.toNat ∣ m := by simpa [hpoll] using h.dvd_of_interval hP
  obtain ⟨hdvdA, hle, -⟩ := attemptTicks_of_interval (timeout := c.timeout) hP
  exact ⟨h.waits, h.deadline, add_le_of_dvd_of_lt hdvd hdvdA ((h.lt_timeout hdeadline).trans_le hle),
    fun hzero => absurd hzero hP, fun _ => Nat.dvd_add_self_right.2 hdvd⟩

/-- CLOSE with the deadline passed comes after exactly `A(T, P)` ticks (43_sequencer.md R107). -/
theorem TxnRegs.AttemptClock.eq_of_timeout (h : x.AttemptClock c m) (hpoll : x.pollCnt = 0#16)
    (hdeadline : x.deadlineCnt = 0#16) : m = attemptTicks c.timeout c.pollInterval := by
  have hpassed : c.timeout.toNat ≤ m := by
    have := h.deadline
    rw [hdeadline] at this
    exact Nat.le_of_sub_eq_zero this.symm
  refine h.le.antisymm (Nat.le_of_not_lt fun hlt => ?_)
  by_cases hP : c.pollInterval = 0#16
  · rw [attemptTicks_of_no_interval hP] at hlt
    omega
  · have hdvd : c.pollInterval.toNat ∣ m := by simpa [hpoll] using h.dvd_of_interval hP
    obtain ⟨hdvdA, -, hltA⟩ := attemptTicks_of_interval (timeout := c.timeout) hP
    have := add_le_of_dvd_of_lt hdvd hdvdA hlt
    omega

end

/-! ## Steps in WAIT -/

theorem State.tickCost_of_tick {s : State} (h : s.nextEvent = .tick) : s.tickCost = 1 := if_pos h

theorem State.tickCost_of_ne_tick {s : State} (h : s.nextEvent ≠ .tick) : s.tickCost = 0 := if_neg h

section
variable {s t : State}

/-- With no BLOCK event enabled in WAIT the poll point is closed, or it stays open for bytes until the deadline
(43_sequencer.md R98, R99). -/
theorem quiet_in_wait (hp : s.txn.phase = .wait) (hquiet : blockEnabled s = false) :
    s.txn.pollCnt ≠ 0#16 ∨ (s.txn.deadlineCnt ≠ 0#16 ∧ s.cfg.pollInterval = 0#16) := by
  by_cases hpoll : s.txn.pollCnt = 0#16
  · obtain ⟨hfeed, hclose, -⟩ := (tick_enabled_iff s).1 (by simp [Event.enabled, hquiet])
    rw [Bool.eq_false_iff] at hfeed hclose
    have hempty : s.rxq = [] := by
      by_contra hsome
      exact hfeed ((feedEnabled_iff s).2 ⟨hp, hpoll, hsome⟩)
    refine .inr ⟨fun hdeadline => hclose ((closeEnabled_iff s).2 ⟨hp, hpoll, hempty, .inl hdeadline⟩), ?_⟩
    by_contra hP
    exact hclose ((closeEnabled_iff s).2 ⟨hp, hpoll, hempty, .inr (by bv_omega)⟩)
  · exact .inl hpoll

theorem TransactionStep.tickCost_of_stay
    (hn : s.nextEvent = .feed ∨ s.nextEvent.agent = .host ∨ s.nextEvent.agent = .transport) : s.tickCost = 0 := by
  refine State.tickCost_of_ne_tick fun htick => ?_
  rw [htick] at hn
  simp [Event.agent] at hn

/-- CLOSE that keeps the attempt has a poll interval to load (43_sequencer.md R99). -/
theorem pollInterval_ne_zero_of_reopen (henabled : closeEnabled s = true) (hdeadline : s.txn.deadlineCnt ≠ 0#16) :
    s.cfg.pollInterval ≠ 0#16 := by
  obtain ⟨-, -, -, hor⟩ := (closeEnabled_iff s).1 henabled
  have := hor.resolve_left hdeadline
  bv_omega

theorem State.AttemptFails.tickCost {r : FailReason} (h : s.AttemptFails r) : s.tickCost = 0 := by
  refine State.tickCost_of_ne_tick fun htick => ?_
  have hcause := h.cause
  simp [htick] at hcause

/-- A step that stays in WAIT keeps the attempt's clock. -/
theorem TransactionStep.attemptClock {m : Nat} (hmove : TransactionStep s t) (h : s.txn.AttemptClock s.cfg m)
    (ht : t.txn.phase = .wait) : t.txn.AttemptClock s.cfg (m + s.tickCost) := by
  cases hmove with
  | stay hn htxn => rwa [tickCost_of_stay hn, htxn]
  | reopen hn henabled hdeadline htxn =>
    obtain ⟨-, hpoll, -⟩ := (closeEnabled_iff s).1 henabled
    rw [State.tickCost_of_ne_tick (by simp [hn]), htxn]
    exact h.reopen hpoll hdeadline (pollInterval_ne_zero_of_reopen henabled hdeadline)
  | tickWait hn hquiet hp htxn =>
    rw [State.tickCost_of_tick hn, htxn]
    exact h.tick (quiet_in_wait hp hquiet)
  | resend hn henabled hwire htxn => cases h.waits.symm.trans ((resendEnabled_iff s).1 henabled).1
  | tickPace hn hquiet hp htxn => cases h.waits.symm.trans hp
  | accept hn hvalid hcmd htxn | retry hfails hleft htxn | giveUp hfails hleft htxn =>
    rw [htxn] at ht
    cases ht

/-- A CLOSE that leaves WAIT has found the deadline passed (43_sequencer.md R99). -/
theorem TransactionStep.timeout_of_close (hmove : TransactionStep s t) (hs : s.txn.phase = .wait)
    (hn : s.nextEvent = .close) (ht : t.txn.phase ≠ .wait) : s.txn.pollCnt = 0#16 ∧ s.txn.deadlineCnt = 0#16 := by
  have hclose {r : FailReason} (hfails : s.AttemptFails r) : s.txn.pollCnt = 0#16 ∧ s.txn.deadlineCnt = 0#16 := by
    rcases hfails.cause with hfeed | ⟨-, -, hpassed⟩
    · cases hn.symm.trans hfeed
    · exact hpassed
  cases hmove with
  | retry hfails hleft htxn | giveUp hfails hleft htxn => exact hclose hfails
  | stay hn' htxn => exact absurd (htxn ▸ hs) ht
  | reopen hn' henabled hdeadline htxn =>
    rw [htxn] at ht
    exact absurd hs ht
  | accept hn' | resend hn' | tickWait hn' | tickPace hn' => cases hn.symm.trans hn'

end

theorem RunThrough.attemptClock {u t : State} {n : Nat} (h : RunThrough (fun s => s.txn.phase = .wait) u n t)
    (hu : u.txn.AttemptClock u.cfg 0) : t.cfg = u.cfg ∧ t.txn.AttemptClock u.cfg n := by
  induction h with
  | here => exact ⟨rfl, hu⟩
  | snoc run hstep hphase ih =>
    obtain ⟨hcfg, hclock⟩ := ih
    have hreset := nextEvent_ne_reset hstep (by simp [hphase])
    obtain ⟨hcfg', -, hmove⟩ := step_in_transaction (.inl hclock.waits) hreset hstep
    rw [← hcfg] at hclock ⊢
    exact ⟨hcfg', hmove.attemptClock hclock hphase⟩

/-- Settles O47: the attempt's clock along the run, and at the CLOSE that ends it. -/
theorem attemptTimeoutTicks : Obligations.AttemptTimeoutTicks := by
  intro u t n hp hdeadline hpoll hrun
  obtain ⟨-, hclock⟩ := hrun.attemptClock (.start hp hdeadline hpoll)
  refine ⟨hclock.le, fun v hstep hn hv => ?_⟩
  obtain ⟨-, -, hmove⟩ := step_in_transaction (.inl hclock.waits) (by simp [hn]) hstep
  obtain ⟨hopen, hpassed⟩ := hmove.timeout_of_close hclock.waits hn hv
  exact hclock.eq_of_timeout hopen hpassed

end Sys2Proof.Machine
end

section
/-! SUPPORT. The ticks of a whole transaction (43_sequencer.md R107): the statement TransactionTickBound. -/

namespace Sys2Proof.Machine

/-! ## The sequencer's part of the invariant inside a transaction -/

/-- A step from a running transaction keeps the sequencer's part of the invariant, whatever the buffers hold. -/
theorem step_sequencer {s t : State} (hseq : s.sequencerConsistent) (hs : s.inTransaction) (h : step s = .next t) :
    t.sequencerConsistent := by
  have hpop : s.popEvent.sequencerConsistent := hseq.congr rfl rfl rfl
  rcases step_cases h with ⟨w, -, hc⟩ | ⟨b, -, rfl⟩ | ⟨-, henabled, hfeed⟩ | ⟨-, henabled, rfl⟩ |
    ⟨-, henabled, hsend⟩ | ⟨-, -, rfl⟩ | ⟨-, rfl⟩
  · have howned := commandEvent_sameOwned (s := s.popEvent) ((State.busy_iff _).2 hs) hc
    exact hseq.congr howned.txn howned.cfg (step_params h)
  · exact hpop.congr rfl rfl rfl
  · obtain ⟨hp, -, -⟩ := (feedEnabled_iff s).1 henabled
    rcases feedEvent_cases hfeed with ⟨-, rfl⟩ | ⟨b, rest, d, f, -, -, rfl⟩
    · exact hpop
    · exact afterFeed_sequencer (hpop.congr rfl rfl rfl) hp
  · obtain ⟨hp, -⟩ := (closeEnabled_iff s).1 henabled
    exact closeEvent_sequencer hpop hp
  · obtain ⟨hp, -⟩ := (resendEnabled_iff s).1 henabled
    obtain ⟨hsum, -, hleft, hresult, -⟩ := (State.sequencerConsistent_pace_iff (s := s.popEvent) hp).1 hpop
    exact sendAttempt_sequencer hsend hsum hleft hresult
  · exact tickEvent_sequencer hpop
  · exact (State.sequencerConsistent_idle_iff rfl).2 ⟨rfl, rfl⟩

/-! ## The clock of a transaction -/

/-- The ticks from one send to the next when the attempt times out. -/
def State.attemptSpan (s : State) : Nat :=
  attemptTicks s.cfg.timeout s.cfg.pollInterval + s.params.paceDelay.toNat

theorem transactionTicks_eq {s : State} (h : s.cfg.maxAttempts ≠ 0#8) :
    transactionTicks s =
      (s.cfg.maxAttempts.toNat - 1) * s.attemptSpan + attemptTicks s.cfg.timeout s.cfg.pollInterval := by
  obtain ⟨k, hk⟩ : ∃ k, s.cfg.maxAttempts.toNat = k + 1 := Nat.exists_eq_succ_of_ne_zero (by bv_omega)
  rw [transactionTicks, State.attemptSpan, hk, Nat.add_sub_cancel]
  ring

/-- The sequencer's registers `n` ticks after the TXN.START that left `u`: `n` ticks and the `early` ticks by which
failed replies cut attempts short make a full span for every attempt before the running one. -/
inductive TransactionClock (u : State) (n early : Nat) (x : TxnRegs) : Prop
  | wait {m : Nat} (hattempt : x.AttemptClock u.cfg m)
      (hsum : n + early = (x.attemptCnt.toNat - 1) * u.attemptSpan + m)
  | pace (hp : x.phase = .pace) (hsum : n + early + x.paceCnt.toNat = x.attemptCnt.toNat * u.attemptSpan)

/-- `s` stands in the transaction that began in `u`, `n` ticks and `early` saved ones later. -/
structure State.Underway (u : State) (n early : Nat) (s : State) : Prop where
  cfg : s.cfg = u.cfg
  params : s.params = u.params
  sequencer : s.sequencerConsistent
  clock : TransactionClock u n early s.txn

section
variable {s t u : State} {n early : Nat}

theorem TransactionClock.attempt_of_wait {x : TxnRegs} (h : TransactionClock u n early x) (hp : x.phase = .wait) :
    ∃ m, x.AttemptClock u.cfg m ∧ n + early = (x.attemptCnt.toNat - 1) * u.attemptSpan + m := by
  cases h with
  | wait hattempt hsum => exact ⟨_, hattempt, hsum⟩
  | pace hpace hsum => cases hp.symm.trans hpace

theorem TransactionClock.sum_of_pace {x : TxnRegs} (h : TransactionClock u n early x) (hp : x.phase = .pace) :
    n + early + x.paceCnt.toNat = x.attemptCnt.toNat * u.attemptSpan := by
  cases h with
  | wait hattempt hsum => cases hp.symm.trans hattempt.waits
  | pace hpace hsum => exact hsum

/-- With no BLOCK event enabled in PACE the pacing delay runs (43_sequencer.md R100). -/
theorem paceCnt_ne_zero_of_quiet (hp : s.txn.phase = .pace) (hquiet : blockEnabled s = false) :
    s.txn.paceCnt ≠ 0#16 := fun hzero => by
  obtain ⟨-, -, hresend⟩ := (tick_enabled_iff s).1 (by simp [Event.enabled, hquiet])
  simp [(resendEnabled_iff s).2 ⟨hp, hzero⟩] at hresend

/-- A failed attempt paces: what it has cut short is saved, and the timeout's CLOSE saves nothing. -/
theorem State.Underway.retry {r : FailReason} (h : State.Underway u n early s) (hfails : s.AttemptFails r)
    (htxn : t.txn = { s.txn with lastFail := r, phase := .pace, paceCnt := s.params.paceDelay }) :
    ∃ early', TransactionClock u n early' t.txn ∧ (s.nextEvent ≠ .feed → early' = early) := by
  obtain ⟨m, hattempt, hsum⟩ := h.clock.attempt_of_wait hfails.waits
  obtain ⟨-, hcount, -⟩ := (State.sequencerConsistent_wait_iff hfails.waits).1 h.sequencer
  have hle := hattempt.le
  have hspan : s.txn.attemptCnt.toNat * u.attemptSpan =
      (s.txn.attemptCnt.toNat - 1) * u.attemptSpan + u.attemptSpan := by
    rw [← Nat.succ_mul, Nat.succ_eq_add_one, Nat.sub_add_cancel (by bv_omega)]
  rw [htxn]
  refine ⟨early + (attemptTicks u.cfg.timeout u.cfg.pollInterval - m), .pace rfl ?_, fun hfeed => ?_⟩
  · have hlength : u.attemptSpan = attemptTicks u.cfg.timeout u.cfg.pollInterval + s.params.paceDelay.toNat := by
      rw [h.params, State.attemptSpan]
    dsimp only
    omega
  · obtain ⟨-, -, hpoll, hdeadline⟩ := hfails.cause.resolve_left hfeed
    have := hattempt.eq_of_timeout hpoll hdeadline
    omega

/-- The next attempt begins where the pacing delay ends. -/
theorem State.Underway.resend (h : State.Underway u n early s) (henabled : resendEnabled s = true)
    (htxn : t.txn = { s.txn with
        phase := .wait, attemptsLeft := s.txn.attemptsLeft - 1#8, attemptCnt := s.txn.attemptCnt + 1#8,
        deadlineCnt := s.cfg.timeout, pollCnt := 0#16 }) : TransactionClock u n early t.txn := by
  obtain ⟨hp, hpace⟩ := (resendEnabled_iff s).1 henabled
  obtain ⟨hattempts, -, hleft, -⟩ := (State.sequencerConsistent_pace_iff hp).1 h.sequencer
  have hsum := h.clock.sum_of_pace hp
  have hcount : (s.txn.attemptCnt + 1#8).toNat - 1 = s.txn.attemptCnt.toNat := by bv_omega
  rw [hpace] at hsum
  rw [htxn, h.cfg]
  exact .wait (.start rfl rfl rfl) (by simp only [hcount]; simpa using hsum)

/-- A step inside the transaction moves its clock by its ticks; only FEED saves ticks. -/
theorem State.Underway.clock_step (h : State.Underway u n early s) (hmove : TransactionStep s t)
    (ht : t.inTransaction) :
    ∃ early', TransactionClock u (n + s.tickCost) early' t.txn ∧ (s.nextEvent ≠ .feed → early' = early) := by
  have hwaits (hp : s.txn.phase = .wait) (hp' : t.txn.phase = .wait)
      (hcount : t.txn.attemptCnt = s.txn.attemptCnt) :
      ∃ early', TransactionClock u (n + s.tickCost) early' t.txn ∧ (s.nextEvent ≠ .feed → early' = early) := by
    obtain ⟨m, hattempt, hsum⟩ := h.clock.attempt_of_wait hp
    have hattempt' := hmove.attemptClock (h.cfg ▸ hattempt) hp'
    exact ⟨early, .wait (h.cfg ▸ hattempt') (by rw [hcount]; omega), fun _ => rfl⟩
  cases hmove with
  | stay hn htxn =>
    rw [TransactionStep.tickCost_of_stay hn, htxn]
    exact ⟨early, h.clock, fun _ => rfl⟩
  | retry hfails hleft htxn =>
    rw [hfails.tickCost]
    exact h.retry hfails htxn
  | reopen hn henabled hdeadline htxn =>
    obtain ⟨hp, -⟩ := (closeEnabled_iff s).1 henabled
    exact hwaits hp (by rw [htxn]; exact hp) (by rw [htxn])
  | tickWait hn hquiet hp htxn => exact hwaits hp (by rw [htxn]; exact hp) (by rw [htxn])
  | resend hn henabled hwire htxn =>
    rw [State.tickCost_of_ne_tick (by simp [hn])]
    exact ⟨early, h.resend henabled htxn, fun _ => rfl⟩
  | tickPace hn hquiet hp htxn =>
    have hsum := h.clock.sum_of_pace hp
    have hpace := paceCnt_ne_zero_of_quiet hp hquiet
    have hcount := satDec_toNat s.txn.paceCnt
    rw [State.tickCost_of_tick hn, htxn]
    exact ⟨early, .pace hp (by dsimp only; bv_omega), fun _ => rfl⟩
  | accept hn hvalid hcmd htxn | giveUp hfails hleft htxn => exact absurd (by rw [htxn]) ht.phase_ne_done

theorem State.Underway.inTransaction (h : State.Underway u n early s) : s.inTransaction := by
  rcases h.clock with ⟨hattempt, -⟩ | ⟨hp, -⟩
  · exact .inl hattempt.waits
  · exact .inr hp

theorem State.Underway.step (h : State.Underway u n early s) (hstep : step s = .next t) (ht : t.inTransaction) :
    ∃ early', State.Underway u (n + s.tickCost) early' t ∧ (s.nextEvent ≠ .feed → early' = early) := by
  have hs := h.inTransaction
  obtain ⟨hcfg, -, hmove⟩ := step_in_transaction hs (nextEvent_ne_reset hstep ht.phase_ne_idle) hstep
  obtain ⟨early', hclock, hfeed⟩ := h.clock_step hmove ht
  exact ⟨early',
    ⟨hcfg.trans h.cfg, (step_params hstep).trans h.params, step_sequencer h.sequencer hs hstep, hclock⟩, hfeed⟩

theorem RunThrough.first {P : State → Prop} (h : RunThrough P u n t) : P u := by
  induction h with
  | here hs => exact hs
  | snoc run hstep ht ih => exact ih

theorem RunThrough.underway (hrun : RunThrough State.inTransaction u n t) (hu : State.Underway u 0 0 u) :
    ∃ early, State.Underway u n early t := by
  induction hrun with
  | here => exact ⟨0, hu⟩
  | snoc run hstep ht ih =>
    obtain ⟨early, hs⟩ := ih
    obtain ⟨early', ht', -⟩ := hs.step hstep ht
    exact ⟨early', ht'⟩

/-- At most `MAX_ATTEMPTS` attempts are counted, and one fewer while the sequencer paces (43_sequencer.md R104). -/
theorem State.Underway.ticks_le (h : State.Underway u n early s) : n ≤ transactionTicks u := by
  rcases h.clock with ⟨hattempt, hsum⟩ | ⟨hp, hsum⟩
  · obtain ⟨hattempts, hcount, -⟩ := (State.sequencerConsistent_wait_iff hattempt.waits).1 h.sequencer
    rw [h.cfg] at hattempts
    have hle := hattempt.le
    have hmul := Nat.mul_le_mul_right u.attemptSpan
      (show s.txn.attemptCnt.toNat - 1 ≤ u.cfg.maxAttempts.toNat - 1 by omega)
    rw [transactionTicks_eq (by bv_omega)]
    omega
  · obtain ⟨hattempts, hcount, hleft, -⟩ := (State.sequencerConsistent_pace_iff hp).1 h.sequencer
    rw [h.cfg] at hattempts
    have hmul := Nat.mul_le_mul_right u.attemptSpan
      (show s.txn.attemptCnt.toNat ≤ u.cfg.maxAttempts.toNat - 1 by bv_omega)
    rw [transactionTicks_eq (by bv_omega)]
    omega

end

/-! ## The state TXN.START leaves (43_sequencer.md R95, R96) -/

/-- The state after a TXN.START that sends. -/
def State.started (s : State) : State :=
  { s with
    txw := s.txw ++ s.requestFrame
    dec := decReset s.dec
    frm := { s.frm with valid := false }
    txn := { s.txn with
      phase := .wait, result := .none, lastFail := .none, attemptCnt := 1#8,
      attemptsLeft := s.cfg.maxAttempts - 1#8, deadlineCnt := s.cfg.timeout, pollCnt := 0#16 }
    host := { s.host with opst := .ok } }

section
variable {s u : State}

theorem decode_txnStart_word : decode 0x4800#16 = .ok .txnStart := by decide

theorem step_txnStart (s : State) : step (s.withCommands [0x4800#16]) = exec .txnStart s :=
  commandEvent_of_decode decode_txnStart_word s

theorem step_txnStart_started (hfree : s.free) (hmax : s.cfg.maxAttempts ≠ 0#8) (hlen : s.req.len ≤ s.params.txCap) :
    step (s.withCommands [0x4800#16]) = .next s.started := by
  rw [step_txnStart, exec_txnStart_of_send hfree.not_busy hmax (sendAttempt_of_le hlen)]
  rfl

/-- A TXN.START that leaves a transaction running has sent its first attempt. -/
theorem started_of_step_txnStart (hfree : s.free) (h : step (s.withCommands [0x4800#16]) = .next u)
    (hu : u.inTransaction) : s.cfg.maxAttempts ≠ 0#8 ∧ u = s.started := by
  rw [step_txnStart] at h
  rcases commandOutcome_of_exec h with ⟨c, -, rfl⟩ | ⟨v, heffect, rfl⟩
  · cases hfree.not_busy.symm.trans ((State.busy_iff s).2 hu)
  · cases heffect with
    | txnStart_noAttempt => exact absurd rfl hu.phase_ne_done
    | txnStart_send _ hmax hsend =>
      obtain ⟨-, rfl⟩ := sendAttempt_eq_ok hsend
      exact ⟨hmax, rfl⟩

theorem started_sequencer (hmax : s.cfg.maxAttempts ≠ 0#8) : s.started.sequencerConsistent := by
  refine (State.sequencerConsistent_wait_iff rfl).2
    ⟨?_, by simp [State.started], rfl, BitVec.le_refl _, zero_le_half s.cfg.pollInterval⟩
  simp only [State.started]
  bv_omega

theorem started_underway (hmax : s.cfg.maxAttempts ≠ 0#8) : State.Underway s.started 0 0 s.started :=
  ⟨rfl, rfl, started_sequencer hmax, .wait (.start rfl rfl rfl) (by simp [State.started])⟩

end

/-- Settles O46: the clock of the transaction along the run. -/
theorem transactionTickBound : Obligations.TransactionTickBound := by
  intro s u t n hfree hstart hrun
  obtain ⟨hmax, rfl⟩ := started_of_step_txnStart hfree hstart hrun.first
  obtain ⟨early, ht⟩ := hrun.underway (started_underway hmax)
  exact ht.ticks_le

end Sys2Proof.Machine
end

section
/-! SUPPORT. A transaction left to the block and the clock (43_sequencer.md R107, log 1): the statement
TransactionReachesDone. -/

namespace Sys2Proof.Machine

/-! ## The schedule -/

theorem sendAttempt_schedule {s t : State} (h : sendAttempt s = .ok t) : t.schedule = s.schedule := by
  obtain ⟨-, rfl⟩ := sendAttempt_eq_ok h
  rfl

theorem CommandEffect.schedule_eq {i : Instr} {s u : State} (h : CommandEffect i s u) : u.schedule = s.schedule := by
  cases h with
  | txnStart_send hfree hmax hsend => simpa using sendAttempt_schedule hsend
  | _ => rfl

theorem feedEvent_schedule {s t : State} (h : feedEvent s = .ok t) : t.schedule = s.schedule := by
  rcases feedEvent_cases h with ⟨-, rfl⟩ | ⟨b, rest, d, f, -, -, rfl⟩
  · rfl
  · exact afterFeed_schedule _

/-- A step takes one event off the schedule (log 1). -/
theorem step_schedule {s t : State} (h : step s = .next t) : t.schedule = s.schedule.tail := by
  rcases step_cases h with ⟨w, -, hc⟩ | ⟨b, -, rfl⟩ | ⟨-, -, hfeed⟩ | ⟨-, -, rfl⟩ | ⟨-, -, hsend⟩ | ⟨-, -, rfl⟩ |
    ⟨-, rfl⟩
  · rcases commandEvent_cases hc with ⟨c, -, rfl⟩ | ⟨i, u, -, heffect, rfl⟩
    · rfl
    · exact heffect.schedule_eq
  · rfl
  · exact feedEvent_schedule hfeed
  · exact closeEvent_schedule s.popEvent
  · exact sendAttempt_schedule hsend
  · exact tickEvent_schedule s.popEvent
  · rfl

/-! ## The event that follows on an empty schedule -/

section
variable {s t : State}

theorem popEvent_of_schedule_nil (h : s.schedule = []) : s.popEvent = s := by
  rw [State.popEvent, h, List.tail_nil, ← h]

theorem step_of_schedule_nil (h : s.schedule = []) : step s = performEvent (autonomousEvent s) s := by
  rw [step_of_enabled, popEvent_of_schedule_nil h, nextEvent_of_schedule_nil h]
  rw [nextEvent_of_schedule_nil h]
  exact autonomousEvent_enabled s

theorem agent_autonomousEvent (s : State) :
    (autonomousEvent s).agent = .block ∨ (autonomousEvent s).agent = .clock := by
  unfold autonomousEvent
  split_ifs <;> simp [Event.agent]

/-- The machine left alone steps on, if a FEED finds the decoder in order and a RESEND the request. -/
theorem exists_step_of_schedule_nil (h : s.schedule = []) (hlen : s.req.len ≤ s.params.txCap)
    (hdec : s.rxq ≠ [] → s.dec.Valid s.params.rxCap) : ∃ t, step s = .next t := by
  rw [step_of_schedule_nil h]
  unfold autonomousEvent
  split_ifs with hfeed hclose hresend
  · obtain ⟨-, -, hsome⟩ := (feedEnabled_iff s).1 hfeed
    obtain ⟨b, rest, hq⟩ := List.exists_cons_of_ne_nil hsome
    have hvalid := hdec hsome
    have hdone (hs : s.dec.state = .awaitingEnd) : s.dec.len ≤ s.params.rxCap := by
      obtain ⟨-, hpcount, -⟩ := (DecRegs.consistent_awaitingEnd_iff hs).1 hvalid.consistent
      exact hpcount ▸ hvalid.pcountCap
    obtain ⟨d, f, hstep⟩ := decStep_answers (fun _ => hvalid.pcountCap) hdone b s.frm
    exact ⟨_, congrArg outcome (feedEvent_of_decStep hq hstep)⟩
  · exact ⟨_, rfl⟩
  · exact ⟨_, congrArg outcome (sendAttempt_of_le hlen)⟩
  · exact ⟨_, rfl⟩

/-! ## A measure of what is left of a transaction -/

/-- What the sequencer's registers still allow: first the attempts left and whether one is running, then the deadline
or the pacing delay, then the poll point, an open one counting as a poll interval not yet loaded. -/
def TxnRegs.patience (x : TxnRegs) : Nat :=
  match x.phase with
  | .wait => (2 * x.attemptsLeft.toNat + 1) * 2 ^ 33 + x.deadlineCnt.toNat * 65537 +
      (if x.pollCnt = 0#16 ∧ x.deadlineCnt ≠ 0#16 then 65536 else x.pollCnt.toNat)
  | .pace => 2 * x.attemptsLeft.toNat * 2 ^ 33 + x.paceCnt.toNat
  | .idle => 0
  | .done => 0

/-- Every received byte may be fed, besides. -/
def State.patience (s : State) : Nat := s.rxq.length + s.txn.patience

theorem TxnRegs.patience_wait {x : TxnRegs} (hp : x.phase = .wait) : x.patience =
    (2 * x.attemptsLeft.toNat + 1) * 2 ^ 33 + x.deadlineCnt.toNat * 65537 +
      (if x.pollCnt = 0#16 ∧ x.deadlineCnt ≠ 0#16 then 65536 else x.pollCnt.toNat) := by
  simp [TxnRegs.patience, hp]

theorem TxnRegs.patience_pace {x : TxnRegs} (hp : x.phase = .pace) :
    x.patience = 2 * x.attemptsLeft.toNat * 2 ^ 33 + x.paceCnt.toNat := by
  simp [TxnRegs.patience, hp]

/-- The poll point's share is less than a deadline tick's. -/
theorem TxnRegs.patience_wait_bounds {x : TxnRegs} (hp : x.phase = .wait) :
    (2 * x.attemptsLeft.toNat + 1) * 2 ^ 33 + x.deadlineCnt.toNat * 65537 ≤ x.patience ∧
      x.patience ≤ (2 * x.attemptsLeft.toNat + 1) * 2 ^ 33 + x.deadlineCnt.toNat * 65537 + 65536 := by
  rw [patience_wait hp]
  have := x.pollCnt.isLt
  split_ifs <;> omega

theorem TxnRegs.patience_retry {x y : TxnRegs} (hp : x.phase = .wait) (hp' : y.phase = .pace)
    (hleft : y.attemptsLeft = x.attemptsLeft) : y.patience < x.patience := by
  obtain ⟨hlow, -⟩ := patience_wait_bounds hp
  have := y.paceCnt.isLt
  rw [patience_pace hp', hleft]
  omega

theorem TxnRegs.patience_resend {x y : TxnRegs} (hp : x.phase = .pace) (hp' : y.phase = .wait)
    (hleft : x.attemptsLeft.toNat = y.attemptsLeft.toNat + 1) : y.patience < x.patience := by
  obtain ⟨-, hhigh⟩ := patience_wait_bounds hp'
  have := y.deadlineCnt.isLt
  rw [patience_pace hp]
  omega

theorem TxnRegs.patience_reopen {x : TxnRegs} {interval : Half} (hp : x.phase = .wait) (hpoll : x.pollCnt = 0#16)
    (hdeadline : x.deadlineCnt ≠ 0#16) (hinterval : interval ≠ 0#16) :
    TxnRegs.patience { x with pollCnt := interval } < x.patience := by
  have := interval.isLt
  rw [patience_wait hp, patience_wait (by exact hp), if_neg (by simp [hinterval]),
    if_pos ⟨hpoll, hdeadline⟩]
  dsimp only
  omega

/-- Before the deadline a tick lowers its count; after it, that of the poll point. -/
theorem TxnRegs.patience_tickWait {x : TxnRegs} (hp : x.phase = .wait)
    (hquiet : x.pollCnt ≠ 0#16 ∨ x.deadlineCnt ≠ 0#16) :
    TxnRegs.patience { x with deadlineCnt := satDec x.deadlineCnt, pollCnt := satDec x.pollCnt } < x.patience := by
  have hdec := satDec_toNat x.deadlineCnt
  have hpoll := satDec_toNat x.pollCnt
  by_cases hdeadline : x.deadlineCnt = 0#16
  · have hopen := hquiet.resolve_right (not_not.2 hdeadline)
    have hzero : satDec x.deadlineCnt = 0#16 := by rw [hdeadline]; rfl
    rw [patience_wait hp, patience_wait (by exact hp), if_neg (by simp [hzero]),
      if_neg (by simp [hopen])]
    dsimp only
    bv_omega
  · obtain ⟨hlow, -⟩ := patience_wait_bounds hp
    obtain ⟨-, hhigh⟩ := patience_wait_bounds
      (x := { x with deadlineCnt := satDec x.deadlineCnt, pollCnt := satDec x.pollCnt }) hp
    dsimp only at hhigh
    bv_omega

theorem TxnRegs.patience_tickPace {x : TxnRegs} (hp : x.phase = .pace) (hpace : x.paceCnt ≠ 0#16) :
    TxnRegs.patience { x with paceCnt := satDec x.paceCnt } < x.patience := by
  have := satDec_toNat x.paceCnt
  rw [patience_pace hp, patience_pace (by exact hp)]
  dsimp only
  bv_omega

/-! ## Left alone, a transaction ends -/

/-- On an empty schedule a step ends the transaction or lowers the measure. -/
theorem step_done_or_patience_lt (hschedule : s.schedule = []) (hseq : s.sequencerConsistent) (hs : s.inTransaction)
    (h : step s = .next t) : t.txn.phase = .done ∨ (t.inTransaction ∧ t.patience < s.patience) := by
  have hagent := nextEvent_of_schedule_nil hschedule ▸ agent_autonomousEvent s
  have hreset : s.nextEvent ≠ .reset := fun hn => by simp [hn, Event.agent] at hagent
  have hfeed (hn : s.nextEvent = .feed) : t.rxq.length < s.rxq.length := by
    have hq := receiveQueueInOrder s t h
    rw [hn] at hq
    obtain ⟨b, hq⟩ := hq
    simp [hq]
  have hqueue (hn : s.nextEvent = .close ∨ s.nextEvent = .resend ∨ s.nextEvent = .tick) : t.rxq = s.rxq := by
    have hq := receiveQueueInOrder s t h
    rcases hn with hn | hn | hn <;> rwa [hn] at hq
  obtain ⟨-, -, hmove⟩ := step_in_transaction hs hreset h
  unfold State.patience
  cases hmove with
  | accept hn hvalid hcmd htxn | giveUp hfails hleft htxn => exact .inl (by rw [htxn])
  | stay hn htxn =>
    have hn' : s.nextEvent = .feed := by
      rcases hn with hn | hn | hn
      · exact hn
      all_goals simp [hn] at hagent
    exact .inr ⟨by rwa [State.inTransaction, htxn], by rw [htxn]; exact Nat.add_lt_add_right (hfeed hn') _⟩
  | retry hfails hleft htxn =>
    have hle : t.rxq.length ≤ s.rxq.length := by
      rcases hfails.cause with hn | ⟨hn, -⟩
      · exact (hfeed hn).le
      · rw [hqueue (.inl hn)]
    refine .inr ⟨.inr (by rw [htxn]), Nat.add_lt_add_of_le_of_lt hle ?_⟩
    rw [htxn]
    exact TxnRegs.patience_retry hfails.waits rfl rfl
  | reopen hn henabled hdeadline htxn =>
    obtain ⟨hp, hpoll, -⟩ := (closeEnabled_iff s).1 henabled
    rw [hqueue (.inl hn), State.inTransaction, htxn]
    exact .inr ⟨.inl hp, Nat.add_lt_add_left (TxnRegs.patience_reopen hp hpoll hdeadline
      (pollInterval_ne_zero_of_reopen henabled hdeadline)) _⟩
  | resend hn henabled hwire htxn =>
    obtain ⟨hp, -⟩ := (resendEnabled_iff s).1 henabled
    obtain ⟨-, -, hleft, -⟩ := (State.sequencerConsistent_pace_iff hp).1 hseq
    rw [hqueue (.inr (.inl hn)), State.inTransaction, htxn]
    exact .inr ⟨.inl rfl, Nat.add_lt_add_left (TxnRegs.patience_resend hp rfl (by dsimp only; bv_omega)) _⟩
  | tickWait hn hquiet hp htxn =>
    rw [hqueue (.inr (.inr hn)), State.inTransaction, htxn]
    exact .inr ⟨.inl hp, Nat.add_lt_add_left
      (TxnRegs.patience_tickWait hp ((quiet_in_wait hp hquiet).imp_right And.left)) _⟩
  | tickPace hn hquiet hp htxn =>
    rw [hqueue (.inr (.inr hn)), State.inTransaction, htxn]
    exact .inr ⟨.inr hp, Nat.add_lt_add_left (TxnRegs.patience_tickPace hp (paceCnt_ne_zero_of_quiet hp hquiet)) _⟩

end

/-- The machine left alone in `s`, where `J` holds: nothing is scheduled, and it steps on to a state of `J`. -/
structure RunsAlone (J : State → Prop) (s : State) : Prop where
  schedule : s.schedule = []
  sequencer : s.sequencerConsistent
  step : ∃ t, step s = .next t
  kept : ∀ t, Machine.step s = .next t → J t

/-- A transaction left alone runs to the step that ends it. -/
theorem exists_run_to_done {J : State → Prop} (hJ : ∀ s, J s → s.inTransaction → RunsAlone J s) {u s : State} {n : Nat}
    (hrun : RunThrough State.inTransaction u n s) (hs : J s) :
    ∃ m v t, RunThrough State.inTransaction u m v ∧ step v = .next t ∧ t.txn.phase = .done := by
  induction hk : s.patience using Nat.strong_induction_on generalizing s n with
  | _ k ih =>
    obtain ⟨hschedule, hseq, ⟨t, hstep⟩, hkept⟩ := hJ s hs hrun.last
    rcases step_done_or_patience_lt hschedule hseq hrun.last hstep with hdone | ⟨ht, hlt⟩
    · exact ⟨n, s, t, hrun, hstep, hdone⟩
    · exact ih _ (hk ▸ hlt) (.snoc hrun hstep ht) (hkept t hstep) rfl

theorem runsAlone_of_inv {s : State} (hinv : Inv s) (hschedule : s.schedule = []) :
    RunsAlone (fun s => Inv s ∧ s.schedule = []) s where
  schedule := hschedule
  sequencer := hinv.sequencer
  step := exists_step_of_schedule_nil hschedule hinv.reqLen fun _ => hinv.dec
  kept t ht := ⟨invariantKept s t hinv ht, by rw [step_schedule ht, hschedule]; rfl⟩

theorem RunThrough.run {P : State → Prop} {s t : State} {n : Nat} (h : RunThrough P s n t) : Run s n t := by
  induction h with
  | here => exact .here trivial
  | snoc run hstep ht ih => exact .snoc ih hstep trivial

/-- Settles O48: under the invariant the machine never stops, and the measure falls until a step ends the
transaction. -/
theorem transactionReachesDone : Obligations.TransactionReachesDone := by
  intro s hinv hs hschedule
  obtain ⟨m, v, t, hrun, hstep, hdone⟩ :=
    exists_run_to_done (fun s hs _ => runsAlone_of_inv hs.1 hs.2) (.here hs) ⟨hinv, hschedule⟩
  exact ⟨_, t, .snoc hrun.run hstep trivial, hdone⟩

end Sys2Proof.Machine
end

section
/-! SUPPORT. A transaction on a silent line (43_sequencer.md R106, log 1): the statement SilentLineEndsWithNoReply. -/

namespace Sys2Proof.Machine

/-- Nothing is scheduled and nothing has been received, and a send would answer. -/
structure State.Silent (s : State) : Prop where
  schedule : s.schedule = []
  rxq : s.rxq = []
  reqLen : s.req.len ≤ s.params.txCap
  sequencer : s.sequencerConsistent

section
variable {s t u v : State} {n : Nat}

/-! ## Steps on a silent line -/

theorem State.Silent.nextEvent_cases (h : s.Silent) :
    s.nextEvent = .close ∨ s.nextEvent = .resend ∨ s.nextEvent = .tick := by
  have hfeed : ¬ feedEnabled s = true := by simp [feedEnabled_iff, h.rxq]
  rw [nextEvent_of_schedule_nil h.schedule, autonomousEvent, if_neg hfeed]
  split_ifs <;> simp

theorem State.Silent.nextEvent_ne_feed (h : s.Silent) : s.nextEvent ≠ .feed := by
  rcases h.nextEvent_cases with hn | hn | hn <;> simp [hn]

theorem State.Silent.nextEvent_ne_reset (h : s.Silent) : s.nextEvent ≠ .reset := by
  rcases h.nextEvent_cases with hn | hn | hn <;> simp [hn]

theorem State.Silent.step (h : s.Silent) (hs : s.inTransaction) (hstep : step s = .next t) : t.Silent := by
  have hrxq : t.rxq = s.rxq := by
    have hq := receiveQueueInOrder s t hstep
    rcases h.nextEvent_cases with hn | hn | hn <;> rwa [hn] at hq
  obtain ⟨-, hreq, -⟩ := step_in_transaction hs h.nextEvent_ne_reset hstep
  exact ⟨by rw [step_schedule hstep, h.schedule]; rfl, hrxq.trans h.rxq,
    by rw [hreq, step_params hstep]; exact h.reqLen, step_sequencer h.sequencer hs hstep⟩

theorem State.Silent.runsAlone (h : s.Silent) (hs : s.inTransaction) : RunsAlone State.Silent s where
  schedule := h.schedule
  sequencer := h.sequencer
  step := exists_step_of_schedule_nil h.schedule h.reqLen fun hsome => absurd h.rxq hsome
  kept _ hstep := h.step hs hstep

/-- RESEND sends one attempt and counts it, and no other event of a silent line does. -/
theorem State.Silent.sendsAttempts (h : s.Silent) (hs : s.inTransaction) (hstep : Machine.step s = .next t) :
    ∃ k, s.SendsAttempts k t := by
  obtain ⟨-, hreq, hmove⟩ := step_in_transaction hs h.nextEvent_ne_reset hstep
  have hquiet (hn : s.nextEvent ≠ .resend) (hcount : t.txn.attemptCnt = s.txn.attemptCnt) :
      ∃ k, s.SendsAttempts k t := by
    refine ⟨0, .zero hreq hcount ?_⟩
    rcases transmitWireGrowsByFrames s t hstep with hwire | ⟨-, hsender⟩
    · exact hwire
    · rcases h.nextEvent_cases with hn' | hn' | hn' <;> simp [hn'] at hn hsender
  cases hmove with
  | resend hn henabled hwire htxn =>
    obtain ⟨hp, -⟩ := (resendEnabled_iff s).1 henabled
    obtain ⟨hsum, -, hleft, -⟩ := (State.sequencerConsistent_pace_iff hp).1 h.sequencer
    refine ⟨1, hreq, ?_, by simpa using hwire⟩
    rw [htxn]
    dsimp only
    bv_omega
  | stay hn htxn => exact hquiet (fun hn' => by simp [hn', Event.agent] at hn) (by rw [htxn])
  | retry hfails hleft htxn | giveUp hfails hleft htxn =>
    exact hquiet (fun hn => by simpa [hn] using hfails.cause) (by rw [htxn])
  | accept hn hvalid hcmd htxn | reopen hn henabled hdeadline htxn | tickWait hn hquiet' hp htxn
  | tickPace hn hquiet' hp htxn => exact hquiet (by simp [hn]) (by rw [htxn])

/-! ## The run -/

/-- On a silent line no attempt is cut short. -/
theorem RunThrough.silent (hrun : RunThrough State.inTransaction u n v) (hu : u.Silent)
    (hclock : State.Underway u 0 0 u) : v.Silent ∧ State.Underway u n 0 v ∧ ∃ k, u.SendsAttempts k v := by
  induction hrun with
  | here => exact ⟨hu, hclock, 0, .zero rfl rfl rfl⟩
  | snoc run hstep ht ih =>
    obtain ⟨hs, hunder, k, hk⟩ := ih
    obtain ⟨early, hunder', hearly⟩ := hunder.step hstep ht
    obtain ⟨j, hj⟩ := hs.sendsAttempts run.last hstep
    obtain rfl := hearly hs.nextEvent_ne_feed
    exact ⟨hs.step run.last hstep, hunder', k + j, hk.trans hj⟩

/-- The step that ends a silent transaction is the last attempt's timeout. -/
theorem State.Silent.done (h : v.Silent) (hunder : State.Underway u n 0 v) (hstep : Machine.step v = .next t)
    (hdone : t.txn.phase = .done) :
    n = transactionTicks u ∧ t.txn.result = .noReply ∧ t.txn.lastFail = .timeout ∧
      t.txn.attemptCnt = u.cfg.maxAttempts := by
  have hs := hunder.inTransaction
  obtain ⟨-, -, hmove⟩ := step_in_transaction hs h.nextEvent_ne_reset hstep
  cases hmove with
  | giveUp hfails hleft htxn =>
    obtain ⟨-, rfl, hpoll, hdeadline⟩ := hfails.cause.resolve_left h.nextEvent_ne_feed
    obtain ⟨m, hattempt, hsum⟩ := hunder.clock.attempt_of_wait hfails.waits
    obtain ⟨hattempts, hcount, -⟩ := (State.sequencerConsistent_wait_iff hfails.waits).1 h.sequencer
    rw [hunder.cfg, hleft] at hattempts
    have hall : v.txn.attemptCnt = u.cfg.maxAttempts := BitVec.eq_of_toNat_eq hattempts
    rw [hall] at hcount hsum
    rw [htxn]
    refine ⟨?_, rfl, rfl, hall⟩
    rw [transactionTicks_eq (by bv_omega), ← hattempt.eq_of_timeout hpoll hdeadline]
    exact hsum
  | accept hn => exact absurd hn h.nextEvent_ne_feed
  | stay hn htxn => exact absurd (htxn ▸ hdone) hs.phase_ne_done
  | reopen hn henabled hdeadline htxn | tickWait hn hquiet hp htxn | tickPace hn hquiet hp htxn =>
    rw [htxn] at hdone
    exact absurd hdone hs.phase_ne_done
  | retry hfails hleft htxn | resend hn henabled hwire htxn =>
    rw [htxn] at hdone
    cases hdone

end

theorem started_silent {s : State} (hrxq : s.rxq = []) (hschedule : s.schedule = []) (hmax : s.cfg.maxAttempts ≠ 0#8)
    (hlen : s.req.len ≤ s.params.txCap) : s.started.Silent :=
  ⟨hschedule, hrxq, hlen, started_sequencer hmax⟩

/-- The first frame and those of the attempts counted after it. -/
theorem txw_of_started {s t : State} {k : Nat} (h : s.started.SendsAttempts k t) :
    t.txw = s.txw ++ (List.replicate t.txn.attemptCnt.toNat s.requestFrame).flatten := by
  have hcount : t.txn.attemptCnt.toNat = k + 1 := by
    rw [h.count, Nat.add_comm]
    rfl
  rw [h.wire, hcount, List.replicate_succ, List.flatten_cons, ← List.append_assoc]
  rfl

/-- Settles O45: the run to DONE, with the transaction's clock and the attempts sent along it. -/
theorem silentLineEndsWithNoReply : Obligations.SilentLineEndsWithNoReply := by
  intro s hfree hrxq hschedule hmax hlen
  refine ⟨timeout_le_attemptTicks _ _, s.started, ?_⟩
  have hsilent := started_silent hrxq hschedule hmax hlen
  obtain ⟨n, v, t, hrun, hstep, hdone⟩ :=
    exists_run_to_done (fun _ => State.Silent.runsAlone) (.here (.inl rfl)) hsilent
  obtain ⟨hv, hunder, k, hk⟩ := hrun.silent hsilent (started_underway hmax)
  obtain ⟨j, hj⟩ := hv.sendsAttempts hrun.last hstep
  obtain ⟨rfl, hresult, hfail, hcount⟩ := hv.done hunder hstep hdone
  have hwire := txw_of_started (hk.trans hj)
  rw [hcount] at hwire
  exact ⟨v, t, step_txnStart_started hfree hmax hlen, hrun, hstep, hdone, hresult, hfail, hcount, hwire⟩

end Sys2Proof.Machine
end

section
/-! SUPPORT. A whole reply fed to a waiting sequencer (43_sequencer.md R98, R103, log 1): the statement
GoodReplyIsAccepted. -/

namespace Sys2Proof.Machine

/-- The state with the first received bytes consumed, the rest in `RXQ` and the decoder and the latch as they leave
them. -/
def State.fed (s : State) (rest : List Byte) (d : DecRegs) (f : FrameLatch) : State :=
  { s with rxq := rest, dec := d, frm := f }

/-- At an open poll point with a byte received the block's next step is FEED (43_sequencer.md R98). -/
theorem step_feed {s : State} {b : Byte} {rest : List Byte} {d : DecRegs} {f : FrameLatch} (hschedule : s.schedule = [])
    (hp : s.txn.phase = .wait) (hpoll : s.txn.pollCnt = 0#16) (hq : s.rxq = b :: rest)
    (hstep : decStep s.params.rxCap b s.dec s.frm = .ok (d, f)) : step s = .next (afterFeed (s.fed rest d f)) := by
  have henabled : feedEnabled s = true := (feedEnabled_iff s).2 ⟨hp, hpoll, by simp [hq]⟩
  rw [step_of_schedule_nil hschedule, autonomousEvent, if_pos henabled, performEvent, feedEvent_of_decStep hq hstep,
    outcome_ok, State.fed]

theorem afterFeed_of_incomplete {s : State} (h : s.dec.result = .incomplete) : afterFeed s = s := by
  simp [afterFeed, h]

theorem afterFeed_of_expected {s : State} (h : s.dec.result = .frame) (hcmd : s.frm.cmd = replyCmd s.params s.req.cmd) :
    afterFeed s = { s with txn := { s.txn with phase := .done, result := .ok } } := by
  simp [afterFeed, h, hcmd]

/-- A row of received bytes of which the last alone may be terminal is fed one byte a step, and the last one's result
decides (43_sequencer.md R98). -/
theorem run_feeds {bs rest : List Byte} {k : Nat} {r : DecResult} {s : State} {d : DecRegs} {f : FrameLatch}
    (hschedule : s.schedule = []) (hp : s.txn.phase = .wait) (hpoll : s.txn.pollCnt = 0#16) (hq : s.rxq = bs ++ rest)
    (hfeed : feedAll s.params.rxCap bs s.dec s.frm = .ok (List.replicate k .incomplete ++ [r], d, f)) :
    core.run bs.length s = .next (afterFeed (s.fed rest d f)) ∧ d.result = r := by
  induction bs generalizing s k with
  | nil =>
    simp [feedAll] at hfeed
  | cons b bs ih =>
    obtain ⟨d₁, f₁, rs, hstep, hrest⟩ := feedAll_cons_eq_ok hfeed
    have hresults := (feedAll_cons hstep hrest).symm.trans hfeed
    simp only [Except.ok.injEq, Prod.mk.injEq, and_true] at hresults
    have hnext := step_feed hschedule hp hpoll (rest := bs ++ rest) hq hstep
    cases k with
    | zero =>
      obtain ⟨hr, rfl⟩ : d₁.result = r ∧ rs = [] := by simpa using hresults
      cases bs with
      | nil =>
        cases hrest
        exact ⟨core_run_succ 0 hnext, hr⟩
      | cons b' bs =>
        obtain ⟨d₂, f₂, rs₂, hstep₂, hrest₂⟩ := feedAll_cons_eq_ok hrest
        cases (feedAll_cons hstep₂ hrest₂).symm.trans hrest
    | succ k =>
      obtain ⟨hr, rfl⟩ : d₁.result = .incomplete ∧ rs = List.replicate k .incomplete ++ [r] := by
        simpa [List.replicate_succ] using hresults
      rw [afterFeed_of_incomplete (by exact hr)] at hnext
      rw [List.length_cons, core_run_succ _ hnext]
      exact ih (s := s.fed (bs ++ rest) d₁ f₁) hschedule hp hpoll rfl hrest

/-- Settles O49: the decoder accepts the frame on its last byte, and the block feeds it byte by byte. -/
theorem goodReplyIsAccepted : Obligations.GoodReplyIsAccepted := by
  intro s p rest hinv hp hpoll hstart hschedule hcap hq
  obtain ⟨d, f, hfeed, -, hvalid, hcmd, hlen, hbytes, -⟩ :=
    feedAll_encodeFrame (replyCmd s.params s.req.cmd) hstart hcap hinv.decWf hinv.frmWf
  obtain ⟨hrun, hresult⟩ := run_feeds hschedule hp hpoll hq hfeed
  rw [length_encodeFrame, afterFeed_of_expected (by exact hresult) (by exact hcmd)] at hrun
  exact ⟨_, hrun, rfl, rfl, hvalid, hcmd, hlen, hbytes, rfl, rfl⟩

end Sys2Proof.Machine
end

section
/-! SUPPORT. The readback commands `NOP`, `IDX.LO` and `IDX.HI`, `RD` of a buffer byte and the STATUS word
(44_readback.md R108 to R113): the statements NopAndIndexCommands, RdReadsBuffers and StatusWordLayout. -/

namespace Sys2Proof.Machine

/-! ## NOP, IDX.LO and IDX.HI (44_readback.md R108 to R110) -/

theorem decode_nop (imm : Byte) : decode (0x00#8 ++ imm) = formatZ 0x00#8 imm .nop := by
  simp [decode]

theorem decode_idxLo (n : Byte) : decode (0x30#8 ++ n) = .ok (.idxLo n) := by
  simp [decode]

theorem decode_idxHi (n : Byte) : decode (0x31#8 ++ n) = .ok (.idxHi n) := by
  simp [decode]

theorem exec_nop (s : State) : exec .nop s = .next (s.withOpst .ok) := rfl

theorem exec_idxLo (n : Byte) (s : State) : exec (.idxLo n) s =
    .next { s with host := { s.host with idx := setLo s.host.idx n, opst := .ok } } := rfl

theorem exec_idxHi (n : Byte) (s : State) : exec (.idxHi n) s =
    .next { s with host := { s.host with idx := setHi s.host.idx n, opst := .ok } } := rfl

/-- Settles O31: a format Z row and two format I rows, no phase is tested, and a half of `IDX` is put there by a
mask. -/
theorem nopAndIndexCommands : Obligations.NopAndIndexCommands := by
  refine ⟨commandZ_of_decode decode_nop, commandI_of_decode decode_idxLo, commandI_of_decode decode_idxHi,
    fun s n => ⟨exec_nop s, ?_, ?_⟩⟩
  · rw [exec_idxLo, setLo_eq_mask]
  · rw [exec_idxHi, setHi_eq_mask]

/-! ## RD of a buffer byte (44_readback.md R112) -/

theorem exec_rd_of_buffer {sel : Byte} {buf : Buffer} (hbuf : bufferOfSelector sel = some buf) (s : State) :
    exec (.rd sel) s = readBuffer buf s := by
  simp only [exec, execRd, hbuf]

/-- Below the length, and so below the capacity, the byte is there; at the length or beyond, RD answers RANGE. -/
theorem exec_rd_buffer {sel : Byte} {buf : Buffer} (hbuf : bufferOfSelector sel = some buf) {s : State}
    (hcap : (bufferLen s buf).toNat ≤ bufferCap s buf) :
    (s.host.idx < bufferLen s buf → exec (.rd sel) s = .next { s with
      host := { s.host with
        resp := BitVec.ofNat 16 ((bufferOf s buf).read s.host.idx.toNat).toNat, opst := .ok } }) ∧
    (bufferLen s buf ≤ s.host.idx → exec (.rd sel) s = .next (s.withOpst .range)) := by
  rw [exec_rd_of_buffer hbuf]
  refine ⟨fun hidx => ?_, fun hidx => readBuffer_of_not_lt (BitVec.not_lt.2 hidx)⟩
  have hlt : s.host.idx.toNat < bufferCap s buf := Nat.lt_of_lt_of_le (BitVec.lt_def.1 hidx) hcap
  rw [readBuffer_of_lt hidx hlt, zext16_eq_ofNat]
  rfl

/-- Settles O33: each of the three selectors names its buffer, with its current length and its capacity. -/
theorem rdReadsBuffers : Obligations.RdReadsBuffers := by
  rintro s sel buf len cap (⟨rfl, rfl, rfl, rfl⟩ | ⟨rfl, rfl, rfl, rfl⟩ | ⟨rfl, rfl, rfl, rfl⟩) hcap
  · exact exec_rd_buffer (buf := .req) rfl (BitVec.le_def.1 hcap)
  · exact exec_rd_buffer (buf := .dec) rfl (BitVec.le_def.1 hcap)
  · exact exec_rd_buffer (buf := .frm) rfl (BitVec.le_def.1 hcap)

/-! ## The STATUS word (44_readback.md R113) -/

/-- A field put below another one is added to it, the upper one counted in units of the lower one's size. -/
theorem toNat_append_eq_add {m n : Nat} (high : BitVec m) (low : BitVec n) :
    (high ++ low).toNat = 2 ^ n * high.toNat + low.toNat := by
  rw [BitVec.toNat_append, ← Nat.shiftLeft_add_eq_or_of_lt low.isLt, Nat.shiftLeft_eq, Nat.mul_comm]

theorem toNat_statusWord (s : State) : (statusWord s).toNat =
    s.dec.state.code.toNat + 8 * s.frm.valid.toNat + 16 * s.txn.phase.code.toNat
      + 64 * s.txn.result.code.toNat + 256 * s.host.opst.code.toNat := by
  rw [statusWord, BitVec.setWidth_eq]
  simp only [toNat_append_eq_add, BitVec.toNat_ofBool, BitVec.toNat_ofNat]
  omega

/-- The fields leave bits 15:11 zero. -/
theorem extractLsb'_statusWord (s : State) : (statusWord s).extractLsb' 11 5 = 0#5 := by
  have hlt : (statusWord s).toNat < 2 ^ 11 := by
    rw [toNat_statusWord]
    have hvalid := s.frm.valid.toNat_le
    omega
  apply BitVec.eq_of_toNat_eq
  rw [BitVec.extractLsb'_toNat, Nat.shiftRight_eq_div_pow, Nat.div_eq_of_lt hlt]
  rfl

/-- Settles O34: STATUS is a value like any other, taken before the RD writes `OPST`. -/
theorem statusWordLayout : Obligations.StatusWordLayout :=
  fun s => ⟨statusWord s, exec_rd_of_value rfl rfl, toNat_statusWord s, extractLsb'_statusWord s⟩

end Sys2Proof.Machine
end

section
/-! SUPPORT. Who writes `OPST` (60_exceptions.md R114): the statement StatusWriters. -/

namespace Sys2Proof.Machine

theorem feedEvent_host {s t : State} (h : feedEvent s = .ok t) : t.host = s.host := by
  rcases feedEvent_cases h with ⟨-, rfl⟩ | ⟨b, rest, d, f, -, -, rfl⟩
  · rfl
  · exact afterFeed_host _

theorem sendAttempt_host {s t : State} (h : sendAttempt s = .ok t) : t.host = s.host := by
  obtain ⟨-, rfl⟩ := sendAttempt_eq_ok h
  rfl

/-- The host interface belongs to the commands and to RESET (10_state.md R23). -/
theorem step_host {s t : State} (h : step s = .next t) (hcmd : ∀ w, s.nextEvent ≠ .cmd w)
    (hreset : s.nextEvent ≠ .reset) : t.host = s.host := by
  rcases step_cases h with ⟨w, hn, -⟩ | ⟨b, -, rfl⟩ | ⟨-, -, hfeed⟩ | ⟨-, -, rfl⟩ | ⟨-, -, hsend⟩ | ⟨-, -, rfl⟩ |
    ⟨hn, -⟩
  · exact absurd hn (hcmd w)
  · rfl
  · exact feedEvent_host (s := s.popEvent) hfeed
  · exact closeEvent_host s.popEvent
  · exact sendAttempt_host (s := s.popEvent) hsend
  · exact tickEvent_host s.popEvent
  · exact absurd hn hreset

/-- A command word whose status is not OK was turned back with that status. -/
theorem commandEvent_of_status_ne_ok {w : Half} {s t : State} (h : commandEvent w s = .next t)
    (hstatus : t.host.opst ≠ .ok) : t = s.withOpst t.host.opst := by
  rcases commandEvent_cases h with ⟨c, -, rfl⟩ | ⟨i, u, -, -, rfl⟩
  · rfl
  · exact absurd (setStatus_host_opst .ok u) hstatus

/-- Settles O51: a command turned back writes its status alone, and the other events but RESET leave the host
interface. -/
theorem statusWriters : Obligations.StatusWriters :=
  ⟨fun _ _ _ h hstatus => commandEvent_of_status_ne_ok h hstatus,
    fun _ _ h hcmd hreset => congrArg HostRegs.opst (step_host h hcmd hreset)⟩

end Sys2Proof.Machine
end

section
/-! SUPPORT. Every enabled event completes under the invariant (60_exceptions.md R118, 20_memory.md R31): each buffer
access of a command or an event lies below a length the invariant bounds by the capacity. The statement
EnabledEventsComplete. -/

namespace Sys2Proof.Machine

section
variable {s : State} (hinv : Inv s)
include hinv

/-! ## The buffer accesses -/

theorem Inv.bufferLen_le_bufferCap (buf : Buffer) : (bufferLen s buf).toNat ≤ bufferCap s buf := by
  cases buf with
  | req => exact BitVec.le_def.1 hinv.reqLen
  | dec => exact BitVec.le_def.1 hinv.pcountCap
  | frm => exact BitVec.le_def.1 hinv.frmLen

theorem Inv.decStep_answers (b : Byte) : ∃ d f, decStep s.params.rxCap b s.dec s.frm = .ok (d, f) := by
  refine Machine.decStep_answers (fun _ => hinv.pcountCap) (fun hend => ?_) b s.frm
  obtain ⟨-, hpcount, -⟩ := (DecRegs.consistent_awaitingEnd_iff hend).1 hinv.decoder
  exact hpcount ▸ hinv.pcountCap

/-! ## The commands (30_encoding.md R53) -/

theorem Inv.execRd_completes (sel : Byte) : ∃ t, exec (.rd sel) s = .next t := by
  cases hbuf : bufferOfSelector sel with
  | some buf =>
    have hread := exec_rd_buffer hbuf (hinv.bufferLen_le_bufferCap buf)
    by_cases hidx : s.host.idx < bufferLen s buf
    · exact ⟨_, hread.1 hidx⟩
    · exact ⟨_, hread.2 (BitVec.not_lt.1 hidx)⟩
  | none =>
    cases hvalue : selectorValue s sel with
    | some v => exact ⟨_, exec_rd_of_value hbuf hvalue⟩
    | none => exact ⟨_, exec_rd_of_no_value hbuf hvalue⟩

theorem Inv.reqPush_completes (hfree : s.busy = false) (b : Byte) : ∃ t, exec (.reqPush b) s = .next t := by
  by_cases hfull : s.req.len = s.params.txCap
  · exact ⟨_, exec_reqPush_full hfree b hfull⟩
  · have hlt : s.req.len < s.params.txCap := by
      have hlen := hinv.reqLen
      bv_omega
    exact ⟨_, exec_reqPush_of_lt hfree b hlt⟩

theorem Inv.txnStart_completes (hfree : s.busy = false) : ∃ t, exec .txnStart s = .next t := by
  by_cases hmax : s.cfg.maxAttempts = 0#8
  · exact ⟨_, exec_txnStart_noAttempt hfree hmax⟩
  · exact ⟨_, exec_txnStart_of_send hfree hmax (sendAttempt_of_le (s := openTransaction s) hinv.reqLen)⟩

/-- A busy operation is turned back while a transaction runs, and completes otherwise (43_sequencer.md R91). -/
theorem Inv.busyOperation_completes {i : Instr} (hi : busyOperation i = true) : ∃ t, exec i s = .next t := by
  cases hbusy : s.busy with
  | true => exact ⟨_, exec_of_busy hi hbusy⟩
  | false =>
    cases i with
    | reqClear => exact ⟨_, exec_reqClear hbusy⟩
    | reqCmd c => exact ⟨_, exec_reqCmd hbusy c⟩
    | reqPush b => exact hinv.reqPush_completes hbusy b
    | encSend => exact ⟨_, exec_encSend hbusy hinv.reqLen⟩
    | decReset => exact ⟨_, exec_decReset hbusy⟩
    | decFeed b =>
      obtain ⟨d, f, hstep⟩ := hinv.decStep_answers b
      exact ⟨_, exec_decFeed_of_decStep hbusy hstep⟩
    | cfgAtt n => exact ⟨_, exec_cfgAtt hbusy n⟩
    | cfgTmol t => exact ⟨_, exec_cfgTmol hbusy t⟩
    | cfgTmoh t => exact ⟨_, exec_cfgTmoh hbusy t⟩
    | cfgPolll p => exact ⟨_, exec_cfgPolll hbusy p⟩
    | cfgPollh p => exact ⟨_, exec_cfgPollh hbusy p⟩
    | txnStart => exact hinv.txnStart_completes hbusy
    | nop | crcInit | crcByte | idxLo | idxHi | rd => cases hi

theorem Inv.exec_completes (i : Instr) : ∃ t, exec i s = .next t := by
  cases i with
  | nop | crcInit | crcByte | idxLo | idxHi => exact ⟨_, rfl⟩
  | rd sel => exact hinv.execRd_completes sel
  | _ => exact hinv.busyOperation_completes rfl

/-! ## The events (10_state.md R28) -/

theorem Inv.commandEvent_completes (w : Half) : ∃ t, commandEvent w s = .next t := by
  cases hdecode : decode w with
  | ok i =>
    rw [commandEvent_of_decode hdecode]
    exact hinv.exec_completes i
  | error e => exact ⟨_, commandEvent_of_decode_error hdecode s⟩

/-- FEED completes on an empty queue too, where it is not enabled. -/
theorem Inv.feedEvent_answers : ∃ t, feedEvent s = .ok t := by
  cases hq : s.rxq with
  | nil => exact ⟨s, by rw [feedEvent, hq]⟩
  | cons b rest =>
    obtain ⟨d, f, hstep⟩ := hinv.decStep_answers b
    exact ⟨_, feedEvent_of_decStep hq hstep⟩

theorem Inv.performEvent_completes (e : Event) : ∃ t, performEvent e s = .next t := by
  cases e with
  | cmd w => exact hinv.commandEvent_completes w
  | feed =>
    obtain ⟨t, hfeed⟩ := hinv.feedEvent_answers
    exact ⟨t, congrArg outcome hfeed⟩
  | resend => exact ⟨_, congrArg outcome (sendAttempt_of_le hinv.reqLen)⟩
  | rx | close | tick | reset => exact ⟨_, rfl⟩

end

theorem step_of_not_enabled {s : State} (h : s.nextEvent.enabled s = false) : step s = .fault .eventNotEnabled := by
  simp [step, takeEvent, h]

/-- Settles O54: taking the event off the schedule keeps the invariant, and under it every event completes. -/
theorem enabledEventsComplete : Obligations.EnabledEventsComplete := by
  refine fun s hinv => ⟨fun henabled => ?_, step_of_not_enabled⟩
  rw [step_of_enabled henabled]
  exact hinv.popEvent.performEvent_completes s.nextEvent

end Sys2Proof.Machine
end

section
/-! SUPPORT. The RESET event and the state right after reset (70_reset_and_hazards.md R127): the statements
ResetSetsEveryRegister and InvariantAtReset. -/

namespace Sys2Proof.Machine

/-! ## The event -/

/-- RESET is always enabled (10_state.md R28) and takes its event off the schedule. -/
theorem step_reset {s : State} {events : List Event} (h : s.schedule = .reset :: events) :
    step s = .next (resetEvent { s with schedule := events }) :=
  step_scheduled h rfl

/-- Settles O43: every register's value is RESET's own, and the buffers hold the bytes they held (log 7). -/
theorem resetSetsEveryRegister : Obligations.ResetSetsEveryRegister :=
  fun s _ h => ⟨s.req.buf, s.dec.buf, s.frm.buf, step_reset h⟩

/-! ## The invariant right after reset, part by part -/

theorem Memory.within_nil (cap : Nat) : Memory.within cap [] = true := rfl

section
variable (p : Params)

theorem State.resetWith_req_valid : (State.resetWith p).req.Valid p.txCap :=
  ⟨Memory.wf_nil, Memory.within_nil _, zero_le_half p.txCap⟩

theorem State.resetWith_dec_valid : (State.resetWith p).dec.Valid p.rxCap :=
  ⟨Memory.wf_nil, Memory.within_nil _, BitVec.le_refl _, zero_le_half p.rxCap, DecRegs.consistent_awaitingStart rfl⟩

/-- The latch is not valid after reset, so its CRC is free. -/
theorem State.resetWith_frm_valid : (State.resetWith p).frm.Valid p.rxCap :=
  ⟨Memory.wf_nil, Memory.within_nil _, zero_le_half p.rxCap, fun hvalid => by cases hvalid⟩

theorem State.resetWith_sequencerConsistent : (State.resetWith p).sequencerConsistent :=
  (State.sequencerConsistent_idle_iff rfl).2 ⟨rfl, rfl⟩

theorem State.resetWith_inv : Inv (State.resetWith p) :=
  (inv_iff _).2
    ⟨State.resetWith_req_valid p, State.resetWith_dec_valid p, State.resetWith_frm_valid p,
      State.resetWith_sequencerConsistent p⟩

end

/-- Settles O53: `State.reset` is the case of the test vectors' parameters (log 3). -/
theorem invariantAtReset : Obligations.InvariantAtReset :=
  ⟨State.resetWith_inv, State.resetWith_inv Params.ofTestVectors⟩

end Sys2Proof.Machine
end
